-- ==== Sys2Proof/Config.lean ====
section
/-!
DEFINITION. The parameters an implementation of the block fixes (spec/00_scope.md R9 to R12): the
integer width, the type of a collaborator's error payload, and the policy after a rejected byte.
-/

namespace Sys2Proof

/-- `INTW` (R9): the width of the integer operands and of a response's `count`. The spec's default,
64, is taken (assumption 1). -/
abbrev Config.intw : Nat := 64

/-- Which numbers beside 0 name an error payload, so how many payloads there are: the implementation's
part of the OPEN parameter `ERR_T` (R10, D6). It has no body (assumption 2). -/
opaque Config.namesPayload : Nat → Prop

/-- `ERR_T` (R10): the opaque payload of a source or sink failure, a token with no structure that the
block only copies. The type is open: it has a payload, and no proof can tell whether it has a second
one (assumption 2). -/
abbrev ErrT := { n : Nat // n = 0 ∨ Config.namesPayload n }

/-- `SINK_FAIL_POLICY` (R11): what unit W does with the byte a sink has just rejected. -/
inductive SinkFailPolicy where
  /-- HOLD: the accumulator and the cursor stay as they were; the byte stays pending. -/
  | hold
  /-- DROP: the accumulator and the cursor are cleared, as after an accepted byte; the byte is lost. -/
  | drop
deriving DecidableEq, Repr, Inhabited

/-- The implementation's value of the OPEN parameter `SINK_FAIL_POLICY` (R11, D7, U3). It has no body:
no proof can tell which of the two it is (assumption 3). -/
opaque Config.sinkFailPolicy : SinkFailPolicy

end Sys2Proof
end

