-- ==== Sys2Proof/Word.lean ====
section
/-!
DEFINITION. The machine's words: a byte (R12: 8 bits), an integer operand of INTW bits (R9), a
command header of 8 + 2·INTW bits (R71), and a cursor position (R13).
-/

namespace Sys2Proof

/-- A byte, 8 bits (R12). -/
abbrev Byte := BitVec 8

/-- An integer operand, a payload length or a response count: INTW = 64 bits (R9). -/
abbrev Word := BitVec 64

/-- The command header word, `op ‖ a ‖ len` (R71). -/
abbrev Header := BitVec 136

/-- A position in a byte, counted from the most significant bit (R13). A cursor is one, and its
arithmetic is modulo 8 (R14). -/
abbrev Position := Fin 8

theorem word_width : Config.intw = 64 := rfl

theorem header_width : 8 + 2 * Config.intw = 136 := rfl

end Sys2Proof
end

