-- ==== Sys2Proof/Syntax.lean ====
section
/-!
DEFINITION. The commands of the block (spec/30_encoding.md R74), the command record a port carries
(R70, R71, R76), and the assembler's lines (R81).
-/

namespace Sys2Proof

/-- The two units, each with a command port of its own (R2, R70). -/
inductive UnitId where
  /-- Unit R, the deserializer. -/
  | unitR
  /-- Unit W, the serializer. -/
  | unitW
deriving DecidableEq, Repr

/-- One constructor per row of spec/opcode_table.json, with the operands that are meaningful in its
format (R73, R74). The operands stay INTW-bit words: the decoder does not narrow them (R75). -/
inductive Instr where
  /-- READBIT, format N (R101). -/
  | readbit
  /-- READBITS, format A: `a` is the signed count n (R105). -/
  | readbits (n : Word)
  /-- WRITEBIT, format A: `a` is the bit value, validated by the meaning (R140, R141). -/
  | writebit (x : Word)
  /-- WRITEBITS, format AB: `a` is the signed count n, and `buf` the payload; `len` is its length
  (R76, R144). -/
  | writebits (n : Word) (buf : List Byte)
  /-- FLUSH, format N (R148). -/
  | flush
  /-- FLUSHONES, format N (R150). -/
  | flushones
deriving DecidableEq, Repr

/-- A command record: the header word and the payload bytes delivered with it (R70, R76). -/
structure CommandRecord where
  header  : Header
  payload : List Byte
deriving DecidableEq, Repr

/-- Why a record is no command of the port that received it. The first three are the illegal commands
of R79; the last two are records no port can carry (R9, R73). -/
inductive DecodeReject where
  /-- `op[6:4] ≠ 0b000` (R79 (a)). -/
  | reservedBits
  /-- `op[7]` does not name the unit whose port received the command (R79 (c)). -/
  | wrongUnit
  /-- `op[3:0]` is no function of the unit (R79 (b)). -/
  | undefinedFunction
  /-- A WRITEBITS header whose `len` exceeds 2^(INTW-1) - 1, a value R9 says never occurs. -/
  | lenOutOfRange
  /-- A WRITEBITS record whose payload is not exactly `len` bytes (R73, R76). -/
  | payloadLength
deriving DecidableEq, Repr

/-- What the decoder reads from a record: a command, or the reason there is none. -/
inductive Decoded where
  | instr  (i : Instr)
  | reject (why : DecodeReject)
deriving DecidableEq, Repr

/-- One line of the spec's assembler syntax (R81), with its operands as integers. -/
inductive AsmLine where
  | readbit
  | readbits  (n : Int)
  | writebit  (b : Int)
  | writebits (n : Int) (buf : List Byte)
  | flush
  | flushones
deriving DecidableEq, Repr

end Sys2Proof
end

