-- ==== Sys2Proof/WellFormed.lean ====
section
/-!
DEFINITION. The checks on commands as syntax: a WRITEBITS buffer whose length the `len` field may
hold (R9), and a record whose payload fits its header (R73, R76).
-/

namespace Sys2Proof

/-- The most bytes a payload may have: `len` "never exceeds 2^(INTW-1) - 1" (R9). -/
abbrev maxLen : Nat := 2 ^ 63 - 1

/-- An instruction some command record carries. -/
def Instr.wellFormed : Instr → Bool
  | .readbit => true
  | .readbits _ => true
  | .writebit _ => true
  | .writebits _ buf => decide (buf.length ≤ maxLen)
  | .flush => true
  | .flushones => true

/-- An assembler line whose integers its fields can hold: `a` is INTW-bit two's complement (R75), and
the listed bytes are counted by `len` (R81). -/
def AsmLine.wellFormed : AsmLine → Bool
  | .readbit => true
  | .readbits n => decide (-2 ^ 63 ≤ n ∧ n < 2 ^ 63)
  | .writebit b => decide (-2 ^ 63 ≤ b ∧ b < 2 ^ 63)
  | .writebits n buf => decide (-2 ^ 63 ≤ n ∧ n < 2 ^ 63) && decide (buf.length ≤ maxLen)
  | .flush => true
  | .flushones => true

end Sys2Proof
end

