-- ==== Sys2Proof/Decode.lean ====
section
/-!
DEFINITION. The decoder and, after it, the encoder and the assembler (spec/30_encoding.md R71 to R81).
-/

namespace Sys2Proof

/-! The header's fields (R71) and the opcode's sub-fields (R72). -/

def opField (h : Header) : Byte := h.extractLsb' 128 8

def aField (h : Header) : Word := h.extractLsb' 64 64

def lenField (h : Header) : Word := h.extractLsb' 0 64

/-- `op[7]`: 0 names unit R, 1 names unit W (R72). -/
def opUnit (op : Byte) : UnitId := if op.getLsbD 7 then .unitW else .unitR

/-- `op[6:4]`, which must be 0b000 (R72). -/
def opReserved (op : Byte) : BitVec 3 := op.extractLsb' 4 3

/-- `op[3:0]`, the function within the unit (R72). -/
def opFunction (op : Byte) : BitVec 4 := op.extractLsb' 0 4

/-- WRITEBITS' operands (R73, R76): the payload is exactly `len` bytes, and `len` is in R9's range. -/
def decodeWritebits (c : CommandRecord) : Decoded :=
  if maxLen < (lenField c.header).toNat then .reject .lenOutOfRange
  else if c.payload.length = (lenField c.header).toNat then
    .instr (.writebits (aField c.header) c.payload)
  else .reject .payloadLength

/-- The functions of unit R (R74). -/
def decodeReader (c : CommandRecord) : Decoded :=
  match (opFunction (opField c.header)).toNat with
  | 1 => .instr .readbit
  | 2 => .instr (.readbits (aField c.header))
  | _ => .reject .undefinedFunction

/-- The functions of unit W (R74). -/
def decodeWriter (c : CommandRecord) : Decoded :=
  match (opFunction (opField c.header)).toNat with
  | 1 => .instr (.writebit (aField c.header))
  | 2 => decodeWritebits c
  | 3 => .instr .flush
  | 4 => .instr .flushones
  | _ => .reject .undefinedFunction

/-- The decoder of one port (R74, R79), total on every record. An ignored field has no effect, whatever
its value (R73). -/
def decode (port : UnitId) (c : CommandRecord) : Decoded :=
  if opReserved (opField c.header) ≠ 0 then .reject .reservedBits
  else if opUnit (opField c.header) ≠ port then .reject .wrongUnit
  else match port with
    | .unitR => decodeReader c
    | .unitW => decodeWriter c

/-- The rejects that are illegal commands (R79), as against records no port carries. -/
def DecodeReject.isIllegal : DecodeReject → Bool
  | .reservedBits => true
  | .wrongUnit => true
  | .undefinedFunction => true
  | .lenOutOfRange => false
  | .payloadLength => false

/-! The encoder, from the same tables. -/

/-- The unit that executes an instruction (R74). -/
def Instr.unit : Instr → UnitId
  | .readbit => .unitR
  | .readbits _ => .unitR
  | .writebit _ => .unitW
  | .writebits _ _ => .unitW
  | .flush => .unitW
  | .flushones => .unitW

/-- The opcode column of R74. -/
def Instr.opcode : Instr → Byte
  | .readbit => 0x01
  | .readbits _ => 0x02
  | .writebit _ => 0x81
  | .writebits _ _ => 0x82
  | .flush => 0x83
  | .flushones => 0x84

/-- The `a` operand; an ignored field is written as 0 (R81). -/
def Instr.aOperand : Instr → Word
  | .readbit => 0
  | .readbits n => n
  | .writebit x => x
  | .writebits n _ => n
  | .flush => 0
  | .flushones => 0

/-- The payload the record carries (R73: format AB only). -/
def Instr.payload : Instr → List Byte
  | .readbit => []
  | .readbits _ => []
  | .writebit _ => []
  | .writebits _ buf => buf
  | .flush => []
  | .flushones => []

/-- `op ‖ a ‖ len` (R71). -/
def packHeader (op : Byte) (a len : Word) : Header := op ++ a ++ len

/-- The record of an instruction: its header, with `len` the number of payload bytes, and the payload
(R71, R76, R81). -/
def encode (i : Instr) : CommandRecord :=
  { header := packHeader i.opcode i.aOperand (BitVec.ofNat 64 i.payload.length)
    payload := i.payload }

/-! The assembler (R81). -/

/-- A line's instruction: a negative operand becomes its two's complement (R81). -/
def AsmLine.toInstr : AsmLine → Instr
  | .readbit => .readbit
  | .readbits n => .readbits (BitVec.ofInt 64 n)
  | .writebit b => .writebit (BitVec.ofInt 64 b)
  | .writebits n buf => .writebits (BitVec.ofInt 64 n) buf
  | .flush => .flush
  | .flushones => .flushones

/-- The record a line assembles to. -/
def assemble (l : AsmLine) : CommandRecord := encode l.toInstr

def byteListText (bs : List Byte) : String :=
  "[" ++ ", ".intercalate (bs.map fun b => toString b.toNat) ++ "]"

/-- A line as text, with its unit prefix and its operands in decimal (R81). -/
def AsmLine.text : AsmLine → String
  | .readbit => "R.READBIT"
  | .readbits n => "R.READBITS " ++ toString n
  | .writebit b => "W.WRITEBIT " ++ toString b
  | .writebits n buf => "W.WRITEBITS " ++ toString n ++ ", " ++ byteListText buf
  | .flush => "W.FLUSH"
  | .flushones => "W.FLUSHONES"

/-! The host's numbering: a table word is the header itself, bit 0 its least significant bit. -/

/-- The record of a table word: the header, and for a WRITEBITS header the `len` zero bytes that its
payload then is. -/
def recordOfTableWord (nbits w : Nat) : CommandRecord :=
  let h : Header := BitVec.ofNat 136 (w % 2 ^ nbits)
  { header := h
    payload := if opField h = 0x82 then List.replicate (lenField h).toNat 0 else [] }

/-- What the decoder reads from a table word, on the port of the unit that its `op[7]` names. -/
def decodeTableWord (nbits w : Nat) : Option Instr :=
  match decode (opUnit (opField (recordOfTableWord nbits w).header)) (recordOfTableWord nbits w) with
  | .instr i => some i
  | .reject _ => none

end Sys2Proof
end

