-- ==== Sys2Proof/Machine/State.lean ====
section
/-!
DEFINITION. The state of the block as plain data (spec/10_state.md), with the two byte streams
(spec/20_memory.md), the command and response ports (spec/30_encoding.md) and the reset lines
(spec/70_reset_and_hazards.md). The two units share no field (R31).
-/

namespace Sys2Proof.Machine

/-- A status of the pseudocode (R16): an IOFAIL carries the collaborator's payload. -/
inductive Status where
  | ok
  | eos
  | invalidBit
  | iofail (e : ErrT)
  | illegalCmd
deriving DecidableEq, Repr

/-- One response record, field by field (R77). -/
structure Response where
  /-- the status code (R78) -/
  status  : BitVec 3
  bit     : BitVec 1
  count   : Word
  err     : Option ErrT
  payload : List Byte
deriving DecidableEq, Repr

/-- The source's answer to one request (R51). -/
inductive SourceAnswer where
  | byte (v : Byte)
  | eos
  | fail (e : ErrT)
deriving DecidableEq, Repr

/-- The sink's answer to one offer (R52). -/
inductive SinkAnswer where
  | ack
  | fail (e : ErrT)
deriving DecidableEq, Repr

/-- The pack unit, private to unit R during one READBITS (R27): `pk_acc`, `pk_cur`, `pk_out`. -/
structure Pack where
  acc : Byte
  cur : Position
  out : List Byte
deriving DecidableEq, Repr

/-- A command of unit R that needs a byte and has no answer yet (R240): its request is out, or goes out
when the answer to an abandoned one has come (R61). It is a READBIT, or a READBITS with the bits it still
wants, the bits it has read, and its pack unit. -/
inductive ReaderTask where
  | readbit
  | readbits (remaining count : Nat) (pack : Pack)
deriving DecidableEq, Repr

/-- A command of unit W that offers `w_acc` to the sink and has no answer yet (R240): its offer is out, or
goes out when the answer to an abandoned one has come (R61). For a WRITEBITS, its operands and the index of
the bit that completed the byte. -/
inductive WriterTask where
  | writebit
  | writebits (n : Nat) (buf : List Byte) (j : Nat)
  | flush
  | flushones
deriving DecidableEq, Repr

/-- Unit R, its source connection and its response port. -/
structure ReaderUnit where
  /-- `r_cur`: the position the next read produces (R20, R21). -/
  cur       : Position
  /-- `r_byte`: the byte last fetched, absent before the first fetch (R20, R22). -/
  byte      : Option Byte
  /-- `r_eos`: the source has answered EOS (R20, R23). -/
  eos       : Bool
  /-- The command in flight, if it waits for the source (R70, R240); `none` when the unit is idle. -/
  task      : Option ReaderTask
  /-- The source's answers that stand ready for the next requests, in order (R51, R61). -/
  answers   : List SourceAnswer
  /-- A request that a reset abandoned has its answer still to come, to be discarded (R233). Until then no
  other request is made, so there is never more than one (R61, assumption 5). -/
  stale     : Bool
  /-- The answers of every completed source transaction, in order (R51, R61, R243); one that a reset
  abandoned is not among them (assumption 19). -/
  log       : List SourceAnswer
  /-- The responses delivered on unit R's response port, in order (R70, R243). -/
  responses : List Response
deriving DecidableEq, Repr

/-- Unit W, its sink connection and its response port. -/
structure WriterUnit where
  /-- `w_cur`: the position the next written bit fills (R24, R25). -/
  cur       : Position
  /-- `w_acc`: the bits written and not yet emitted (R24, R26). -/
  acc       : Byte
  /-- The command in flight, if it waits for the sink (R70, R240); `none` when the unit is idle. -/
  task      : Option WriterTask
  /-- The sink's answers that stand ready for the next offers, in order (R52, R61). -/
  answers   : List SinkAnswer
  /-- An offer that a reset abandoned has its answer still to come, to be discarded (R233). Until then no
  other offer is made, so there is never more than one (R61, assumption 5). -/
  stale     : Bool
  /-- The byte offered and the answer of every completed sink transaction, in order (R52, R61); one that
  a reset abandoned is not among them (assumption 19). -/
  log       : List (Byte × SinkAnswer)
  /-- The responses delivered on unit W's response port, in order (R70, R243). -/
  responses : List Response
  /-- `SINK_FAIL_POLICY` (R11): a parameter of the implementation, written by nothing. It stands here
  so that one model covers both values (assumption 3). -/
  policy    : SinkFailPolicy
deriving DecidableEq, Repr

/-- One thing the outside world does to the block: the caller presents a command at a port (R70), the
source or the sink answers (R51, R52), or reset lines are asserted (R230). -/
inductive Input where
  | command (port : UnitId) (c : CommandRecord)
  | sourceAnswer (a : SourceAnswer)
  | sinkAnswer (a : SinkAnswer)
  /-- `rst_r` -/
  | resetR
  /-- `rst_w` -/
  | resetW
  /-- both reset lines at once -/
  | resetBlock
deriving DecidableEq, Repr

/-- The whole block: the two units, and the inputs still to come, in the order they arrive. -/
structure State where
  r      : ReaderUnit
  w      : WriterUnit
  inputs : List Input
deriving DecidableEq, Repr

/-- The block stops with a fault in one case only. -/
inductive Fault where
  /-- A read of `r_byte` while it holds no value. Raised by READBIT and READBITS in a state with
  `r_cur ≠ 0` and `r_byte` absent, which no run reaches (R22, R28, U5: "fault if a model ever reads it
  absent"). Safe. -/
  | absentByte
deriving DecidableEq, Repr

/-- The runs the model refuses. -/
inductive Refusal where
  /-- The dispatch's own, for an instruction with no meaning yet. No arm uses it. Safe. -/
  | notModelled (mnemonic : String)
  /-- A command presented to a unit that has not answered its last one. Raised by every command of
  that unit (R212, U1: "a run in which two commands to one unit overlap has no meaning; the model
  refuses it"). Safe. -/
  | overlappingCommands (port : UnitId)
  /-- A WRITEBITS record no port can carry: a `len` beyond R9's range, or a payload that is not `len`
  bytes (R73, R76). Raised by the port before any instruction is chosen. Safe. -/
  | malformedRecord (why : DecodeReject)
deriving DecidableEq, Repr

/-- Unit R right after `rst_r` at power-on (R32): its connection has carried nothing. -/
def ReaderUnit.reset : ReaderUnit :=
  { cur := 0, byte := none, eos := false, task := none, answers := [], stale := false, log := [],
    responses := [] }

/-- Unit W right after `rst_w` at power-on (R32); the policy is the implementation's (assumption 3). -/
def WriterUnit.reset : WriterUnit :=
  { cur := 0, acc := 0x00, task := none, answers := [], stale := false, log := [], responses := [],
    policy := Config.sinkFailPolicy }

/-- The block right after reset (R32, R230), with nothing presented to it yet. -/
def State.reset : State :=
  { r := .reset, w := .reset, inputs := [] }

end Sys2Proof.Machine
end

