-- ==== Sys2Proof/Machine/Operands.lean ====
section
/-!
DEFINITION. Every operand form and the bit order: positions in a byte, signed operands, the bits of a
byte list, and packing (spec/00_scope.md R13, R14; spec/20_memory.md R53 to R55; spec/30_encoding.md
R75, R76).
-/

namespace Sys2Proof.Machine

/-- `mask(p) = 0x80 >> p`: the byte with only position p set (R13). -/
def mask (p : Position) : Byte := 0x80#8 >>> p.val

/-- The bit at position p of v, `(v >> (7 - p)) & 1` (R13). -/
def bitAt (v : Byte) (p : Position) : Bool := (v >>> (7 - p.val)).getLsbD 0

/-- `sint(a)`: an operand as a signed integer (R75). -/
def sint (a : Word) : Int := a.toInt

/-- `bit(bs, k)`: position `k mod 8` of byte `bs[k div 8]` (R54). -/
def bufBit (bs : List Byte) (k : Nat) : Bool := bitAt (bs.getD (k / 8) 0) (Fin.ofNat 8 k)

/-- A bit as the integer the writer's step takes (R141). -/
def bitInt (b : Bool) : Int := if b then 1 else 0

/-- The eight bits of a byte, most significant first (R53). -/
def byteBits (v : Byte) : List Bool := (List.finRange 8).map (bitAt v)

/-- The bits of a byte list in stream order (R54). -/
def bitsOf (bs : List Byte) : List Bool := bs.flatMap byteBits

/-- The byte whose position q is `f q` (R55). -/
def byteOf (f : Position → Bool) : Byte :=
  (List.finRange 8).foldl (fun v q => if f q then v ||| mask q else v) 0

/-- `pack(b)`: ceil(k/8) bytes, byte j having position q equal to bit 8j+q, and 0 past the end (R55). -/
def packBits (bs : List Bool) : List Byte :=
  (List.range ((bs.length + 7) / 8)).map fun j => byteOf fun q => bs.getD (8 * j + q.val) false

end Sys2Proof.Machine
end

