-- ==== Sys2Proof/Machine/Flags.lean ====
section
/-!
DEFINITION. Status codes and responses (spec/30_encoding.md R77, R78), and the one flag of the block,
`r_eos` (spec/10_state.md R23, R33). No other status, error or flag is latched anywhere.
-/

namespace Sys2Proof.Machine

/-- The status code of R78. -/
def Status.code : Status → BitVec 3
  | .ok => 0
  | .eos => 1
  | .invalidBit => 2
  | .iofail _ => 3
  | .illegalCmd => 4

/-- `err_of`: the payload of an IOFAIL, none otherwise (R77, R101). -/
def Status.err : Status → Option ErrT
  | .ok => none
  | .eos => none
  | .invalidBit => none
  | .iofail e => some e
  | .illegalCmd => none

/-- `respond(status, bit, count, err_of(status), payload)` as a record (R77). -/
def mkResponse (st : Status) (b : Bool) (count : Nat) (payload : List Byte) : Response :=
  { status := st.code, bit := BitVec.ofBool b, count := BitVec.ofNat 64 count, err := st.err
    payload := payload }

/-- The status a response reports; a reserved code, 5 to 7, reports none and is refused (R78, U9). -/
def Response.report (p : Response) : Option Status :=
  match p.status.toNat, p.err with
  | 0, none => some .ok
  | 1, none => some .eos
  | 2, none => some .invalidBit
  | 3, some e => some (.iofail e)
  | 4, none => some .illegalCmd
  | _, _ => none

/-- The exhausted flag after a source answer: EOS sets it, nothing else changes it (R23, R33, R102). -/
def eosAfter (eos : Bool) : SourceAnswer → Bool
  | .byte _ => eos
  | .eos => true
  | .fail _ => eos

end Sys2Proof.Machine
end

