-- ==== Sys2Proof/Machine/Ops.lean ====
section
/-!
DEFINITION. The shared operations: transactions, the single-bit steps, responses, reset. The block has
no traps: every error is a status in a response, and responding is the whole error mechanism (R207,
R209), so `respondR` and `respondW` stand here in the place of taking an exception.
-/

namespace Sys2Proof.Machine

/-! ## Responding -/

/-- `respond(...)` on unit R: the record is delivered and the unit is idle (R70, R77). -/
def respondR (p : Response) (r : ReaderUnit) : ReaderUnit :=
  { r with task := none, responses := r.responses ++ [p] }

/-- `respond(...)` on unit W: the record is delivered and the unit is idle (R70, R77). -/
def respondW (p : Response) (w : WriterUnit) : WriterUnit :=
  { w with task := none, responses := w.responses ++ [p] }

/-- A unit accepts a command only when idle; overlapping commands are refused (R70, R212, U1). -/
def whenIdleR (s : State) (act : Host.Outcome State Fault Refusal) :
    Host.Outcome State Fault Refusal :=
  if s.r.task.isSome then .refused (.overlappingCommands .unitR) else act

/-- As `whenIdleR`, for unit W. -/
def whenIdleW (s : State) (act : Host.Outcome State Fault Refusal) :
    Host.Outcome State Fault Refusal :=
  if s.w.task.isSome then .refused (.overlappingCommands .unitW) else act

/-- The response to an illegal command: no register changes and no transaction is made; the payload is
discarded with the record (R79, R204). -/
def execIllegal (port : UnitId) (s : State) : Host.Outcome State Fault Refusal :=
  match port with
  | .unitR => whenIdleR s (.next { s with r := respondR (mkResponse .illegalCmd false 0 []) s.r })
  | .unitW => whenIdleW s (.next { s with w := respondW (mkResponse .illegalCmd false 0 []) s.w })

/-! ## Unit R's bit step -/

/-- The outcome of one `rb_step()`: a bit, a status that ends the command, a request with no answer yet
(R240), or a read of an absent byte (R22). -/
inductive BitResult where
  | bit (b : Bool) (r : ReaderUnit)
  | stop (st : Status) (r : ReaderUnit)
  | wait
  | fault (f : Fault)
deriving DecidableEq, Repr

/-- The unit after the source's answer `a` to a request: the transaction is logged, and EOS sets the
exhausted flag (R51, R102, R103). -/
def answered (a : SourceAnswer) (rest : List SourceAnswer) (r : ReaderUnit) : ReaderUnit :=
  { r with answers := rest, log := r.log ++ [a], eos := eosAfter r.eos a }

/-- Produce the bit at position `r_cur` and advance the cursor modulo 8 (R101). -/
def produceBit (r : ReaderUnit) : BitResult :=
  match r.byte with
  | none => .fault .absentByte
  | some v => .bit (bitAt v r.cur) { r with cur := r.cur + 1 }

/-- `SourceRead()` and what `rb_step()` does with its answer (R51, R101 to R103). -/
def fetchThenProduce (r : ReaderUnit) : BitResult :=
  match r.answers with
  | [] => .wait
  | .eos :: rest => .stop .eos (answered .eos rest r)
  | .fail e :: rest => .stop (.iofail e) (answered (.fail e) rest r)
  | .byte v :: rest => produceBit { answered (.byte v) rest r with byte := some v }

/-- `rb_step()` (R101), with the byte-boundary detector `r_cur = 0` (R100). -/
def rbStep (r : ReaderUnit) : BitResult :=
  if r.eos then .stop .eos r
  else if r.cur = 0 then fetchThenProduce r
  else produceBit r

/-! ## The pack unit -/

/-- The pack unit as READBITS clears it (R27). -/
def Pack.empty : Pack := { acc := 0x00, cur := 0, out := [] }

/-- An accumulator with bit b written at position p: a 1 sets it, a 0 leaves it (R26, R106, R141). -/
def setBit (acc : Byte) (p : Position) (b : Bool) : Byte := if b then acc ||| mask p else acc

/-- `pk_put(b)` (R106). -/
def pkPut (pk : Pack) (b : Bool) : Pack :=
  if pk.cur = 7 then
    { acc := 0x00, cur := pk.cur + 1, out := pk.out ++ [setBit pk.acc pk.cur b] }
  else { pk with acc := setBit pk.acc pk.cur b, cur := pk.cur + 1 }

/-- The payload at READBITS' end: a trailing partial byte is zero-padded (R105). -/
def Pack.finish (pk : Pack) : List Byte := if pk.cur = 0 then pk.out else pk.out ++ [pk.acc]

/-! ## Unit W's emission and bit step -/

/-- The outcome of an emission: the sink has answered, or it has not answered yet (R240). -/
inductive EmitResult where
  | done (st : Status) (w : WriterUnit)
  | wait
deriving DecidableEq, Repr

/-- Accumulator and cursor as an accepted byte leaves them (R143). -/
def clearByte (w : WriterUnit) : WriterUnit := { w with acc := 0x00, cur := 0 }

/-- The registers after a rejected byte: HOLD keeps them, DROP clears them (R11, R143). -/
def afterReject (w : WriterUnit) : WriterUnit :=
  match w.policy with
  | .hold => w
  | .drop => clearByte w

/-- The sink transaction that offered `w_acc` is logged with its answer (R52). -/
def offered (a : SinkAnswer) (rest : List SinkAnswer) (w : WriterUnit) : WriterUnit :=
  { w with answers := rest, log := w.log ++ [(w.acc, a)] }

/-- `emit()` (R143). -/
def emit (w : WriterUnit) : EmitResult :=
  match w.answers with
  | [] => .wait
  | .ack :: rest => .done .ok (clearByte (offered .ack rest w))
  | .fail e :: rest => .done (.iofail e) (afterReject (offered (.fail e) rest w))

/-- The outcome of one `wb_step(x)`: a status, or an emission with no answer yet. -/
inductive WriteResult where
  | done (st : Status) (w : WriterUnit)
  | wait (w : WriterUnit)
deriving DecidableEq, Repr

/-- `emit()` at the end of a step, keeping the registers written before it (R141, R150). -/
def emitStep (w : WriterUnit) : WriteResult :=
  match emit w with
  | .done st w' => .done st w'
  | .wait => .wait w

/-- Write bit b at the cursor; the write that fills position 7 emits (R141, R142). -/
def writeBitAt (b : Bool) (w : WriterUnit) : WriteResult :=
  if w.cur = 7 then emitStep { w with acc := setBit w.acc w.cur b }
  else .done .ok { w with acc := setBit w.acc w.cur b, cur := w.cur + 1 }

/-- `wb_step(x)` (R140, R141): validation comes before any state change. -/
def wbStep (x : Int) (w : WriterUnit) : WriteResult :=
  if x ≠ 0 ∧ x ≠ 1 then .done .invalidBit w
  else writeBitAt (decide (x = 1)) w

/-! ## Reset -/

/-- `rst_r` (R231, R233): the registers of R32; a command in flight is abandoned with no response, and
the answer to the one request that is out, its own or that of a command abandoned before it, will be
discarded. DEDUCED: no second request is out then (R61, assumption 5). What the source and the log hold
stays (R234). -/
def ReaderUnit.applyReset (r : ReaderUnit) : ReaderUnit :=
  { r with cur := 0, byte := none, eos := false, task := none
           stale := r.stale || r.task.isSome }

/-- `rst_w` (R232, R233): pending bits are discarded, not emitted; the answer to the one offer that is out
will be discarded. DEDUCED: no second offer is out then (R61, assumption 5). -/
def WriterUnit.applyReset (w : WriterUnit) : WriterUnit :=
  { w with cur := 0, acc := 0x00, task := none
           stale := w.stale || w.task.isSome }

end Sys2Proof.Machine
end

