-- ==== Sys2Proof/Machine/Reader.lean ====
section
/-!
DEFINITION. Unit R, the deserializer: READBIT and READBITS (spec/40_reader.md), and how a command that
waits for the source goes on when the answer comes.
-/

namespace Sys2Proof.Machine

/-! ## READBIT -/

/-- What READBIT makes of its `rb_step()` (R101). A step with no answer leaves the command in flight.
DESIGN CHOICE: the response is delivered in the step of the last answer (assumption 20). -/
def finishReadbit (res : BitResult) (s : State) : Host.Outcome State Fault Refusal :=
  match res with
  | .bit b r => .next { s with r := respondR (mkResponse .ok b 0 []) r }
  | .stop st r => .next { s with r := respondR (mkResponse st false 0 []) r }
  | .wait => .next { s with r := { s.r with task := some .readbit } }
  | .fault f => .fault f

/-- READBIT (R101). -/
def execReadbit (s : State) : Host.Outcome State Fault Refusal :=
  whenIdleR s (finishReadbit (rbStep s.r) s)

/-! ## READBITS -/

/-- The outcome of READBITS' loop. -/
inductive ReadLoop where
  | done (st : Status) (count : Nat) (pack : Pack) (r : ReaderUnit)
  | wait (remaining count : Nat) (pack : Pack) (r : ReaderUnit)
  | fault (f : Fault)
deriving DecidableEq, Repr

/-- `while k < n` of R105, with `remaining = n - k`. -/
def readLoop : Nat → Nat → Pack → ReaderUnit → ReadLoop
  | 0, k, pk, r => .done .ok k pk r
  | rem + 1, k, pk, r =>
    match rbStep r with
    | .bit b r' => readLoop rem (k + 1) (pkPut pk b) r'
    | .stop st r' => .done st k pk r'
    | .wait => .wait (rem + 1) k pk r
    | .fault f => .fault f

/-- The end of READBITS' loop: the response with the bits read so far (R105, R107), in the step of the
last answer (assumption 20), or a command left in flight. -/
def finishReadbits (res : ReadLoop) (s : State) : Host.Outcome State Fault Refusal :=
  match res with
  | .done st k pk r => .next { s with r := respondR (mkResponse st false k pk.finish) r }
  | .wait rem k pk r => .next { s with r := { r with task := some (.readbits rem k pk) } }
  | .fault f => .fault f

/-- READBITS (R104, R105). -/
def execReadbits (n : Word) (s : State) : Host.Outcome State Fault Refusal :=
  whenIdleR s <|
    if sint n ≤ 0 then .next { s with r := respondR (mkResponse .ok false 0 []) s.r }
    else finishReadbits (readLoop (sint n).toNat 0 Pack.empty s.r) s

/-! ## Going on after an answer -/

/-- A command in flight takes up the step that waited; an idle unit does nothing. -/
def resumeReader (s : State) : Host.Outcome State Fault Refusal :=
  match s.r.task with
  | none => .next s
  | some .readbit => finishReadbit (rbStep s.r) s
  | some (.readbits rem k pk) => finishReadbits (readLoop rem k pk s.r) s

/-- The source answers. The answer to a request that a reset abandoned is discarded (R233), and a command
that waits makes its request only now, so it goes on waiting (R61). Any other answer stands ready, and a
command that waits for it goes on (R51). DESIGN CHOICE: a byte so discarded is not logged, so it is none of
the bytes consumed (assumption 19). -/
def sourceAnswered (a : SourceAnswer) (s : State) : Host.Outcome State Fault Refusal :=
  if s.r.stale then .next { s with r := { s.r with stale := false } }
  else resumeReader { s with r := { s.r with answers := s.r.answers ++ [a] } }

end Sys2Proof.Machine
end

