-- ==== Sys2Proof/Machine/Writer.lean ====
section
/-!
DEFINITION. Unit W, the serializer: WRITEBIT, WRITEBITS, FLUSH and FLUSHONES (spec/41_writer.md), and
how a command that waits for the sink goes on when the answer comes.
-/

namespace Sys2Proof.Machine

/-- The end of a WRITEBIT, FLUSH or FLUSHONES: the response with the step's status, or the command
`task` left in flight. DESIGN CHOICE: the response is delivered in the step of the last answer
(assumption 20). -/
def finishWrite (task : WriterTask) (res : WriteResult) (s : State) :
    Host.Outcome State Fault Refusal :=
  match res with
  | .done st w => .next { s with w := respondW (mkResponse st false 0 []) w }
  | .wait w => .next { s with w := { w with task := some task } }

/-- WRITEBIT (R140, R141). -/
def execWritebit (x : Word) (s : State) : Host.Outcome State Fault Refusal :=
  whenIdleW s (finishWrite .writebit (wbStep (sint x) s.w) s)

/-! ## WRITEBITS -/

/-- The outcome of WRITEBITS' loop: the bits whose steps returned OK, or the bit whose emission has no
answer yet. -/
inductive WriteLoop where
  | done (st : Status) (count : Nat) (w : WriterUnit)
  | wait (j : Nat) (w : WriterUnit)
deriving DecidableEq, Repr

/-- The number of bits WRITEBITS writes, `min(n, 8·len)` in unbounded arithmetic (R144). -/
def bitsToWrite (n : Nat) (buf : List Byte) : Nat := min n (8 * buf.length)

/-- WRITEBITS' status when no step failed: EOS when the buffer held fewer than n bits (R146). -/
def exhaustion (n : Nat) (buf : List Byte) : Status :=
  if 8 * buf.length < n then .eos else .ok

/-- `while j < m` of R144, with `remaining = m - j`. -/
def writeLoop (n : Nat) (buf : List Byte) : Nat → Nat → WriterUnit → WriteLoop
  | 0, j, w => .done (exhaustion n buf) j w
  | rem + 1, j, w =>
    match wbStep (bitInt (bufBit buf j)) w with
    | .done .ok w' => writeLoop n buf rem (j + 1) w'
    | .done st w' => .done st j w'
    | .wait w' => .wait j w'

/-- The end of WRITEBITS' loop (R144, R146, R147), in the step of the last answer (assumption 20).
Nothing is flushed. -/
def finishWritebits (n : Nat) (buf : List Byte) (res : WriteLoop) (s : State) :
    Host.Outcome State Fault Refusal :=
  match res with
  | .done st k w => .next { s with w := respondW (mkResponse st false k []) w }
  | .wait j w => .next { s with w := { w with task := some (.writebits n buf j) } }

/-- WRITEBITS (R144, R145). -/
def execWritebits (n : Word) (buf : List Byte) (s : State) : Host.Outcome State Fault Refusal :=
  whenIdleW s <|
    if sint n ≤ 0 then .next { s with w := respondW (mkResponse .ok false 0 []) s.w }
    else
      finishWritebits (sint n).toNat buf
        (writeLoop (sint n).toNat buf (bitsToWrite (sint n).toNat buf) 0 s.w) s

/-- WRITEBITS from the emission that bit j completed: its answer is bit j's status (R144, R147). -/
def writeLoopFrom (n : Nat) (buf : List Byte) (j : Nat) (w : WriterUnit) : WriteLoop :=
  match emit w with
  | .done .ok w' => writeLoop n buf (bitsToWrite n buf - (j + 1)) (j + 1) w'
  | .done st w' => .done st j w'
  | .wait => .wait j w

/-! ## FLUSH and FLUSHONES -/

/-- FLUSH (R148): nothing pending, no transaction; else the accumulator goes out as it stands. -/
def execFlush (s : State) : Host.Outcome State Fault Refusal :=
  whenIdleW s <|
    if s.w.cur = 0 then .next { s with w := respondW (mkResponse .ok false 0 []) s.w }
    else finishWrite .flush (emitStep s.w) s

/-- FLUSHONES' registers before it emits: positions `w_cur`..7 set, the cursor at 7 (R150). -/
def padWithOnes (w : WriterUnit) : WriterUnit :=
  { w with acc := w.acc ||| (0xFF#8 >>> w.cur.val), cur := 7 }

/-- FLUSHONES (R150). -/
def execFlushones (s : State) : Host.Outcome State Fault Refusal :=
  whenIdleW s <|
    if s.w.cur = 0 then .next { s with w := respondW (mkResponse .ok false 0 []) s.w }
    else finishWrite .flushones (emitStep (padWithOnes s.w)) s

/-! ## Going on after an answer -/

/-- A command in flight takes up the emission that waited; an idle unit does nothing. -/
def resumeWriter (s : State) : Host.Outcome State Fault Refusal :=
  match s.w.task with
  | none => .next s
  | some .writebit => finishWrite .writebit (emitStep s.w) s
  | some (.writebits n buf j) => finishWritebits n buf (writeLoopFrom n buf j s.w) s
  | some .flush => finishWrite .flush (emitStep s.w) s
  | some .flushones => finishWrite .flushones (emitStep s.w) s

/-- The sink answers. The answer to an offer that a reset abandoned is discarded (R233), and a command
that waits makes its offer only now, so it goes on waiting (R61). Any other answer stands ready, and a
command that waits for it goes on (R52). DESIGN CHOICE: a byte whose late ACK is so discarded is not logged,
so it is no part of the sink output (assumption 19). -/
def sinkAnswered (a : SinkAnswer) (s : State) : Host.Outcome State Fault Refusal :=
  if s.w.stale then .next { s with w := { s.w with stale := false } }
  else resumeWriter { s with w := { s.w with answers := s.w.answers ++ [a] } }

end Sys2Proof.Machine
end

