-- ==== Sys2Proof/Machine/Dispatch.lean ====
section
/-!
DEFINITION. One arm per instruction (spec/30_encoding.md R74).
-/

namespace Sys2Proof.Machine

def exec (i : Instr) (s : State) : Host.Outcome State Fault Refusal :=
  match i with
  | .readbit => Sys2Proof.Machine.execReadbit s
  | .readbits n => Sys2Proof.Machine.execReadbits n s
  | .writebit x => Sys2Proof.Machine.execWritebit x s
  | .writebits n buf => Sys2Proof.Machine.execWritebits n buf s
  | .flush => Sys2Proof.Machine.execFlush s
  | .flushones => Sys2Proof.Machine.execFlushones s

end Sys2Proof.Machine
end

