-- ==== Sys2Proof/Machine/Ports.lean ====
section
/-!
DEFINITION. What one input does to the block: a command at a port, an answer of a collaborator, a
reset line (spec/30_encoding.md R70, R79; spec/70_reset_and_hazards.md R230 to R233).
-/

namespace Sys2Proof.Machine

/-- A record that is no command: an illegal one is answered (R79); one no port can carry is refused. -/
def rejectRecord (port : UnitId) (why : DecodeReject) (s : State) :
    Host.Outcome State Fault Refusal :=
  if why.isIllegal then execIllegal port s else .refused (.malformedRecord why)

/-- A port receives a record: the opcode is decided before anything else (R208). -/
def receive (port : UnitId) (c : CommandRecord) (s : State) : Host.Outcome State Fault Refusal :=
  match decode port c with
  | .instr i => exec i s
  | .reject why => rejectRecord port why s

/-- One input. -/
def runInput (x : Input) (s : State) : Host.Outcome State Fault Refusal :=
  match x with
  | .command port c => receive port c s
  | .sourceAnswer a => sourceAnswered a s
  | .sinkAnswer a => sinkAnswered a s
  | .resetR => .next { s with r := s.r.applyReset }
  | .resetW => .next { s with w := s.w.applyReset }
  | .resetBlock => .next { s with r := s.r.applyReset, w := s.w.applyReset }

/-- A state whose next input is the record c at the port of the unit its `op[7]` names, that unit being
idle, as a port needs to accept it (R70). -/
def presentFirst (c : CommandRecord) (s : State) : State :=
  match opUnit (opField c.header) with
  | .unitR => { s with r := { s.r with task := none }, inputs := .command .unitR c :: s.inputs }
  | .unitW => { s with w := { s.w with task := none }, inputs := .command .unitW c :: s.inputs }

end Sys2Proof.Machine
end

