-- ==== Sys2Proof/Machine/Step.lean ====
section
/-!
DEFINITION. One step of the block: it takes the next input, and with none to come it holds its
registers unchanged (spec/60_exceptions.md R215).
-/

namespace Sys2Proof.Machine

def step (s : State) : Host.Outcome State Fault Refusal :=
  match s.inputs with
  | [] => .next s
  | x :: rest => runInput x { s with inputs := rest }

/-- s with the table word's record presented next, to an idle unit (assumption 6). -/
def State.withFetchWord (s : State) (nbits w : Nat) : State :=
  presentFirst (recordOfTableWord nbits w) s

end Sys2Proof.Machine
end

