-- ==== Sys2Proof/Safety.lean ====
section
/-!
DEFINITION. What claims are stated in: the invariants of the two units, safe runs, the views of a unit
as a stream of bits, the observable result of a run (R243), and the renaming of error payloads (R10).
-/

namespace Sys2Proof.Machine

/-! ## Commands one after another -/

/-- The commands of the list, each presented when the one before has been executed (R70, R83). -/
def execAll : List Instr → State → Host.Outcome State Fault Refusal
  | [], s => .next s
  | i :: is, s =>
    match exec i s with
    | .next t => execAll is t
    | .fault f => .fault f
    | .refused w => .refused w

/-- A run of the block from s that stops at no fault and no refusal in its first k steps. -/
def SafeFor (k : Nat) (s : State) : Prop := ∃ t, Sys2Proof.core.run k s = .next t

/-! ## Illegal opcodes -/

/-- The opcode column of R74 for one port. -/
def legalOpcodes : UnitId → List Byte
  | .unitR => [0x01, 0x02]
  | .unitW => [0x81, 0x82, 0x83, 0x84]

/-- The functions R79 (b) lists as defined for a unit. -/
def definedFunctions : UnitId → List (BitVec 4)
  | .unitR => [0x1, 0x2]
  | .unitW => [0x1, 0x2, 0x3, 0x4]

/-- R79: an opcode is illegal on a port when (a) a reserved bit is set, (b) the function is not defined
for the unit, or (c) `op[7]` does not name the port's unit. -/
def illegalOn (port : UnitId) (op : Byte) : Bool :=
  op.extractLsb' 4 3 ≠ 0 || op.extractLsb' 0 4 ∉ definedFunctions port ||
    op.getLsbD 7 ≠ (port == .unitW)

/-- The state after a unit has delivered a response and done nothing else. -/
def deliver (port : UnitId) (p : Response) (s : State) : State :=
  match port with
  | .unitR => { s with r := { s.r with responses := s.r.responses ++ [p] } }
  | .unitW => { s with w := { s.w with responses := s.w.responses ++ [p] } }

/-- A unit has a command in flight (R70, R240). -/
def State.busy (port : UnitId) (s : State) : Bool :=
  match port with
  | .unitR => s.r.task.isSome
  | .unitW => s.w.task.isSome

/-! ## Invariants -/

/-- The pack unit after k bits (R27, R106): whole bytes in `out`, the rest in `acc`, nothing after. -/
def Pack.Inv (pk : Pack) (k : Nat) : Prop :=
  pk.out.length = k / 8 ∧ pk.cur.val = k % 8 ∧ ∀ q : Position, pk.cur ≤ q → bitAt pk.acc q = false

/-- What unit R holds while a command waits for the source (R100, R240): it is at the byte boundary,
not exhausted, and no answer stands ready; a READBITS still wants a bit, and its count fits. -/
def ReaderUnit.TaskInv (r : ReaderUnit) : Prop :=
  match r.task with
  | none => True
  | some .readbit => r.cur = 0 ∧ r.eos = false ∧ r.answers = []
  | some (.readbits rem k pk) =>
    (r.cur = 0 ∧ r.eos = false ∧ r.answers = []) ∧ 0 < rem ∧ rem + k < 2 ^ 63 ∧ pk.Inv k

/-- Unit R's invariants (R28 (a), (b)), those of a command in flight, and R61: while the answer to an
abandoned request is still to come, no answer to a later one stands ready. -/
def ReaderUnit.Inv (r : ReaderUnit) : Prop :=
  (r.cur ≠ 0 → r.byte.isSome) ∧ (r.eos = true → r.cur = 0) ∧ r.TaskInv ∧
  (r.stale = true → r.answers = [])

/-- What unit W holds while a command waits for the sink (R142, R240). -/
def WriterUnit.TaskInv (w : WriterUnit) : Prop :=
  match w.task with
  | none => True
  | some .writebit => w.answers = [] ∧ w.cur = 7
  | some (.writebits n buf j) =>
    (w.answers = [] ∧ w.cur = 7) ∧ n < 2 ^ 63 ∧ j < bitsToWrite n buf
  | some .flush => w.answers = [] ∧ w.cur ≠ 0
  | some .flushones => w.answers = [] ∧ w.cur = 7

/-- Unit W's invariants (R29): (a) the positions after `w_cur` are 0; (b) position `w_cur` is 0 too, but
for a completed byte that is being offered or that HOLD kept; those of a command in flight; and R61:
while the answer to an abandoned offer is still to come, no answer to a later one stands ready. -/
def WriterUnit.Inv (w : WriterUnit) : Prop :=
  (∀ q : Position, w.cur < q → bitAt w.acc q = false) ∧
  (w.cur ≠ 7 ∨ (w.task = none ∧ w.policy = .drop) → bitAt w.acc w.cur = false) ∧
  w.TaskInv ∧ (w.stale = true → w.answers = [])

/-- The invariant of the block. -/
def State.Inv (s : State) : Prop := s.r.Inv ∧ s.w.Inv

/-! ## Units as bit streams -/

/-- The bits of the fetched byte that are not yet read (R21). -/
def ReaderUnit.pendingBits (r : ReaderUnit) : List Bool :=
  match r.byte with
  | none => []
  | some v => if r.cur = 0 then [] else (byteBits v).drop r.cur.val

/-- The bytes the source answers before its first EOS, failure or silence. -/
def leadingBytes : List SourceAnswer → List Byte
  | .byte v :: rest => v :: leadingBytes rest
  | .eos :: _ => []
  | .fail _ :: _ => []
  | [] => []

/-- The answers that follow those bytes. -/
def afterLeadingBytes : List SourceAnswer → List SourceAnswer
  | .byte _ :: rest => afterLeadingBytes rest
  | .eos :: rest => .eos :: rest
  | .fail e :: rest => .fail e :: rest
  | [] => []

/-- Every bit unit R can produce before an EOS, a failure or a wait, in order. -/
def ReaderUnit.availableBits (r : ReaderUnit) : List Bool :=
  r.pendingBits ++ bitsOf (leadingBytes r.answers)

/-- The byte a source answer delivers, if any (R51). -/
def SourceAnswer.delivered : SourceAnswer → Option Byte
  | .byte v => some v
  | .eos => none
  | .fail _ => none

/-- The bytes consumed from the source (R58, R243); the byte of a late answer to an abandoned request is
not logged, and so not counted (assumption 19). -/
def ReaderUnit.consumed (r : ReaderUnit) : List Byte := r.log.filterMap SourceAnswer.delivered

/-- The bits in `w_acc` not yet emitted (R26). -/
def WriterUnit.pendingBits (w : WriterUnit) : List Bool := (byteBits w.acc).take w.cur.val

/-- The byte a sink transaction adds to the sink output, if any: the offered byte on ACK (R52). -/
def acceptedByte (p : Byte × SinkAnswer) : Option Byte :=
  match p.2 with
  | .ack => some p.1
  | .fail _ => none

/-- The bytes answered ACK, in order (R52); a late ACK to an abandoned offer is not logged, and so not
counted (assumption 19). -/
def WriterUnit.sinkOutput (w : WriterUnit) : List Byte := w.log.filterMap acceptedByte

/-- Every bit written so far that has not been lost: those that reached the sink, then the pending. -/
def WriterUnit.writtenBits (w : WriterUnit) : List Bool := bitsOf w.sinkOutput ++ w.pendingBits

/-! ## The end of a run -/

/-- R243: (a) each unit is idle with its last response delivered, (b) no transaction is in flight, one
that a reset abandoned included, and (c) the caller issues no further command. An answer that no one
asked for, or a reset line, may still come: (c) speaks of commands only. -/
def State.RunEnded (s : State) : Prop :=
  (s.r.task = none ∧ s.w.task = none) ∧ (s.r.stale = false ∧ s.w.stale = false) ∧
    ∀ port c, .command port c ∉ s.inputs

/-- The observable result of a run (R243). -/
structure RunResult where
  responsesR : List Response
  responsesW : List Response
  consumed   : List Byte
  sinkOutput : List Byte
deriving DecidableEq, Repr

def State.result (s : State) : RunResult :=
  { responsesR := s.r.responses, responsesW := s.w.responses, consumed := s.r.consumed
    sinkOutput := s.w.sinkOutput }

/-! ## Renaming the opaque error payloads -/

def SourceAnswer.mapErr (f : ErrT → ErrT) : SourceAnswer → SourceAnswer
  | .byte v => .byte v
  | .eos => .eos
  | .fail e => .fail (f e)

def SinkAnswer.mapErr (f : ErrT → ErrT) : SinkAnswer → SinkAnswer
  | .ack => .ack
  | .fail e => .fail (f e)

def Response.mapErr (f : ErrT → ErrT) (p : Response) : Response := { p with err := p.err.map f }

def ReaderUnit.mapErr (f : ErrT → ErrT) (r : ReaderUnit) : ReaderUnit :=
  { r with answers := r.answers.map (·.mapErr f), log := r.log.map (·.mapErr f)
           responses := r.responses.map (·.mapErr f) }

def WriterUnit.mapErr (f : ErrT → ErrT) (w : WriterUnit) : WriterUnit :=
  { w with answers := w.answers.map (·.mapErr f), log := w.log.map fun p => (p.1, p.2.mapErr f)
           responses := w.responses.map (·.mapErr f) }

def Input.mapErr (f : ErrT → ErrT) : Input → Input
  | .command port c => .command port c
  | .sourceAnswer a => .sourceAnswer (a.mapErr f)
  | .sinkAnswer a => .sinkAnswer (a.mapErr f)
  | .resetR => .resetR
  | .resetW => .resetW
  | .resetBlock => .resetBlock

def State.mapErr (f : ErrT → ErrT) (s : State) : State :=
  { r := s.r.mapErr f, w := s.w.mapErr f, inputs := s.inputs.map (·.mapErr f) }

/-- An outcome with its next state renamed; a fault and a refusal hold no payload. -/
def mapOutcome (g : State → State) :
    Host.Outcome State Fault Refusal → Host.Outcome State Fault Refusal
  | .next s => .next (g s)
  | .fault f => .fault f
  | .refused w => .refused w

end Sys2Proof.Machine
end

