-- ==== Sys2Proof/Certificates/Slice0/Obligations.lean ====
section
/-!
DEFINITION. The statements about the block. A result is stated as the whole next state, so what a
command leaves unchanged (its frame) is part of every such statement: every register, stream and
response the record update does not name stays as it was. The answers that the source and the sink will
give stand in `answers`, and what the outside world does in `inputs` (assumption 4); a statement holds
for all of them, and for both values of the failure policy unless it names one (assumption 3).
-/

open Sys2Proof Sys2Proof.Machine

/-! ## Encoding -/

/-- Decoding the record of a well-formed instruction, at its unit's port, gives it back with every
operand (30_encoding.md sections 1 to 3). -/
def Obligations.DecodeOfEncodeIsTheInstruction : Prop :=
  ∀ i : Instr, i.wellFormed = true → decode i.unit (encode i) = .instr i

/-- A port reads an instruction from a record exactly when all 8 opcode bits match R74's row for that
port and the fields the row's format makes meaningful hold the operands; the other fields may hold
anything (R73, R74). That a WRITEBITS record with another payload length, or a length from 2^63 on, is
read as no instruction is the model's choice (assumption 7). -/
def Obligations.DecodeMatchesAllOpcodeBits : Prop :=
  ∀ (port : UnitId) (c : CommandRecord) (i : Instr),
    decode port c = .instr i ↔
      match i with
      | .readbit => port = .unitR ∧ opField c.header = 0x01
      | .readbits n => port = .unitR ∧ opField c.header = 0x02 ∧ aField c.header = n
      | .writebit x => port = .unitW ∧ opField c.header = 0x81 ∧ aField c.header = x
      | .writebits n buf => port = .unitW ∧ opField c.header = 0x82 ∧ aField c.header = n ∧
          c.payload = buf ∧ buf.length = (lenField c.header).toNat ∧ buf.length < 2 ^ 63
      | .flush => port = .unitW ∧ opField c.header = 0x83
      | .flushones => port = .unitW ∧ opField c.header = 0x84

/-- An illegal opcode is answered ILLEGAL_CMD and changes nothing else, whatever the payload; 254
opcodes are illegal on unit R's port, 252 on unit W's, and 0x00 and 0x80 on both (R79). -/
def Obligations.IllegalCommandsAreAnswered : Prop :=
  (∀ (port : UnitId) (c : CommandRecord) (s : State) (rest : List Input),
    s.inputs = .command port c :: rest → s.busy port = false →
    illegalOn port (opField c.header) = true →
    step s = .next (deliver port ⟨4, 0, 0, none, []⟩ { s with inputs := rest })) ∧
  (∀ port : UnitId, illegalOn port 0x00 = true ∧ illegalOn port 0x80 = true) ∧
  (List.finRange 256).countP (fun v => illegalOn .unitR (BitVec.ofFin v)) = 254 ∧
  (List.finRange 256).countP (fun v => illegalOn .unitW (BitVec.ofFin v)) = 252 ∧
  ∀ (port : UnitId) (op : Byte), illegalOn port op = false ↔ op ∈ legalOpcodes port

/-- Header words written out from R71 and R74 decode to the instructions they stand for. -/
def Obligations.WrittenOutWordsDecode : Prop :=
  decode .unitR ⟨0x01_0000000000001234_0000000000000005#136, []⟩ = .instr .readbit ∧
  decode .unitR ⟨0x02_FFFFFFFFFFFFFFFF_0000000000000000#136, []⟩ =
    .instr (.readbits 0xFFFFFFFFFFFFFFFF) ∧
  decode .unitW ⟨0x81_0000000000000001_0000000000000000#136, []⟩ = .instr (.writebit 1) ∧
  decode .unitW ⟨0x82_000000000000000C_0000000000000002#136, [0x92, 0x55]⟩ =
    .instr (.writebits 12 [0x92, 0x55]) ∧
  decode .unitW ⟨0x83_0000000000000000_0000000000000000#136, []⟩ = .instr .flush ∧
  decode .unitW ⟨0x84_0000000000000000_0000000000000000#136, []⟩ = .instr .flushones

/-- A line whose integers fit assembles to a record its unit decodes to the line's instruction, with
every signed operand read back as the integer written and every ignored field 0 (R81). -/
def Obligations.AssembledLinesReadBack : Prop :=
  ∀ l : AsmLine, l.wellFormed = true →
    decode l.toInstr.unit (assemble l) = .instr l.toInstr ∧
    match l with
    | .readbit => assemble l = ⟨packHeader 0x01 0 0, []⟩
    | .readbits n => ∃ a, assemble l = ⟨packHeader 0x02 a 0, []⟩ ∧ sint a = n
    | .writebit b => ∃ a, assemble l = ⟨packHeader 0x81 a 0, []⟩ ∧ sint a = b
    | .writebits n buf => ∃ a len, assemble l = ⟨packHeader 0x82 a len, buf⟩ ∧ sint a = n ∧
        len.toNat = buf.length
    | .flush => assemble l = ⟨packHeader 0x83 0 0, []⟩
    | .flushones => assemble l = ⟨packHeader 0x84 0 0, []⟩

/-! ## Ports, steps and reset -/

/-- The step whose next input is a record its port decodes to i is exec of i with that input taken;
the port's decoder is the only thing between (R70). -/
def Obligations.StepRunsTheDecodedCommand : Prop :=
  ∀ (s : State) (port : UnitId) (c : CommandRecord) (i : Instr) (rest : List Input),
    s.inputs = .command port c :: rest → decode port c = .instr i →
    step s = exec i { s with inputs := rest }

/-- With no input to come the block holds everything unchanged, for any number of steps (R215). -/
def Obligations.BlockHoldsBetweenInputs : Prop :=
  ∀ (s : State) (k : Nat), s.inputs = [] → Sys2Proof.core.run k s = .next s

/-- Two commands to one unit never overlap: a record presented to a unit with a command in flight is
refused (R212; the refusal is U1's treatment). -/
def Obligations.OverlappingCommandsAreRefused : Prop :=
  ∀ (s : State) (port : UnitId) (c : CommandRecord) (rest : List Input),
    s.inputs = .command port c :: rest → s.busy port = true → ∃ w, step s = .refused w

/-- A command delivers exactly one response and leaves its unit idle, or it delivers none and stays in
flight; the other unit's port delivers nothing (30_encoding.md section 1). -/
def Obligations.OneResponsePerCommand : Prop :=
  ∀ (i : Instr) (s t : State), exec i s = .next t →
    match i.unit with
    | .unitR => t.w.responses = s.w.responses ∧
        ((t.r.task = none ∧ ∃ p, t.r.responses = s.r.responses ++ [p]) ∨
          (t.r.task.isSome ∧ t.r.responses = s.r.responses))
    | .unitW => t.r.responses = s.r.responses ∧
        ((t.w.task = none ∧ ∃ p, t.w.responses = s.w.responses ++ [p]) ∨
          (t.w.task.isSome ∧ t.w.responses = s.w.responses))

/-- The registers after reset (R32); no READBITS is in flight, so there is no pack unit, and one starts
with it cleared. -/
def Obligations.RegistersAfterReset : Prop :=
  State.reset.r.cur = 0 ∧ State.reset.r.byte = none ∧ State.reset.r.eos = false ∧
  State.reset.w.cur = 0 ∧ State.reset.w.acc = 0x00 ∧
  State.reset.r.task = none ∧ State.reset.w.task = none ∧ Pack.empty = ⟨0x00, 0, []⟩

/-- Each reset line sets its unit's registers and nothing else; the block reset does both (R230). The mark
`stale`, of one answer still to be discarded, is the model's own bookkeeping (assumption 5). -/
def Obligations.ResetLinesSetTheRegisters : Prop :=
  ∀ (s : State) (rest : List Input),
    let r' : ReaderUnit := { s.r with cur := 0, byte := none, eos := false, task := none
                                      stale := s.r.stale || s.r.task.isSome }
    let w' : WriterUnit := { s.w with cur := 0, acc := 0x00, task := none
                                      stale := s.w.stale || s.w.task.isSome }
    (s.inputs = .resetR :: rest → step s = .next { s with r := r', inputs := rest }) ∧
    (s.inputs = .resetW :: rest → step s = .next { s with w := w', inputs := rest }) ∧
    (s.inputs = .resetBlock :: rest → step s = .next { s with r := r', w := w', inputs := rest })

/-- Reset during a command: no response is delivered, the unit is idle with its reset values, the
completed transactions stay, and the answer to the transaction in flight, when it comes, is discarded
(R233). That the next answer to arrive is that one is inferred from R61 (assumption 5). -/
def Obligations.ResetAbandonsTheCommandInFlight : Prop :=
  (∀ (s : State) (a : SourceAnswer) (rest : List Input),
    s.inputs = .resetR :: .sourceAnswer a :: rest → s.r.task.isSome →
    Sys2Proof.core.run 2 s = .next { s with
      r := { s.r with cur := 0, byte := none, eos := false, task := none, stale := false }
      inputs := rest }) ∧
  ∀ (s : State) (a : SinkAnswer) (rest : List Input),
    s.inputs = .resetW :: .sinkAnswer a :: rest → s.w.task.isSome →
    Sys2Proof.core.run 2 s = .next { s with
      w := { s.w with cur := 0, acc := 0x00, task := none, stale := false }, inputs := rest }

/-- After `rst_r` an idle unit R, exhausted or not and in the middle of a byte or not, fetches its next
bit's byte from where the source stands (R231). -/
def Obligations.ReaderFetchesAfterReset : Prop :=
  ∀ (s : State) (c : CommandRecord) (v : Byte) (more : List SourceAnswer) (rest : List Input),
    s.inputs = .resetR :: .command .unitR c :: rest → opField c.header = 0x01 → s.r.task = none →
    s.r.answers = .byte v :: more →
    Sys2Proof.core.run 1 s = .next { s with
      r := { s.r with cur := 0, byte := none, eos := false }
      inputs := .command .unitR c :: rest } ∧
    Sys2Proof.core.run 2 s = .next { s with
      r := { s.r with cur := 1, byte := some v, eos := false, answers := more
                      log := s.r.log ++ [.byte v]
                      responses := s.r.responses ++ [⟨0, BitVec.ofBool (v.getLsbD 7), 0, none, []⟩] }
      inputs := rest }

/-- `rst_w` sets the registers and makes no sink transaction: pending bits are discarded (R232). -/
def Obligations.WriterResetDiscardsPendingBits : Prop :=
  ∀ (s : State) (rest : List Input), s.inputs = .resetW :: rest → s.w.task = none →
    step s = .next { s with w := { s.w with cur := 0, acc := 0x00 }, inputs := rest } ∧
    ∀ t, step s = .next t → t.w.pendingBits = [] ∧ t.w.sinkOutput = s.w.sinkOutput

/-- The observable result of a run (70_reset_and_hazards.md section 5). A step adds to it the responses
it delivers, the bytes of the source answers it logs and the bytes of the offers it logs with ACK, in
order, and nothing else. Once the run has ended every step, a reset's or that of an answer no one asked
for included, leaves it ended with the same result. The answers to abandoned transactions are not logged,
which is the model's choice (assumption 19). -/
def Obligations.EndedRunsStayEnded : Prop :=
  (∀ s t : State, step s = .next t →
    ∃ (answers : List SourceAnswer) (offers : List (Byte × SinkAnswer)) (ps qs : List Response),
      t.r.log = s.r.log ++ answers ∧ t.w.log = s.w.log ++ offers ∧
      t.r.responses = s.r.responses ++ ps ∧ t.w.responses = s.w.responses ++ qs ∧
      t.result =
        { responsesR := s.result.responsesR ++ ps
          responsesW := s.result.responsesW ++ qs
          consumed := s.result.consumed ++ answers.filterMap fun a => match a with
            | .byte v => some v
            | .eos => none
            | .fail _ => none
          sinkOutput := s.result.sinkOutput ++ offers.filterMap fun p => match p.2 with
            | .ack => some p.1
            | .fail _ => none }) ∧
  ∀ s : State, s.RunEnded → ∃ t, step s = .next t ∧ t.RunEnded ∧ t.result = s.result

/-! ## Unit R -/

/-- READBIT, opcode 0x01, case by case (R101): exhausted; inside a byte; at the boundary with the source's answer a
byte, end of stream, or a failure. -/
def Obligations.ReadbitResult : Prop :=
  (∀ c : CommandRecord, opField c.header = 0x01 → decode .unitR c = .instr .readbit) ∧
  ∀ s : State, s.r.task = none →
    (s.r.eos = true → exec .readbit s = .next { s with
      r := { s.r with responses := s.r.responses ++ [⟨1, 0, 0, none, []⟩] } }) ∧
    (s.r.eos = false → s.r.cur ≠ 0 → ∀ v, s.r.byte = some v → exec .readbit s = .next { s with
      r := { s.r with cur := s.r.cur + 1
                      responses := s.r.responses ++
                        [⟨0, BitVec.ofBool (v.getLsbD (7 - s.r.cur.val)), 0, none, []⟩] } }) ∧
    (s.r.eos = false → s.r.cur = 0 → ∀ v rest, s.r.answers = .byte v :: rest →
      exec .readbit s = .next { s with
        r := { s.r with cur := 1, byte := some v, answers := rest, log := s.r.log ++ [.byte v]
                        responses := s.r.responses ++
                          [⟨0, BitVec.ofBool (v.getLsbD 7), 0, none, []⟩] } }) ∧
    (s.r.eos = false → s.r.cur = 0 → ∀ rest, s.r.answers = .eos :: rest →
      exec .readbit s = .next { s with
        r := { s.r with eos := true, answers := rest, log := s.r.log ++ [.eos]
                        responses := s.r.responses ++ [⟨1, 0, 0, none, []⟩] } }) ∧
    (s.r.eos = false → s.r.cur = 0 → ∀ e rest, s.r.answers = .fail e :: rest →
      exec .readbit s = .next { s with
        r := { s.r with answers := rest, log := s.r.log ++ [.fail e]
                        responses := s.r.responses ++ [⟨3, 0, 0, some e, []⟩] } })

/-- A read of an absent `r_byte` faults; only a state that breaks unit R's invariant reaches it (R22,
U5). -/
def Obligations.AbsentByteReadFaults : Prop :=
  ∀ (s : State) (n : Word), s.r.task = none → s.r.eos = false → s.r.cur ≠ 0 → s.r.byte = none →
    exec .readbit s = .fault .absentByte ∧
    (0 < sint n → exec (.readbits n) s = .fault .absentByte)

/-- A fetch answered FAIL(e) leaves `r_cur`, `r_byte` and `r_eos` unchanged for READBIT and READBITS, e
is copied, and the next bit request asks the source again (R103). -/
def Obligations.SourceFailureChangesNoRegister : Prop :=
  ∀ (s : State) (n : Word) (e : ErrT) (v : Byte) (rest : List SourceAnswer),
    s.r.task = none → s.r.eos = false → s.r.cur = 0 → s.r.answers = .fail e :: .byte v :: rest →
    0 < sint n →
    let failed : State := { s with
      r := { s.r with answers := .byte v :: rest, log := s.r.log ++ [.fail e]
                      responses := s.r.responses ++ [⟨3, 0, 0, some e, []⟩] } }
    exec .readbit s = .next failed ∧ exec (.readbits n) s = .next failed ∧
    exec .readbit failed = .next { failed with
      r := { failed.r with cur := 1, byte := some v, answers := rest
                           log := failed.r.log ++ [.byte v]
                           responses := failed.r.responses ++
                             [⟨0, BitVec.ofBool (v.getLsbD 7), 0, none, []⟩] } }

/-- READBITS with n <= 0 responds OK with nothing, in every state of an idle unit, an exhausted one
included (R104). -/
def Obligations.ReadbitsNonPositiveIsNoOp : Prop :=
  ∀ (n : Word) (s : State), sint n ≤ 0 → s.r.task = none →
    exec (.readbits n) s = .next { s with
      r := { s.r with responses := s.r.responses ++ [⟨0, 0, 0, none, []⟩] } }

/-- Once `r_eos` is 1: READBIT and READBITS with n >= 1 answer EOS with zero bits; every step but a
reset of unit R keeps it and makes no source transaction; and a step sets it exactly when one of its
fetches is answered EOS (R23). -/
def Obligations.ExhaustedUntilReset : Prop :=
  (∀ (s : State) (n : Word), s.r.task = none → s.r.eos = true → 0 < sint n →
    exec .readbit s = .next (deliver .unitR ⟨1, 0, 0, none, []⟩ s) ∧
    exec (.readbits n) s = .next (deliver .unitR ⟨1, 0, 0, none, []⟩ s)) ∧
  (∀ s t : State, step s = .next t → s.r.eos = true →
    s.inputs.head? ≠ some .resetR → s.inputs.head? ≠ some .resetBlock →
    t.r.eos = true ∧ t.r.log = s.r.log) ∧
  ∀ (s t : State) (l : List SourceAnswer), step s = .next t → s.r.eos = false →
    t.r.log = s.r.log ++ l → (t.r.eos = true ↔ .eos ∈ l)

/-- READBITS n with at least n bits available: it answers OK with exactly the next n bits of the
stream, packed from position 0, and leaves the rest of the stream; `r_byte` is the last byte it fetched,
or as before when it fetched none (R105, with the packing of R55). -/
def Obligations.ReadbitsDeliversTheNextBits : Prop :=
  ∀ (n : Word) (s : State), s.r.task = none → s.r.Inv → s.r.eos = false → 0 < sint n →
    n.toNat ≤ s.r.availableBits.length →
    ∃ t, exec (.readbits n) s = .next t ∧
      t.r.responses = s.r.responses ++ [⟨0, 0, n, none, packBits (s.r.availableBits.take n.toNat)⟩] ∧
      t.r.availableBits = s.r.availableBits.drop n.toNat ∧
      t.r.cur.val = (s.r.cur.val + n.toNat) % 8 ∧ t.r.eos = false ∧ t.r.task = none ∧
      (∃ l : List Byte, t.r.log = s.r.log ++ l.map .byte ∧ t.r.byte = l.getLast?.or s.r.byte) ∧
      t.r.log ++ t.r.answers = s.r.log ++ s.r.answers ∧ t.r.stale = s.r.stale ∧
      t.w = s.w ∧ t.inputs = s.inputs

/-- READBITS n when the source ends or fails before n bits: the bits read before are delivered with
their count and the failing status, and are consumed (R107). -/
def Obligations.ReadbitsPartialResult : Prop :=
  ∀ (n : Word) (s : State) (a : SourceAnswer) (rest : List SourceAnswer),
    s.r.task = none → s.r.Inv → s.r.eos = false → 0 < sint n →
    s.r.availableBits.length < n.toNat → afterLeadingBytes s.r.answers = a :: rest →
    ∃ t, exec (.readbits n) s = .next t ∧
      (∃ st err, ((a = .eos ∧ st = 1 ∧ err = none) ∨ ∃ e, a = .fail e ∧ st = 3 ∧ err = some e) ∧
        t.r.responses = s.r.responses ++
          [⟨st, 0, BitVec.ofNat 64 s.r.availableBits.length, err, packBits s.r.availableBits⟩]) ∧
      t.r.cur = 0 ∧ (t.r.eos = true ↔ a = .eos) ∧ t.r.answers = rest ∧ t.r.task = none ∧
      (∃ l : List Byte, t.r.log = s.r.log ++ l.map .byte ++ [a] ∧
        t.r.byte = l.getLast?.or s.r.byte) ∧
      t.r.log ++ t.r.answers = s.r.log ++ s.r.answers ∧ t.r.stale = s.r.stale ∧
      t.w = s.w ∧ t.inputs = s.inputs

/-- READBITS n when the source falls silent before n bits: the command stays in flight with no response
and the bits read so far in its pack unit (70_reset_and_hazards.md R240: a hold, not a timeout). That
the command runs on to that request in one step, and holds its count and pack unit there, is the model's
choice (assumptions 10 and 16). -/
def Obligations.ReadbitsWaitsForTheSource : Prop :=
  ∀ (n : Word) (s : State), s.r.task = none → s.r.Inv → s.r.eos = false → 0 < sint n →
    s.r.availableBits.length < n.toNat → afterLeadingBytes s.r.answers = [] →
    ∃ t pk, exec (.readbits n) s = .next t ∧
      t.r.task = some (.readbits (n.toNat - s.r.availableBits.length) s.r.availableBits.length pk) ∧
      pk.finish = packBits s.r.availableBits ∧
      t.r.responses = s.r.responses ∧ t.r.cur = 0 ∧ t.r.eos = false ∧ t.r.answers = [] ∧
      t.r.log = s.r.log ++ s.r.answers ∧ t.w = s.w ∧ t.inputs = s.inputs

/-- A command with no answer to its transaction stays in flight, with no response, for ever if none
comes; nothing times out (R240). First for every command of both units; then the state in which each form
holds at its first transaction. That the step runs on to that transaction, with the byte it offers already
in `w_acc`, is the model's choice (assumptions 10 and 18). -/
def Obligations.UnansweredCommandsHold : Prop :=
  ∀ s : State, s.inputs = [] →
    (∀ (i : Instr) (t : State), exec i s = .next t → t.busy i.unit = true →
      t.r.responses = s.r.responses ∧ t.w.responses = s.w.responses ∧
      ∀ k, Sys2Proof.core.run k t = .next t) ∧
    (s.r.task = none → s.r.eos = false → s.r.cur = 0 → s.r.answers = [] →
      exec .readbit s = .next { s with r := { s.r with task := some .readbit } } ∧
      ∀ n : Word, 0 < sint n → exec (.readbits n) s = .next { s with
        r := { s.r with task := some (.readbits n.toNat 0 ⟨0x00, 0, []⟩) } }) ∧
    (s.w.task = none → s.w.cur = 7 → s.w.answers = [] →
      (exec (.writebit 0) s = .next { s with w := { s.w with task := some .writebit } }) ∧
      (exec (.writebit 1) s = .next { s with
        w := { s.w with acc := s.w.acc ||| 0x01, task := some .writebit } }) ∧
      ∀ (n : Word) (v : Byte) (buf : List Byte), 0 < sint n →
        exec (.writebits n (v :: buf)) s = .next { s with
          w := { s.w with acc := s.w.acc ||| (if v.getLsbD 7 then 0x01 else 0x00)
                          task := some (.writebits n.toNat (v :: buf) 0) } }) ∧
    (s.w.task = none → s.w.cur ≠ 0 → s.w.answers = [] →
      exec .flush s = .next { s with w := { s.w with task := some .flush } } ∧
      exec .flushones s = .next { s with
        w := { s.w with acc := s.w.acc ||| (0xFF#8 >>> s.w.cur.val), cur := 7
                        task := some .flushones } })

/-- An answer that comes late gives the same result as one that stood ready: the command in flight goes
on exactly where it waited, without asking or offering again (20_memory.md R58, R61). So the model's
choices that answers may stand ready and that a command runs in one step up to an answer that does not
(assumptions 4 and 10) change no result. -/
def Obligations.LateAnswersGiveTheSameResult : Prop :=
  (∀ (i : Instr) (s t : State) (a : SourceAnswer), i.unit = .unitR → s.r.stale = false →
    exec i s = .next t → t.r.task.isSome →
    runInput (.sourceAnswer a) t = exec i { s with r := { s.r with answers := s.r.answers ++ [a] } }) ∧
  ∀ (i : Instr) (s t : State) (a : SinkAnswer), i.unit = .unitW → s.w.stale = false →
    exec i s = .next t → t.w.task.isSome →
    runInput (.sinkAnswer a) t = exec i { s with w := { s.w with answers := s.w.answers ++ [a] } }

/-- READBITS n is repeated single-bit reads (R105): n READBITs that return OK become one OK response with
their bits packed; the first that returns another status ends it with that status and the k bits read
before (R107); and n <= 0 does nothing (R104). -/
def Obligations.ReadbitsIsRepeatedReadbit : Prop :=
  (∀ c : CommandRecord, opField c.header = 0x02 →
    decode .unitR c = .instr (.readbits (aField c.header))) ∧
  (∀ (n : Word) (s : State), sint n ≤ 0 → s.r.task = none →
    exec (.readbits n) s = .next { s with
      r := { s.r with responses := s.r.responses ++ [⟨0, 0, 0, none, []⟩] } }) ∧
  ∀ (n : Word) (bits : List Bool) (s t : State), 0 < sint n → bits.length ≤ n.toNat →
    execAll (List.replicate bits.length .readbit) s = .next t →
    t.r.responses = s.r.responses ++ bits.map (fun b => ⟨0, BitVec.ofBool b, 0, none, []⟩) →
    t.r.task = none →
    (bits.length = n.toNat → exec (.readbits n) s = .next { t with
      r := { t.r with responses := s.r.responses ++ [⟨0, 0, n, none, packBits bits⟩] } }) ∧
    (bits.length < n.toNat → ∀ (u : State) (p : Response), exec .readbit t = .next u →
      u.r.responses = t.r.responses ++ [p] → p.status ≠ 0 →
      exec (.readbits n) s = .next { u with
        r := { u.r with responses := s.r.responses ++
          [⟨p.status, 0, BitVec.ofNat 64 bits.length, p.err, packBits bits⟩] } })

/-- The number of source transactions of a READBITS and the cursor it ends at (40_reader.md, the rule
the spec derives after R107). -/
def Obligations.ReadbitsTransactionCount : Prop :=
  ∀ (n : Word) (s t : State) (p : Response), s.r.task = none → s.r.Inv → s.r.eos = false →
    0 < sint n → exec (.readbits n) s = .next t → t.r.responses = s.r.responses ++ [p] →
    let boundaries := fun k => (List.range k).countP fun i => (s.r.cur.val + i) % 8 = 0
    (p.status = 0 → p.count = n ∧
      t.r.log.length = s.r.log.length + boundaries n.toNat ∧
      t.r.cur.val = (s.r.cur.val + n.toNat) % 8) ∧
    (p.status ≠ 0 → p.count.toNat < n.toNat ∧
      t.r.log.length = s.r.log.length + boundaries p.count.toNat + 1 ∧ t.r.cur = 0)

/-- Round trip: a just-reset unit R reads every bit of a byte list back, by READBITs and by one
READBITS, and then end of stream (40_reader.md section 3). -/
def Obligations.ReaderRoundTrip : Prop :=
  ∀ (bs : List Byte) (s : State), 8 * bs.length < 2 ^ 63 →
    s.r = { ReaderUnit.reset with answers := bs.map .byte ++ [.eos] } →
    (∃ t, execAll (List.replicate (8 * bs.length) .readbit ++ [.readbit]) s = .next t ∧
      t.r.responses = (List.range (8 * bs.length)).map
          (fun k => ⟨0, BitVec.ofBool (bufBit bs k), 0, none, []⟩) ++ [⟨1, 0, 0, none, []⟩] ∧
      t.r.consumed = bs) ∧
    ∃ t, exec (.readbits (BitVec.ofNat 64 (8 * bs.length))) s = .next t ∧
      t.r.responses = [⟨0, 0, BitVec.ofNat 64 (8 * bs.length), none, bs⟩] ∧ t.r.consumed = bs

/-! ## Unit W -/

/-- What a rejected byte leaves (R11): HOLD keeps the registers, DROP clears them. -/
def Obligations.EmissionProcedure : Prop :=
  ∀ (w : WriterUnit),
    (w.answers = [] → emit w = .wait) ∧
    (∀ rest, w.answers = .ack :: rest → emit w = .done .ok
      { w with acc := 0x00, cur := 0, answers := rest, log := w.log ++ [(w.acc, .ack)] }) ∧
    (∀ e rest, w.answers = .fail e :: rest → w.policy = .hold → emit w = .done (.iofail e)
      { w with answers := rest, log := w.log ++ [(w.acc, .fail e)] }) ∧
    (∀ e rest, w.answers = .fail e :: rest → w.policy = .drop → emit w = .done (.iofail e)
      { w with acc := 0x00, cur := 0, answers := rest, log := w.log ++ [(w.acc, .fail e)] })

/-- WRITEBIT (R141): of another integer, INVALID_BIT and nothing else; of 0 or 1, before position 7; at position 7 with the sink's answer ACK; and FAIL(e)
under both policies. -/
def Obligations.WritebitResult : Prop :=
  (∀ c : CommandRecord, opField c.header = 0x81 →
    decode .unitW c = .instr (.writebit (aField c.header))) ∧
  (∀ (x : Word) (s : State), sint x ≠ 0 → sint x ≠ 1 → s.w.task = none →
    exec (.writebit x) s = .next { s with
      w := { s.w with responses := s.w.responses ++ [⟨2, 0, 0, none, []⟩] } }) ∧
  ∀ (x : Word) (s : State), s.w.task = none → (x = 0 ∨ x = 1) →
    let acc' : Byte := if x = 1 then s.w.acc ||| (0x80#8 >>> s.w.cur.val) else s.w.acc
    (s.w.cur ≠ 7 → exec (.writebit x) s = .next { s with
      w := { s.w with acc := acc', cur := s.w.cur + 1
                      responses := s.w.responses ++ [⟨0, 0, 0, none, []⟩] } }) ∧
    (s.w.cur = 7 → ∀ rest, s.w.answers = .ack :: rest → exec (.writebit x) s = .next { s with
      w := { s.w with acc := 0x00, cur := 0, answers := rest, log := s.w.log ++ [(acc', .ack)]
                      responses := s.w.responses ++ [⟨0, 0, 0, none, []⟩] } }) ∧
    (s.w.cur = 7 → ∀ e rest, s.w.answers = .fail e :: rest → exec (.writebit x) s = .next { s with
      w := { s.w with acc := if s.w.policy = .hold then acc' else 0x00
                      cur := if s.w.policy = .hold then 7 else 0
                      answers := rest, log := s.w.log ++ [(acc', .fail e)]
                      responses := s.w.responses ++ [⟨3, 0, 0, some e, []⟩] } })

/-- WRITEBIT of any integer but 0 and 1 answers INVALID_BIT and changes nothing (R140). -/
def Obligations.WritebitValidatesFirst : Prop :=
  ∀ (x : Word) (s : State), sint x ≠ 0 → sint x ≠ 1 → s.w.task = none →
    exec (.writebit x) s = .next { s with
      w := { s.w with responses := s.w.responses ++ [⟨2, 0, 0, none, []⟩] } }

/-- WRITEBITS with n <= 0 responds OK with count 0 and does nothing, whatever the buffer (R145). -/
def Obligations.WritebitsNonPositiveIsNoOp : Prop :=
  ∀ (n : Word) (buf : List Byte) (s : State), sint n ≤ 0 → s.w.task = none →
    exec (.writebits n buf) s = .next { s with
      w := { s.w with responses := s.w.responses ++ [⟨0, 0, 0, none, []⟩] } }

/-- WRITEBITS writes the first m = min(n, 8·len) bits of the buffer after the bits already pending, and
answers OK with count n, or EOS with count 8·len when the buffer is short, when every byte it completes
is accepted (R144, R146). The positions from `w_cur` on are 0, as they are but in a byte HOLD kept. -/
def Obligations.WritebitsAppendsTheBufferBits : Prop :=
  ∀ (n : Word) (buf : List Byte) (s : State) (rest : List SinkAnswer),
    s.w.task = none → (∀ q : Position, s.w.cur ≤ q → bitAt s.w.acc q = false) → 0 < sint n →
    let m := min n.toNat (8 * buf.length)
    s.w.answers = List.replicate ((s.w.cur.val + m) / 8) .ack ++ rest →
    ∃ t, exec (.writebits n buf) s = .next t ∧
      t.w.responses = s.w.responses ++
        [if 8 * buf.length < n.toNat then ⟨1, 0, BitVec.ofNat 64 (8 * buf.length), none, []⟩
         else ⟨0, 0, n, none, []⟩] ∧
      t.w.writtenBits = s.w.writtenBits ++ (bitsOf buf).take m ∧
      t.w.cur.val = (s.w.cur.val + m) % 8 ∧
      (∀ q : Position, t.w.cur ≤ q → bitAt t.w.acc q = false) ∧
      t.w.answers = rest ∧ t.w.log.length = s.w.log.length + (s.w.cur.val + m) / 8 ∧
      s.w.log <+: t.w.log ∧ t.w.task = none ∧ t.w.stale = s.w.stale ∧ t.w.policy = s.w.policy ∧
      t.r = s.r ∧ t.inputs = s.inputs

/-- WRITEBITS stops at the first rejected byte: it answers IOFAIL(e) with the count of the bits whose
steps returned OK; the bits before the completing one are written and the completing byte is what the
policy makes of it; nothing is flushed (R147). -/
def Obligations.WritebitsStopsAtTheFirstFailure : Prop :=
  ∀ (n : Word) (buf : List Byte) (s : State) (k : Nat) (e : ErrT) (rest : List SinkAnswer),
    s.w.task = none → (∀ q : Position, s.w.cur ≤ q → bitAt s.w.acc q = false) → 0 < sint n →
    s.w.answers = List.replicate k .ack ++ .fail e :: rest →
    8 * k + 8 ≤ s.w.cur.val + min n.toNat (8 * buf.length) →
    let j := 8 * k + 7 - s.w.cur.val
    ∃ t, exec (.writebits n buf) s = .next t ∧
      t.w.responses = s.w.responses ++ [⟨3, 0, BitVec.ofNat 64 j, some e, []⟩] ∧
      (∃ b : Byte, t.w.log.getLast? = some (b, .fail e) ∧
        bitsOf t.w.sinkOutput ++ byteBits b = s.w.writtenBits ++ (bitsOf buf).take (j + 1) ∧
        (s.w.policy = .hold → t.w.cur = 7 ∧ t.w.acc = b) ∧
        (s.w.policy = .drop → t.w.cur = 0 ∧ t.w.acc = 0x00)) ∧
      t.w.answers = rest ∧ t.w.log.length = s.w.log.length + k + 1 ∧ s.w.log <+: t.w.log ∧
      t.w.task = none ∧ t.w.stale = s.w.stale ∧ t.w.policy = s.w.policy ∧
      t.r = s.r ∧ t.inputs = s.inputs

/-- WRITEBITS n whose emission the sink has not answered stays in flight with no response; the bit that
waits is the one that completed the byte (70_reset_and_hazards.md R240: a hold, not a timeout). That the
command runs on to that offer in one step, and that the completed byte stands in `w_acc` while it waits,
is the model's choice (assumptions 10 and 18). -/
def Obligations.WritebitsWaitsForTheSink : Prop :=
  ∀ (n : Word) (buf : List Byte) (s : State) (k : Nat),
    s.w.task = none → (∀ q : Position, s.w.cur ≤ q → bitAt s.w.acc q = false) → 0 < sint n →
    s.w.answers = List.replicate k .ack →
    8 * k + 8 ≤ s.w.cur.val + min n.toNat (8 * buf.length) →
    let j := 8 * k + 7 - s.w.cur.val
    ∃ t, exec (.writebits n buf) s = .next t ∧
      t.w.task = some (.writebits n.toNat buf j) ∧ t.w.responses = s.w.responses ∧
      t.w.cur = 7 ∧ t.w.answers = [] ∧
      bitsOf t.w.sinkOutput ++ byteBits t.w.acc = s.w.writtenBits ++ (bitsOf buf).take (j + 1) ∧
      t.r = s.r ∧ t.inputs = s.inputs

/-- WRITEBITS writes the buffer's bits one WRITEBIT at a time (R144), from every state of unit W, a byte
HOLD kept included: m = min(n, 8·len) WRITEBITs that return OK become one response, OK or, for a buffer
too short, EOS (R146); the first that fails ends it with its status and the count of those before, with
nothing flushed (R147); and n <= 0 does nothing (R145). -/
def Obligations.WritebitsIsRepeatedWritebit : Prop :=
  (∀ c : CommandRecord, opField c.header = 0x82 → c.payload.length = (lenField c.header).toNat →
    c.payload.length < 2 ^ 63 → decode .unitW c = .instr (.writebits (aField c.header) c.payload)) ∧
  (∀ (n : Word) (buf : List Byte) (s : State), sint n ≤ 0 → s.w.task = none →
    exec (.writebits n buf) s = .next { s with
      w := { s.w with responses := s.w.responses ++ [⟨0, 0, 0, none, []⟩] } }) ∧
  ∀ (n : Word) (buf : List Byte) (k : Nat) (s t : State), 0 < sint n →
    let m := min n.toNat (8 * buf.length)
    let write : Nat → Instr := fun j => .writebit (if bufBit buf j then 1 else 0)
    k ≤ m → execAll ((List.range k).map write) s = .next t →
    t.w.responses = s.w.responses ++ List.replicate k ⟨0, 0, 0, none, []⟩ → t.w.task = none →
    (k = m → exec (.writebits n buf) s = .next { t with
      w := { t.w with responses := s.w.responses ++
        [if 8 * buf.length < n.toNat then ⟨1, 0, BitVec.ofNat 64 (8 * buf.length), none, []⟩
         else ⟨0, 0, n, none, []⟩] } }) ∧
    (k < m → ∀ (u : State) (p : Response), exec (write k) t = .next u →
      u.w.responses = t.w.responses ++ [p] → p.status ≠ 0 →
      exec (.writebits n buf) s = .next { u with
        w := { u.w with responses := s.w.responses ++
          [⟨p.status, 0, BitVec.ofNat 64 k, p.err, []⟩] } })

/-- FLUSH (R148): with `w_cur = 0` a no-op; otherwise it emits the accumulator as it stands, and clears
it on ACK or as the policy says on FAIL(e). The byte it offers holds the pending bits and then zeros, in
every state with unit W's invariant but the one in which HOLD kept a byte. -/
def Obligations.FlushResult : Prop :=
  (∀ c : CommandRecord, opField c.header = 0x83 → decode .unitW c = .instr .flush) ∧
  ∀ s : State, s.w.task = none →
    (s.w.cur = 0 → exec .flush s = .next { s with
      w := { s.w with responses := s.w.responses ++ [⟨0, 0, 0, none, []⟩] } }) ∧
    (s.w.cur ≠ 0 → ∀ rest, s.w.answers = .ack :: rest → exec .flush s = .next { s with
      w := { s.w with acc := 0x00, cur := 0, answers := rest, log := s.w.log ++ [(s.w.acc, .ack)]
                      responses := s.w.responses ++ [⟨0, 0, 0, none, []⟩] } }) ∧
    (s.w.cur ≠ 0 → ∀ e rest, s.w.answers = .fail e :: rest → exec .flush s = .next { s with
      w := { s.w with acc := if s.w.policy = .hold then s.w.acc else 0x00
                      cur := if s.w.policy = .hold then s.w.cur else 0
                      answers := rest, log := s.w.log ++ [(s.w.acc, .fail e)]
                      responses := s.w.responses ++ [⟨3, 0, 0, some e, []⟩] } }) ∧
    ((s.w.cur ≠ 7 ∨ s.w.policy = .drop) → s.w.Inv → ∀ (t : State) (v : Byte) (a : SinkAnswer),
      exec .flush s = .next t → t.w.log = s.w.log ++ [(v, a)] →
      ∀ q : Position, bitAt v q = if q < s.w.cur then bitAt s.w.acc q else false)

/-- FLUSHONES (R150): with `w_cur = 0` a no-op; otherwise it sets positions `w_cur`..7 and emits; a
failure under HOLD leaves them set and `w_cur = 7`. -/
def Obligations.FlushonesResult : Prop :=
  (∀ c : CommandRecord, opField c.header = 0x84 → decode .unitW c = .instr .flushones) ∧
  ∀ s : State, s.w.task = none →
    let acc' : Byte := s.w.acc ||| (0xFF#8 >>> s.w.cur.val)
    (s.w.cur = 0 → exec .flushones s = .next { s with
      w := { s.w with responses := s.w.responses ++ [⟨0, 0, 0, none, []⟩] } }) ∧
    (s.w.cur ≠ 0 → ∀ rest, s.w.answers = .ack :: rest → exec .flushones s = .next { s with
      w := { s.w with acc := 0x00, cur := 0, answers := rest, log := s.w.log ++ [(acc', .ack)]
                      responses := s.w.responses ++ [⟨0, 0, 0, none, []⟩] } }) ∧
    (s.w.cur ≠ 0 → ∀ e rest, s.w.answers = .fail e :: rest → exec .flushones s = .next { s with
      w := { s.w with acc := if s.w.policy = .hold then acc' else 0x00
                      cur := if s.w.policy = .hold then 7 else 0
                      answers := rest, log := s.w.log ++ [(acc', .fail e)]
                      responses := s.w.responses ++ [⟨3, 0, 0, some e, []⟩] } })

/-- Unit W makes a sink transaction, or waits for one, exactly when a valid WRITEBIT step writes
position 7 or a flush finds `w_cur ≠ 0`; reset makes none (R142). -/
def Obligations.EmissionCondition : Prop :=
  (∀ (i : Instr) (s t : State), i.unit = .unitW → exec i s = .next t →
    ((t.w.task.isSome ∨ t.w.log ≠ s.w.log) ↔
      match i with
      | .writebit x => (x = 0 ∨ x = 1) ∧ s.w.cur = 7
      | .writebits n buf => 0 < sint n ∧ 8 ≤ s.w.cur.val + min n.toNat (8 * buf.length)
      | .flush => s.w.cur ≠ 0
      | .flushones => s.w.cur ≠ 0
      | .readbit => False
      | .readbits _ => False)) ∧
  ∀ (s t : State) (rest : List Input), step s = .next t →
    s.inputs = .resetW :: rest ∨ s.inputs = .resetBlock :: rest → t.w.log = s.w.log

/-- After a FLUSH answered OK, any number of further FLUSHes only answer OK: the sink output is that of
one (41_writer.md section 3). -/
def Obligations.FlushIsIdempotent : Prop :=
  ∀ (s t : State) (k : Nat), exec .flush s = .next t →
    t.w.responses = s.w.responses ++ [⟨0, 0, 0, none, []⟩] →
    execAll (List.replicate k .flush) t = .next { t with
      w := { t.w with responses := t.w.responses ++ List.replicate k ⟨0, 0, 0, none, []⟩ } }

/-- FLUSHONES at `w_cur = c ≠ 0` leaves the registers and the sink as `8 - c` WRITEBITs of 1 do, waits
where they wait, and answers what the last of them answers (41_writer.md section 3). -/
def Obligations.FlushonesIsRepeatedWritebitOne : Prop :=
  ∀ s : State, s.w.task = none → s.w.cur ≠ 0 →
    ∃ t u, exec .flushones s = .next t ∧
      execAll (List.replicate (8 - s.w.cur.val) (.writebit 1)) s = .next u ∧
      t.w.cur = u.w.cur ∧ t.w.acc = u.w.acc ∧ t.w.answers = u.w.answers ∧ t.w.log = u.w.log ∧
      t.w.task.isSome = u.w.task.isSome ∧
      (t.w.task = none → t.w.responses.getLast? = u.w.responses.getLast?)

/-- Round trip of unit W: the bits written from a clean unit, all accepted, come out packed; FLUSH pads
the last byte with zeros and FLUSHONES with ones, and a whole number of bytes needs no padding
(41_writer.md section 4). -/
def Obligations.WriterRoundTrip : Prop :=
  ∀ (bits : List Bool) (s : State), s.w.task = none → s.w.cur = 0 → s.w.acc = 0x00 → s.w.log = [] →
    s.w.answers = List.replicate ((bits.length + 7) / 8) .ack →
    let writes : List Instr := bits.map fun b => .writebit (if b then 1 else 0)
    let pad := List.replicate ((8 - bits.length % 8) % 8) true
    (∃ t, execAll (writes ++ [.flush]) s = .next t ∧ t.w.sinkOutput = packBits bits ∧
      t.w.cur = 0 ∧ t.w.acc = 0x00 ∧ t.w.answers = []) ∧
    ∃ t, execAll (writes ++ [.flushones]) s = .next t ∧ t.w.sinkOutput = packBits (bits ++ pad) ∧
      t.w.cur = 0 ∧ t.w.acc = 0x00 ∧ t.w.answers = []

/-- The interchange contract: what unit W wrote and flushed, replayed by the source and ended with EOS,
unit R reads back bit for bit, then the padding (zeros after FLUSH, ones after FLUSHONES), then EOS
(20_memory.md section 6). -/
def Obligations.WrittenStreamReadsBack : Prop :=
  ∀ (bits : List Bool) (n : Word) (s t : State) (fl : Instr) (padding : Bool),
    (fl = .flush ∧ padding = false) ∨ (fl = .flushones ∧ padding = true) →
    0 < sint n → bits.length = n.toNat →
    s.r = ReaderUnit.reset → s.w.task = none → s.w.cur = 0 → s.w.acc = 0x00 → s.w.log = [] →
    s.w.answers = List.replicate ((bits.length + 7) / 8) .ack →
    execAll ((bits.map fun b => .writebit (if b then 1 else 0)) ++ [fl]) s = .next t →
    let pad := (8 - n.toNat % 8) % 8
    ∃ u, execAll [.readbits n, .readbits 8]
        { t with r := { t.r with answers := t.w.sinkOutput.map .byte ++ [.eos] } } = .next u ∧
      u.r.responses = [⟨0, 0, n, none, packBits bits⟩,
        ⟨1, 0, BitVec.ofNat 64 pad, none, packBits (List.replicate pad padding)⟩] ∧
      u.r.eos = true

/-! ## The whole machine -/

/-- Every step keeps the units' invariants, from every state that has them (10_state.md section 4); across
resets, one transaction of a unit is out at a time (20_memory.md section 6, assumption 5). -/
def Obligations.StepKeepsTheInvariants : Prop :=
  ∀ s t : State, s.Inv → step s = .next t → t.Inv

/-- The state after reset has the invariants (10_state.md section 4). -/
def Obligations.ResetHasTheInvariants : Prop := State.reset.Inv

/-- From a state with the invariants no run, however long and whatever its inputs, reads an absent
byte: no step faults (10_state.md, the last sentence of R22's reasoning). -/
def Obligations.NoRunReadsAnAbsentByte : Prop :=
  ∀ (k : Nat) (s : State) (f : Fault), s.Inv → Sys2Proof.core.run k s ≠ .fault f

/-- A unit that is idle takes any command, with any operands, in any state with the invariants, whatever
its collaborator does: the command gives a next state (30_encoding.md section 1, 60_exceptions.md
section 5). -/
def Obligations.IdleUnitsTakeEveryCommand : Prop :=
  ∀ (i : Instr) (s : State), s.Inv → s.busy i.unit = false → ∃ t, exec i s = .next t

/-- Answers and resets never stop the block: only a command can be refused (60_exceptions.md
section 4). -/
def Obligations.AnswersAndResetsNeverStopTheBlock : Prop :=
  ∀ (k : Nat) (s : State), s.Inv → (∀ port c, .command port c ∉ s.inputs) → SafeFor k s

/-- A command of one unit reads and writes only that unit: the other unit and the inputs to come do
not change, and cannot change its outcome (R31). -/
def Obligations.UnitsShareNoState : Prop :=
  (∀ (i : Instr) (s : State) (w : WriterUnit) (ins : List Input), i.unit = .unitR →
    exec i { s with w := w, inputs := ins } =
      mapOutcome (fun t => { t with w := w, inputs := ins }) (exec i s) ∧
    ∀ t, exec i s = .next t → t.w = s.w ∧ t.inputs = s.inputs) ∧
  ∀ (i : Instr) (s : State) (r : ReaderUnit) (ins : List Input), i.unit = .unitW →
    exec i { s with r := r, inputs := ins } =
      mapOutcome (fun t => { t with r := r, inputs := ins }) (exec i s) ∧
    ∀ t, exec i s = .next t → t.r = s.r ∧ t.inputs = s.inputs

/-- A command of unit R and one of unit W give the same state in either order (60_exceptions.md
section 6). -/
def Obligations.CommandsOfTwoUnitsCommute : Prop :=
  ∀ (i j : Instr) (s t u : State), i.unit = .unitR → j.unit = .unitW →
    exec i s = .next t → exec j s = .next u →
    execAll [i, j] s = .next { s with r := t.r, w := u.w } ∧
    execAll [j, i] s = .next { s with r := t.r, w := u.w }

/-- The block never inspects, changes or creates an error payload: renaming the payloads in a state by
any function renames them in what a step gives, and nothing else (R10). -/
def Obligations.ErrorPayloadsAreOpaque : Prop :=
  ∀ (f : ErrT → ErrT) (s : State), step (s.mapErr f) = mapOutcome (State.mapErr f) (step s)

/-- No step takes back a transaction or a response (20_memory.md section 4, 30_encoding.md section 1),
and none changes the failure policy, a field of State by the model's choice (assumption 3). -/
def Obligations.HistoryOnlyGrows : Prop :=
  ∀ s t : State, step s = .next t →
    s.r.log <+: t.r.log ∧ s.w.log <+: t.w.log ∧
    s.r.responses <+: t.r.responses ∧ s.w.responses <+: t.w.responses ∧
    t.w.policy = s.w.policy

/-- Every response a step delivers has the shape R77 and R78 give: no reserved status code; an error
payload exactly with IOFAIL; a 1 in `bit` only with OK; a payload of ceil(count/8) bytes on unit R and
none on unit W. -/
def Obligations.ResponsesAreWellShaped : Prop :=
  ∀ (s t : State) (p : Response), s.Inv → step s = .next t →
    (t.r.responses = s.r.responses ++ [p] →
      p.report.isSome ∧ p.status.toNat ≤ 4 ∧ (p.err.isSome ↔ p.status = 3) ∧
      (p.bit = 1 → p.status = 0 ∧ p.count = 0) ∧
      p.payload.length = (p.count.toNat + 7) / 8) ∧
    (t.w.responses = s.w.responses ++ [p] →
      p.report.isSome ∧ p.status.toNat ≤ 4 ∧ (p.err.isSome ↔ p.status = 3) ∧
      p.bit = 0 ∧ p.payload = [])

/-- A single-bit command makes at most one transaction, and a flush too (20_memory.md section 4). -/
def Obligations.SingleBitCommandsMakeAtMostOneTransaction : Prop :=
  ∀ s t : State,
    (exec .readbit s = .next t → t.r.log = s.r.log ∨ ∃ a, t.r.log = s.r.log ++ [a]) ∧
    (∀ i : Instr, (∃ x, i = .writebit x) ∨ i = .flush ∨ i = .flushones → exec i s = .next t →
      t.w.log = s.w.log ∨ ∃ a, t.w.log = s.w.log ++ [a])

/-- Every answer is used at most once, in the order of arrival, and nothing else is: the logged answers
followed by those that stand ready change only by an arriving answer, which joins them at the end, or is
discarded when a reset has abandoned the transaction it belongs to (20_memory.md sections 4 and 6;
assumptions 4, 5 and 19). -/
def Obligations.AnswersAreUsedOnceInOrder : Prop :=
  ∀ s t : State, step s = .next t →
    t.r.log ++ t.r.answers = s.r.log ++ s.r.answers ++ (match s.inputs.head? with
      | some (.sourceAnswer a) => if s.r.stale then [] else [a]
      | _ => []) ∧
    t.w.log.map Prod.snd ++ t.w.answers = s.w.log.map Prod.snd ++ s.w.answers ++
      (match s.inputs.head? with
      | some (.sinkAnswer a) => if s.w.stale then [] else [a]
      | _ => [])

/-- One transaction at a time, across resets (20_memory.md section 6): however often a unit with a request
that no one answers is reset and given the command again, one request is out, so one arriving answer is
discarded and the next one is the last command's. That a new command's request waits for the abandoned
one's answer is inferred from R61, and that answer's byte is not counted (assumptions 5 and 19). -/
def Obligations.OneTransactionInFlightAcrossResets : Prop :=
  (∀ (k : Nat) (s : State) (a : SourceAnswer) (v : Byte) (rest : List Input), 0 < k →
    s.r.task = none → s.r.eos = false → s.r.cur = 0 → s.r.answers = [] →
    s.inputs = (List.replicate k [.command .unitR (encode .readbit), .resetR]).flatten ++
      [.command .unitR (encode .readbit), .sourceAnswer a, .sourceAnswer (.byte v)] ++ rest →
    Sys2Proof.core.run (2 * k + 3) s = .next { s with
      r := { s.r with cur := 1, byte := some v, stale := false, log := s.r.log ++ [.byte v]
                      responses := s.r.responses ++ [⟨0, BitVec.ofBool (v.getLsbD 7), 0, none, []⟩] }
      inputs := rest }) ∧
  ∀ (k : Nat) (s : State) (a : SinkAnswer) (v x : Byte) (rest : List Input), 0 < k →
    s.w.task = none → s.w.cur = 0 → s.w.acc = 0x00 → s.w.answers = [] →
    s.inputs = (List.replicate k [.command .unitW (encode (.writebits 8 [x])), .resetW]).flatten ++
      [.command .unitW (encode (.writebits 8 [v])), .sinkAnswer a, .sinkAnswer .ack] ++ rest →
    Sys2Proof.core.run (2 * k + 3) s = .next { s with
      w := { s.w with stale := false, log := s.w.log ++ [(v, .ack)]
                      responses := s.w.responses ++ [⟨0, 0, 8, none, []⟩] }
      inputs := rest }
end

