-- ==== Sys2Proof/Laws/State.lean ====
section
/-!
SUPPORT. One lemma per field for every named update of a unit, so that no proof unfolds a record
update, and one equation per view of the state.
-/

namespace Sys2Proof.Machine

/-! ### respondR -/

@[simp] theorem respondR_cur (p : Response) (r : ReaderUnit) :
    (respondR p r).cur = r.cur := rfl

@[simp] theorem respondR_byte (p : Response) (r : ReaderUnit) :
    (respondR p r).byte = r.byte := rfl

@[simp] theorem respondR_eos (p : Response) (r : ReaderUnit) :
    (respondR p r).eos = r.eos := rfl

@[simp] theorem respondR_task (p : Response) (r : ReaderUnit) :
    (respondR p r).task = none := rfl

@[simp] theorem respondR_answers (p : Response) (r : ReaderUnit) :
    (respondR p r).answers = r.answers := rfl

@[simp] theorem respondR_stale (p : Response) (r : ReaderUnit) :
    (respondR p r).stale = r.stale := rfl

@[simp] theorem respondR_log (p : Response) (r : ReaderUnit) :
    (respondR p r).log = r.log := rfl

@[simp] theorem respondR_responses (p : Response) (r : ReaderUnit) :
    (respondR p r).responses = r.responses ++ [p] := rfl

/-! ### answered -/

@[simp] theorem answered_cur (a : SourceAnswer) (rest : List SourceAnswer) (r : ReaderUnit) :
    (answered a rest r).cur = r.cur := rfl

@[simp] theorem answered_byte (a : SourceAnswer) (rest : List SourceAnswer) (r : ReaderUnit) :
    (answered a rest r).byte = r.byte := rfl

@[simp] theorem answered_eos (a : SourceAnswer) (rest : List SourceAnswer) (r : ReaderUnit) :
    (answered a rest r).eos = eosAfter r.eos a := rfl

@[simp] theorem answered_task (a : SourceAnswer) (rest : List SourceAnswer) (r : ReaderUnit) :
    (answered a rest r).task = r.task := rfl

@[simp] theorem answered_answers (a : SourceAnswer) (rest : List SourceAnswer) (r : ReaderUnit) :
    (answered a rest r).answers = rest := rfl

@[simp] theorem answered_stale (a : SourceAnswer) (rest : List SourceAnswer) (r : ReaderUnit) :
    (answered a rest r).stale = r.stale := rfl

@[simp] theorem answered_log (a : SourceAnswer) (rest : List SourceAnswer) (r : ReaderUnit) :
    (answered a rest r).log = r.log ++ [a] := rfl

@[simp] theorem answered_responses (a : SourceAnswer) (rest : List SourceAnswer) (r : ReaderUnit) :
    (answered a rest r).responses = r.responses := rfl

/-! ### ReaderUnit.applyReset -/

@[simp] theorem ReaderUnit.applyReset_cur (r : ReaderUnit) :
    (r.applyReset).cur = 0 := rfl

@[simp] theorem ReaderUnit.applyReset_byte (r : ReaderUnit) :
    (r.applyReset).byte = none := rfl

@[simp] theorem ReaderUnit.applyReset_eos (r : ReaderUnit) :
    (r.applyReset).eos = false := rfl

@[simp] theorem ReaderUnit.applyReset_task (r : ReaderUnit) :
    (r.applyReset).task = none := rfl

@[simp] theorem ReaderUnit.applyReset_answers (r : ReaderUnit) :
    (r.applyReset).answers = r.answers := rfl

@[simp] theorem ReaderUnit.applyReset_stale (r : ReaderUnit) :
    (r.applyReset).stale = (r.stale || r.task.isSome) := rfl

@[simp] theorem ReaderUnit.applyReset_log (r : ReaderUnit) :
    (r.applyReset).log = r.log := rfl

@[simp] theorem ReaderUnit.applyReset_responses (r : ReaderUnit) :
    (r.applyReset).responses = r.responses := rfl

/-! ### respondW -/

@[simp] theorem respondW_cur (p : Response) (w : WriterUnit) :
    (respondW p w).cur = w.cur := rfl

@[simp] theorem respondW_acc (p : Response) (w : WriterUnit) :
    (respondW p w).acc = w.acc := rfl

@[simp] theorem respondW_task (p : Response) (w : WriterUnit) :
    (respondW p w).task = none := rfl

@[simp] theorem respondW_answers (p : Response) (w : WriterUnit) :
    (respondW p w).answers = w.answers := rfl

@[simp] theorem respondW_stale (p : Response) (w : WriterUnit) :
    (respondW p w).stale = w.stale := rfl

@[simp] theorem respondW_log (p : Response) (w : WriterUnit) :
    (respondW p w).log = w.log := rfl

@[simp] theorem respondW_responses (p : Response) (w : WriterUnit) :
    (respondW p w).responses = w.responses ++ [p] := rfl

@[simp] theorem respondW_policy (p : Response) (w : WriterUnit) :
    (respondW p w).policy = w.policy := rfl

/-! ### offered -/

@[simp] theorem offered_cur (a : SinkAnswer) (rest : List SinkAnswer) (w : WriterUnit) :
    (offered a rest w).cur = w.cur := rfl

@[simp] theorem offered_acc (a : SinkAnswer) (rest : List SinkAnswer) (w : WriterUnit) :
    (offered a rest w).acc = w.acc := rfl

@[simp] theorem offered_task (a : SinkAnswer) (rest : List SinkAnswer) (w : WriterUnit) :
    (offered a rest w).task = w.task := rfl

@[simp] theorem offered_answers (a : SinkAnswer) (rest : List SinkAnswer) (w : WriterUnit) :
    (offered a rest w).answers = rest := rfl

@[simp] theorem offered_stale (a : SinkAnswer) (rest : List SinkAnswer) (w : WriterUnit) :
    (offered a rest w).stale = w.stale := rfl

@[simp] theorem offered_log (a : SinkAnswer) (rest : List SinkAnswer) (w : WriterUnit) :
    (offered a rest w).log = w.log ++ [(w.acc, a)] := rfl

@[simp] theorem offered_responses (a : SinkAnswer) (rest : List SinkAnswer) (w : WriterUnit) :
    (offered a rest w).responses = w.responses := rfl

@[simp] theorem offered_policy (a : SinkAnswer) (rest : List SinkAnswer) (w : WriterUnit) :
    (offered a rest w).policy = w.policy := rfl

/-! ### clearByte -/

@[simp] theorem clearByte_cur (w : WriterUnit) :
    (clearByte w).cur = 0 := rfl

@[simp] theorem clearByte_acc (w : WriterUnit) :
    (clearByte w).acc = 0x00 := rfl

@[simp] theorem clearByte_task (w : WriterUnit) :
    (clearByte w).task = w.task := rfl

@[simp] theorem clearByte_answers (w : WriterUnit) :
    (clearByte w).answers = w.answers := rfl

@[simp] theorem clearByte_stale (w : WriterUnit) :
    (clearByte w).stale = w.stale := rfl

@[simp] theorem clearByte_log (w : WriterUnit) :
    (clearByte w).log = w.log := rfl

@[simp] theorem clearByte_responses (w : WriterUnit) :
    (clearByte w).responses = w.responses := rfl

@[simp] theorem clearByte_policy (w : WriterUnit) :
    (clearByte w).policy = w.policy := rfl

/-! ### padWithOnes -/

@[simp] theorem padWithOnes_cur (w : WriterUnit) :
    (padWithOnes w).cur = 7 := rfl

@[simp] theorem padWithOnes_acc (w : WriterUnit) :
    (padWithOnes w).acc = w.acc ||| (0xFF#8 >>> w.cur.val) := rfl

@[simp] theorem padWithOnes_task (w : WriterUnit) :
    (padWithOnes w).task = w.task := rfl

@[simp] theorem padWithOnes_answers (w : WriterUnit) :
    (padWithOnes w).answers = w.answers := rfl

@[simp] theorem padWithOnes_stale (w : WriterUnit) :
    (padWithOnes w).stale = w.stale := rfl

@[simp] theorem padWithOnes_log (w : WriterUnit) :
    (padWithOnes w).log = w.log := rfl

@[simp] theorem padWithOnes_responses (w : WriterUnit) :
    (padWithOnes w).responses = w.responses := rfl

@[simp] theorem padWithOnes_policy (w : WriterUnit) :
    (padWithOnes w).policy = w.policy := rfl

/-! ### WriterUnit.applyReset -/

@[simp] theorem WriterUnit.applyReset_cur (w : WriterUnit) :
    (w.applyReset).cur = 0 := rfl

@[simp] theorem WriterUnit.applyReset_acc (w : WriterUnit) :
    (w.applyReset).acc = 0x00 := rfl

@[simp] theorem WriterUnit.applyReset_task (w : WriterUnit) :
    (w.applyReset).task = none := rfl

@[simp] theorem WriterUnit.applyReset_answers (w : WriterUnit) :
    (w.applyReset).answers = w.answers := rfl

@[simp] theorem WriterUnit.applyReset_stale (w : WriterUnit) :
    (w.applyReset).stale = (w.stale || w.task.isSome) := rfl

@[simp] theorem WriterUnit.applyReset_log (w : WriterUnit) :
    (w.applyReset).log = w.log := rfl

@[simp] theorem WriterUnit.applyReset_responses (w : WriterUnit) :
    (w.applyReset).responses = w.responses := rfl

@[simp] theorem WriterUnit.applyReset_policy (w : WriterUnit) :
    (w.applyReset).policy = w.policy := rfl

/-! ### afterReject -/

@[simp] theorem afterReject_task (w : WriterUnit) : (afterReject w).task = w.task := by
  unfold afterReject; split <;> rfl

@[simp] theorem afterReject_answers (w : WriterUnit) : (afterReject w).answers = w.answers := by
  unfold afterReject; split <;> rfl

@[simp] theorem afterReject_stale (w : WriterUnit) : (afterReject w).stale = w.stale := by
  unfold afterReject; split <;> rfl

@[simp] theorem afterReject_log (w : WriterUnit) : (afterReject w).log = w.log := by
  unfold afterReject; split <;> rfl

@[simp] theorem afterReject_responses (w : WriterUnit) : (afterReject w).responses = w.responses := by
  unfold afterReject; split <;> rfl

@[simp] theorem afterReject_policy (w : WriterUnit) : (afterReject w).policy = w.policy := by
  unfold afterReject; split <;> rfl

theorem afterReject_cur (w : WriterUnit) :
    (afterReject w).cur = if w.policy = .hold then w.cur else 0 := by
  unfold afterReject; split <;> simp_all

theorem afterReject_acc (w : WriterUnit) :
    (afterReject w).acc = if w.policy = .hold then w.acc else 0x00 := by
  unfold afterReject; split <;> simp_all

/-! ### Responses -/

@[simp] theorem mkResponse_status (st : Status) (b : Bool) (k : Nat) (l : List Byte) :
    (mkResponse st b k l).status = st.code := rfl

@[simp] theorem mkResponse_bit (st : Status) (b : Bool) (k : Nat) (l : List Byte) :
    (mkResponse st b k l).bit = BitVec.ofBool b := rfl

@[simp] theorem mkResponse_count (st : Status) (b : Bool) (k : Nat) (l : List Byte) :
    (mkResponse st b k l).count = BitVec.ofNat 64 k := rfl

@[simp] theorem mkResponse_err (st : Status) (b : Bool) (k : Nat) (l : List Byte) :
    (mkResponse st b k l).err = st.err := rfl

@[simp] theorem mkResponse_payload (st : Status) (b : Bool) (k : Nat) (l : List Byte) :
    (mkResponse st b k l).payload = l := rfl

/-- Reading a response's status back gives the status it was made with. -/
theorem report_mkResponse (st : Status) (b : Bool) (k : Nat) (l : List Byte) :
    (mkResponse st b k l).report = some st := by
  cases st <;> rfl

theorem Status.code_le_four (st : Status) : st.code.toNat ≤ 4 := by cases st <;> simp [Status.code]

/-! ### Reset -/

@[simp] theorem reset_r : State.reset.r = ReaderUnit.reset := rfl

@[simp] theorem reset_w : State.reset.w = WriterUnit.reset := rfl

@[simp] theorem reset_inputs : State.reset.inputs = [] := rfl

/-! ### The bytes a transaction moves -/

@[simp] theorem delivered_byte (v : Byte) : (SourceAnswer.byte v).delivered = some v := rfl

@[simp] theorem delivered_eos : SourceAnswer.eos.delivered = none := rfl

@[simp] theorem delivered_fail (e : ErrT) : (SourceAnswer.fail e).delivered = none := rfl

@[simp] theorem acceptedByte_ack (v : Byte) : acceptedByte (v, .ack) = some v := rfl

@[simp] theorem acceptedByte_fail (v : Byte) (e : ErrT) : acceptedByte (v, .fail e) = none := rfl

theorem consumed_of_log {r r' : ReaderUnit} {l : List SourceAnswer} (h : r'.log = r.log ++ l) :
    r'.consumed = r.consumed ++ l.filterMap SourceAnswer.delivered := by
  simp [ReaderUnit.consumed, h]

theorem sinkOutput_of_log {w w' : WriterUnit} {l : List (Byte × SinkAnswer)}
    (h : w'.log = w.log ++ l) : w'.sinkOutput = w.sinkOutput ++ l.filterMap acceptedByte := by
  simp [WriterUnit.sinkOutput, h]

/-! ### Steps -/

theorem step_nil {s : State} (h : s.inputs = []) : step s = .next s := by simp [step, h]

theorem step_cons {s : State} {x : Input} {rest : List Input} (h : s.inputs = x :: rest) :
    step s = runInput x { s with inputs := rest } := by simp [step, h]

theorem execAll_cons_next {i : Instr} {is : List Instr} {s t : State} (h : exec i s = .next t) :
    execAll (i :: is) s = execAll is t := by simp [execAll, h]

theorem execAll_append (is js : List Instr) (s : State) :
    execAll (is ++ js) s = match execAll is s with
      | .next t => execAll js t
      | .fault f => .fault f
      | .refused w => .refused w := by
  induction is generalizing s with
  | nil => rfl
  | cons i is ih => simp only [List.cons_append, execAll]; cases exec i s <;> simp [ih]

end Sys2Proof.Machine
end

