-- ==== Sys2Proof/Laws/Bits.lean ====
section
/-!
SUPPORT. Positions, bytes and packing: a byte is its eight bits, `setBit` writes one of them, and
`packBits` is the inverse of the stream order (R53 to R55).
-/

namespace Sys2Proof.Machine

theorem bitAt_eq (v : Byte) (p : Position) : bitAt v p = v.getLsbD (7 - p.val) := by
  simp [bitAt]

/-- Two bytes with the same eight bits are equal. -/
theorem byte_ext {a b : Byte} (h : ∀ p : Position, bitAt a p = bitAt b p) : a = b := by
  apply BitVec.eq_of_getLsbD_eq
  intro i hi
  have := h ⟨7 - i, by omega⟩
  simp only [bitAt_eq] at this
  rwa [show 7 - (7 - i) = i by omega] at this

@[simp] theorem bitAt_zero (p : Position) : bitAt 0#8 p = false := by simp [bitAt_eq]

@[simp] theorem bitAt_or (a b : Byte) (p : Position) :
    bitAt (a ||| b) p = (bitAt a p || bitAt b p) := by simp [bitAt_eq]

@[simp] theorem bitAt_mask (p q : Position) : bitAt (mask p) q = decide (p = q) := by
  revert p q; decide

/-- FLUSHONES' pad: the positions from p on (R150). -/
@[simp] theorem bitAt_ones (p q : Position) : bitAt (0xFF#8 >>> p.val) q = decide (p ≤ q) := by
  revert p q; decide

/-- A 1 sets its position, a 0 leaves the byte as it was (R26). -/
theorem bitAt_setBit (v : Byte) (p q : Position) (b : Bool) :
    bitAt (setBit v p b) q = (bitAt v q || (b && decide (p = q))) := by
  cases b <;> simp [setBit]

@[simp] theorem byteBits_length (v : Byte) : (byteBits v).length = 8 := by simp [byteBits]

theorem byteBits_getElem (v : Byte) (i : Nat) (h : i < (byteBits v).length) :
    (byteBits v)[i] = bitAt v ⟨i, by simpa using h⟩ := by
  simp [byteBits]

theorem bitsOf_cons (v : Byte) (bs : List Byte) : bitsOf (v :: bs) = byteBits v ++ bitsOf bs := rfl

@[simp] theorem bitsOf_nil : bitsOf [] = [] := rfl

theorem bitsOf_append (as bs : List Byte) : bitsOf (as ++ bs) = bitsOf as ++ bitsOf bs := by
  simp [bitsOf]

@[simp] theorem bitsOf_length (bs : List Byte) : (bitsOf bs).length = 8 * bs.length := by
  induction bs with
  | nil => rfl
  | cons v bs ih => rw [bitsOf_cons]; simp [ih]; omega

/-- Bit k of the stream is `bit(bs, k)` (R54). -/
theorem bitsOf_getElem (bs : List Byte) (k : Nat) (h : k < (bitsOf bs).length) :
    (bitsOf bs)[k] = bufBit bs k := by
  induction bs generalizing k with
  | nil => simp at h
  | cons v bs ih =>
    simp only [bitsOf_cons, List.getElem_append, byteBits_length]
    split
    · rename_i hk
      rw [byteBits_getElem]
      simp [bufBit, Nat.div_eq_of_lt hk, Fin.ofNat, Nat.mod_eq_of_lt hk]
    · rename_i hk
      obtain ⟨m, rfl⟩ : ∃ m, k = m + 8 := ⟨k - 8, by omega⟩
      simp only [Nat.add_sub_cancel]
      rw [ih]
      simp [bufBit, Fin.ofNat]

theorem bufBit_eq_getD (bs : List Byte) (k : Nat) : bufBit bs k = (bitsOf bs).getD k false := by
  rw [List.getD_eq_getElem?_getD]
  by_cases h : k < (bitsOf bs).length
  · rw [List.getElem?_eq_getElem h, bitsOf_getElem]; rfl
  · have h' : bs.length ≤ k / 8 := by simp only [bitsOf_length] at h; omega
    rw [List.getElem?_eq_none (by omega)]
    simp [bufBit, h']

@[simp] theorem bitAt_byteOf (f : Position → Bool) (p : Position) : bitAt (byteOf f) p = f p := by
  have : ∀ (l : List Position) (v : Byte),
      bitAt (l.foldl (fun v q => if f q then v ||| mask q else v) v) p =
        (bitAt v p || (f p && decide (p ∈ l))) := by
    intro l
    induction l with
    | nil => simp
    | cons q l ih =>
      intro v
      rw [List.foldl_cons, ih]
      by_cases hq : f q <;> by_cases hpq : p = q
      · subst hpq; simp [hq]
      · simp [hq, hpq, Ne.symm hpq]
      · subst hpq; simp [hq]
      · simp [hq, hpq]
  simpa [byteOf] using this (List.finRange 8) 0

theorem byteOf_bitAt (v : Byte) : byteOf (bitAt v) = v := byte_ext fun p => by simp

/-- The bits of a packed byte, from a bit list (R55). -/
theorem byteBits_byteOf (f : Position → Bool) : byteBits (byteOf f) = (List.finRange 8).map f := by
  simp [byteBits]

@[simp] theorem packBits_length (bits : List Bool) :
    (packBits bits).length = (bits.length + 7) / 8 := by simp [packBits]

@[simp] theorem packBits_nil : packBits [] = [] := rfl

theorem packBits_getElem (bits : List Bool) (j : Nat) (h : j < (packBits bits).length) :
    (packBits bits)[j] = byteOf fun q => bits.getD (8 * j + q.val) false := by simp [packBits]

/-- Packing a whole byte's bits and then more (R55). -/
theorem packBits_byteBits_append (v : Byte) (bits : List Bool) :
    packBits (byteBits v ++ bits) = v :: packBits bits := by
  apply List.ext_getElem
  · simp; omega
  · intro j h₁ h₂
    rw [packBits_getElem]
    apply byte_ext
    intro q
    rw [bitAt_byteOf]
    cases j with
    | zero =>
      rw [List.getD_eq_getElem?_getD, List.getElem?_append_left (by simp)]
      simp [byteBits, q.isLt]
    | succ j =>
      rw [List.getElem_cons_succ, packBits_getElem, bitAt_byteOf,
        List.getD_eq_getElem?_getD, List.getElem?_append_right (by simp; omega)]
      simp only [byteBits_length, List.getD_eq_getElem?_getD]
      congr 2
      omega

/-- `pack` is the inverse of the stream order on whole bytes (R55). -/
theorem packBits_bitsOf_append (bs : List Byte) (bits : List Bool) :
    packBits (bitsOf bs ++ bits) = bs ++ packBits bits := by
  induction bs with
  | nil => rfl
  | cons v bs ih => rw [bitsOf_cons, List.append_assoc, packBits_byteBits_append, ih]; rfl

@[simp] theorem packBits_bitsOf (bs : List Byte) : packBits (bitsOf bs) = bs := by
  simpa using packBits_bitsOf_append bs []

/-- Fewer than eight bits make one byte, zero-padded. -/
theorem packBits_short {bits : List Bool} (h₀ : bits ≠ []) (h : bits.length < 8) :
    packBits bits = [byteOf fun q => bits.getD q.val false] := by
  have h₁ : 0 < bits.length := List.length_pos_iff.2 h₀
  have : (bits.length + 7) / 8 = 1 := by omega
  simp [packBits, this]

end Sys2Proof.Machine
end

