-- ==== Sys2Proof/Laws/Codec.lean ====
section
/-!
SUPPORT. The fields of a packed header (R71), and what an opcode's sub-fields say (R72, R74).
-/

namespace Sys2Proof

theorem packHeader_bit (op : Byte) (a len : Word) (i : Nat) :
    (packHeader op a len).getLsbD i =
      if i < 64 then len.getLsbD i else if i - 64 < 64 then a.getLsbD (i - 64)
        else op.getLsbD (i - 64 - 64) := by
  show (op ++ a ++ len : BitVec (8 + 64 + 64)).getLsbD i = _
  rw [BitVec.getLsbD_append, BitVec.getLsbD_append]

@[simp] theorem opField_packHeader (op : Byte) (a len : Word) :
    opField (packHeader op a len) = op := by
  apply BitVec.eq_of_getLsbD_eq
  intro i hi
  rw [opField, BitVec.getLsbD_extractLsb', packHeader_bit, if_neg (by omega), if_neg (by omega),
    show 128 + i - 64 - 64 = i by omega]
  simp [hi]

@[simp] theorem aField_packHeader (op : Byte) (a len : Word) :
    aField (packHeader op a len) = a := by
  apply BitVec.eq_of_getLsbD_eq
  intro i hi
  rw [aField, BitVec.getLsbD_extractLsb', packHeader_bit, if_neg (by omega), if_pos (by omega),
    show 64 + i - 64 = i by omega]
  simp [hi]

@[simp] theorem lenField_packHeader (op : Byte) (a len : Word) :
    lenField (packHeader op a len) = len := by
  apply BitVec.eq_of_getLsbD_eq
  intro i hi
  rw [lenField, BitVec.getLsbD_extractLsb', packHeader_bit, if_pos (by omega)]
  simp [hi]

/-- The decoder looks at the fields only: on a record, as R74's exact match of the opcode. -/
theorem decode_by_opcode (port : UnitId) (c : CommandRecord) :
    decode port c =
      if opReserved (opField c.header) ≠ 0 then .reject .reservedBits
      else if opUnit (opField c.header) ≠ port then .reject .wrongUnit
      else match port with
        | .unitR =>
          if opField c.header = 0x01 then .instr .readbit
          else if opField c.header = 0x02 then .instr (.readbits (aField c.header))
          else .reject .undefinedFunction
        | .unitW =>
          if opField c.header = 0x81 then .instr (.writebit (aField c.header))
          else if opField c.header = 0x82 then decodeWritebits c
          else if opField c.header = 0x83 then .instr .flush
          else if opField c.header = 0x84 then .instr .flushones
          else .reject .undefinedFunction := by
  have keyR : ∀ op : Byte, opReserved op = 0 → opUnit op = .unitR →
      (op = 0x01 ↔ (opFunction op).toNat = 1) ∧ (op = 0x02 ↔ (opFunction op).toNat = 2) := by decide
  have keyW : ∀ op : Byte, opReserved op = 0 → opUnit op = .unitW →
      (op = 0x81 ↔ (opFunction op).toNat = 1) ∧ (op = 0x82 ↔ (opFunction op).toNat = 2) ∧
      (op = 0x83 ↔ (opFunction op).toNat = 3) ∧ (op = 0x84 ↔ (opFunction op).toNat = 4) := by decide
  unfold decode
  split
  · rfl
  · rename_i hr
    split
    · rfl
    · rename_i hu
      simp only [not_not, ne_eq] at hr hu
      cases port with
      | unitR =>
        obtain ⟨k1, k2⟩ := keyR _ hr hu
        simp only [decodeReader, k1, k2]
        generalize (opFunction (opField c.header)).toNat = f
        split
        · rfl
        · rfl
        · rename_i h1 h2; rw [if_neg h1, if_neg h2]
      | unitW =>
        obtain ⟨k1, k2, k3, k4⟩ := keyW _ hr hu
        simp only [decodeWriter, k1, k2, k3, k4]
        generalize (opFunction (opField c.header)).toNat = f
        split
        · rfl
        · rfl
        · rfl
        · rfl
        · rename_i h1 h2 h3 h4; rw [if_neg h1, if_neg h2, if_neg h3, if_neg h4]

end Sys2Proof
end

