-- ==== Sys2Proof/Laws/Pack.lean ====
section
/-!
SUPPORT. The pack unit (R27, R106): after a READBITS has put a list of bits into it, it finishes with
their packing (R55).
-/

namespace Sys2Proof.Machine

/-- The pack unit holds exactly these bits: whole bytes in `out`, fewer than eight in `acc`. -/
def Pack.Holds (pk : Pack) (bits : List Bool) : Prop :=
  ∃ tail : List Bool, bits = bitsOf pk.out ++ tail ∧ tail.length < 8 ∧
    pk.cur.val = tail.length ∧ pk.acc = byteOf fun q => tail.getD q.val false

/-- Writing the next bit of a partial byte. -/
theorem setBit_byteOf {tail : List Bool} {p : Position} (h : p.val = tail.length) (b : Bool) :
    setBit (byteOf fun q => tail.getD q.val false) p b =
      byteOf fun q => (tail ++ [b]).getD q.val false := by
  apply byte_ext
  intro q
  rw [bitAt_setBit, bitAt_byteOf, bitAt_byteOf]
  simp only [List.getD_eq_getElem?_getD]
  by_cases hq : q.val < tail.length
  · have : p ≠ q := fun e => by subst e; omega
    rw [List.getElem?_append_left hq]; simp [this]
  · rw [List.getElem?_append_right (by omega), List.getElem?_eq_none (l := tail) (by omega)]
    by_cases hpq : p = q
    · subst hpq; simp [h]
    · have : q.val - tail.length ≠ 0 := fun e => hpq (Fin.ext (by omega))
      obtain ⟨m, hm⟩ := Nat.exists_eq_succ_of_ne_zero this
      simp [hpq, hm]

theorem Pack.holds_empty : Pack.empty.Holds [] :=
  ⟨[], by simp [Pack.empty, byteOf]⟩

theorem Pack.holds_put {pk : Pack} {bits : List Bool} (h : pk.Holds bits) (b : Bool) :
    (pkPut pk b).Holds (bits ++ [b]) := by
  obtain ⟨tail, rfl, hlen, hcur, hacc⟩ := h
  unfold pkPut
  split
  · rename_i h7
    have h7' : tail.length = 7 := by rw [← hcur, h7]; rfl
    refine ⟨[], ?_, by simp, by simp [h7], by simp [byteOf]⟩
    have hb : byteBits (setBit pk.acc pk.cur b) = tail ++ [b] := by
      rw [hacc, setBit_byteOf hcur, byteBits_byteOf]
      apply List.ext_getElem (by simp [h7'])
      intro i h₁ h₂
      simp [List.getElem?_eq_getElem h₂, List.getD_eq_getElem?_getD]
    simp [bitsOf_append, bitsOf_cons, hb]
  · rename_i h7
    have : tail.length ≠ 7 := fun e => h7 (Fin.ext (by rw [hcur, e]; rfl))
    refine ⟨tail ++ [b], by simp, by simp; omega, ?_, ?_⟩
    · rw [Fin.val_add, hcur]; simp; omega
    · simp only; rw [hacc, setBit_byteOf hcur]

/-- The payload is the packing of the bits read (R106). -/
theorem Pack.holds_finish {pk : Pack} {bits : List Bool} (h : pk.Holds bits) :
    pk.finish = packBits bits := by
  obtain ⟨tail, rfl, hlen, hcur, hacc⟩ := h
  rw [packBits_bitsOf_append]
  unfold Pack.finish
  split
  · rename_i h0
    have : tail = [] := List.eq_nil_of_length_eq_zero (by rw [← hcur, h0]; rfl)
    simp [this]
  · rename_i h0
    have : tail ≠ [] := fun e => h0 (Fin.ext (by rw [hcur, e]; rfl))
    rw [packBits_short this hlen, hacc]

theorem Pack.holds_inv {pk : Pack} {bits : List Bool} (h : pk.Holds bits) :
    pk.Inv bits.length := by
  obtain ⟨tail, rfl, hlen, hcur, hacc⟩ := h
  refine ⟨by simp; omega, by simp; omega, fun q hq => ?_⟩
  have : tail.length ≤ q.val := hcur ▸ hq
  rw [hacc, bitAt_byteOf, List.getD_eq_getElem?_getD, List.getElem?_eq_none this]; rfl

/-- A pack unit with the invariant holds some list of that many bits. -/
theorem Pack.exists_holds {pk : Pack} {k : Nat} (h : pk.Inv k) :
    ∃ bits : List Bool, bits.length = k ∧ pk.Holds bits := by
  obtain ⟨ho, hc, hz⟩ := h
  refine ⟨bitsOf pk.out ++ (byteBits pk.acc).take pk.cur.val, ?_, _, rfl, ?_, ?_, ?_⟩
  · simp [ho, hc]; omega
  · simp
  · simp
  · apply byte_ext
    intro q
    rw [bitAt_byteOf, List.getD_eq_getElem?_getD, List.getElem?_take]
    split
    · simp [byteBits]
    · rename_i hq
      simpa using hz q (not_lt.1 hq)

theorem Pack.finish_length {pk : Pack} {k : Nat} (h : pk.Inv k) :
    pk.finish.length = (k + 7) / 8 := by
  obtain ⟨bits, rfl, hb⟩ := Pack.exists_holds h
  rw [Pack.holds_finish hb, packBits_length]

theorem Pack.inv_empty : Pack.empty.Inv 0 := Pack.holds_inv Pack.holds_empty

theorem Pack.inv_put {pk : Pack} {k : Nat} (h : pk.Inv k) (b : Bool) :
    (pkPut pk b).Inv (k + 1) := by
  obtain ⟨bits, rfl, hb⟩ := Pack.exists_holds h
  simpa using Pack.holds_inv (Pack.holds_put hb b)

end Sys2Proof.Machine
end

