-- ==== Sys2Proof/Laws/PerInstr.lean ====
section
/-!
SUPPORT. Facts made per instruction: the record an instruction encodes to has its opcode's row (R74),
its operand and its length in the fields of R71.
-/

namespace Sys2Proof.Laws.EncodedFields

/-- The fields of the encoded record are the instruction's. -/
def Statement (i : Instr) : Prop :=
  opField (encode i).header = i.opcode ∧ aField (encode i).header = i.aOperand ∧
    opUnit i.opcode = i.unit ∧ opReserved i.opcode = 0 ∧
    (i.wellFormed = true → (lenField (encode i).header).toNat = (encode i).payload.length)

/-- The fields of any encoding, from the field lemmas. -/
theorem of_row {i : Instr} (hu : opUnit i.opcode = i.unit) (hr : opReserved i.opcode = 0)
    (hl : i.wellFormed = true → i.payload.length ≤ maxLen) : Statement i := by
  refine ⟨by simp [encode], by simp [encode], hu, hr, fun h => ?_⟩
  have := hl h
  simp only [maxLen] at this
  simp only [encode, lenField_packHeader, BitVec.toNat_ofNat]
  omega

theorem readbit : Statement .readbit := of_row rfl rfl (by simp [Instr.payload])

theorem readbits (n : Word) : Statement (.readbits n) :=
  of_row (by show opUnit (0x02 : Byte) = .unitR; decide)
    (by show opReserved (0x02 : Byte) = 0; decide) (by simp [Instr.payload])

theorem writebit (x : Word) : Statement (.writebit x) :=
  of_row (by show opUnit (0x81 : Byte) = .unitW; decide)
    (by show opReserved (0x81 : Byte) = 0; decide) (by simp [Instr.payload])

theorem writebits (n : Word) (buf : List Byte) : Statement (.writebits n buf) :=
  of_row (by show opUnit (0x82 : Byte) = .unitW; decide)
    (by show opReserved (0x82 : Byte) = 0; decide) fun h => by
      simpa [Instr.wellFormed, Instr.payload] using h

theorem flush : Statement .flush := of_row rfl rfl (by simp [Instr.payload])

theorem flushones : Statement .flushones := of_row rfl rfl (by simp [Instr.payload])

end Sys2Proof.Laws.EncodedFields
end

