-- ==== Sys2Proof/Laws/Reader.lean ====
section
/-!
SUPPORT. Unit R: what one `rb_step()` can do, said once, and what READBITS' loop does on a stream of
available bits.
-/

namespace Sys2Proof.Machine

/-! ## One bit step -/

theorem rbStep_exhausted {r : ReaderUnit} (h : r.eos = true) : rbStep r = .stop .eos r := by
  simp [rbStep, h]

theorem rbStep_inside {r : ReaderUnit} {v : Byte} (he : r.eos = false) (hc : r.cur ≠ 0)
    (hv : r.byte = some v) : rbStep r = .bit (bitAt v r.cur) { r with cur := r.cur + 1 } := by
  simp [rbStep, he, hc, produceBit, hv]

theorem rbStep_absent {r : ReaderUnit} (he : r.eos = false) (hc : r.cur ≠ 0)
    (hv : r.byte = none) : rbStep r = .fault .absentByte := by
  simp [rbStep, he, hc, produceBit, hv]

theorem rbStep_silent {r : ReaderUnit} (he : r.eos = false) (hc : r.cur = 0)
    (ha : r.answers = []) : rbStep r = .wait := by
  simp [rbStep, he, hc, fetchThenProduce, ha]

theorem rbStep_byte {r : ReaderUnit} {v : Byte} {rest : List SourceAnswer} (he : r.eos = false)
    (hc : r.cur = 0) (ha : r.answers = .byte v :: rest) :
    rbStep r = .bit (bitAt v 0)
      { r with cur := 1, byte := some v, answers := rest, log := r.log ++ [.byte v] } := by
  simp [rbStep, he, hc, fetchThenProduce, ha, produceBit, answered, eosAfter]

theorem rbStep_eos {r : ReaderUnit} {rest : List SourceAnswer} (he : r.eos = false)
    (hc : r.cur = 0) (ha : r.answers = .eos :: rest) :
    rbStep r = .stop .eos { r with eos := true, answers := rest, log := r.log ++ [.eos] } := by
  simp [rbStep, he, hc, fetchThenProduce, ha, answered, eosAfter]

theorem rbStep_fail {r : ReaderUnit} {e : ErrT} {rest : List SourceAnswer} (he : r.eos = false)
    (hc : r.cur = 0) (ha : r.answers = .fail e :: rest) :
    rbStep r = .stop (.iofail e) { r with answers := rest, log := r.log ++ [.fail e] } := by
  simp [rbStep, he, hc, fetchThenProduce, ha, answered, eosAfter]

/-- Everything one `rb_step()` can do. -/
inductive BitCases (r : ReaderUnit) : BitResult → Prop where
  | exhausted (he : r.eos = true) : BitCases r (.stop .eos r)
  | inside (v : Byte) (he : r.eos = false) (hc : r.cur ≠ 0) (hv : r.byte = some v) :
      BitCases r (.bit (bitAt v r.cur) { r with cur := r.cur + 1 })
  | absent (he : r.eos = false) (hc : r.cur ≠ 0) (hv : r.byte = none) :
      BitCases r (.fault .absentByte)
  | silent (he : r.eos = false) (hc : r.cur = 0) (ha : r.answers = []) : BitCases r .wait
  | byte (v : Byte) (rest : List SourceAnswer) (he : r.eos = false) (hc : r.cur = 0)
      (ha : r.answers = .byte v :: rest) :
      BitCases r (.bit (bitAt v 0)
        { r with cur := 1, byte := some v, answers := rest, log := r.log ++ [.byte v] })
  | eos (rest : List SourceAnswer) (he : r.eos = false) (hc : r.cur = 0)
      (ha : r.answers = .eos :: rest) :
      BitCases r (.stop .eos { r with eos := true, answers := rest, log := r.log ++ [.eos] })
  | fail (e : ErrT) (rest : List SourceAnswer) (he : r.eos = false) (hc : r.cur = 0)
      (ha : r.answers = .fail e :: rest) :
      BitCases r (.stop (.iofail e) { r with answers := rest, log := r.log ++ [.fail e] })

theorem rbStep_cases (r : ReaderUnit) : BitCases r (rbStep r) := by
  cases he : r.eos
  · by_cases hc : r.cur = 0
    · cases ha : r.answers with
      | nil => rw [rbStep_silent he hc ha]; exact .silent he hc ha
      | cons a rest =>
        cases a with
        | byte v => rw [rbStep_byte he hc ha]; exact .byte v rest he hc ha
        | eos => rw [rbStep_eos he hc ha]; exact .eos rest he hc ha
        | fail e => rw [rbStep_fail he hc ha]; exact .fail e rest he hc ha
    · cases hv : r.byte with
      | none => rw [rbStep_absent he hc hv]; exact .absent he hc hv
      | some v => rw [rbStep_inside he hc hv]; exact .inside v he hc hv
  · rw [rbStep_exhausted he]; exact .exhausted he

/-! ## The available bits -/

theorem pendingBits_boundary {r : ReaderUnit} (h : r.cur = 0) : r.pendingBits = [] := by
  unfold ReaderUnit.pendingBits; split <;> simp [h]

theorem pendingBits_inside {r : ReaderUnit} {v : Byte} (h : r.cur ≠ 0) (hv : r.byte = some v) :
    r.pendingBits = (byteBits v).drop r.cur.val := by
  simp [ReaderUnit.pendingBits, hv, h]

theorem drop_byteBits (v : Byte) (p : Position) :
    (byteBits v).drop p.val = bitAt v p :: (byteBits v).drop (p.val + 1) := by
  rw [List.drop_eq_getElem_cons (by simp), byteBits_getElem]

/-- The byte's bits after position p, wherever the cursor goes next. -/
theorem pendingBits_advance (r : ReaderUnit) (v : Byte) (p : Position) :
    ({ r with byte := some v, cur := p + 1 } : ReaderUnit).pendingBits =
      (byteBits v).drop (p.val + 1) := by
  by_cases h : p = 7
  · subst h
    rw [pendingBits_boundary (by rfl), List.drop_eq_nil_of_le (by simp)]
  · have h' : (p + 1).val = p.val + 1 := by
      revert p; decide
    have h0 : p + 1 ≠ 0 := fun e => by rw [e] at h'; simp at h'
    rw [pendingBits_inside (v := v) (by simpa using h0) rfl]
    simp [h']

/-- How many of the n bits from cursor c on are at a byte boundary (R100). -/
def boundaries (c n : Nat) : Nat := (List.range n).countP fun i => (c + i) % 8 = 0

theorem boundaries_succ (c n : Nat) :
    boundaries c (n + 1) = (if c % 8 = 0 then 1 else 0) + boundaries (c + 1) n := by
  simp only [boundaries, List.range_succ_eq_map, List.countP_cons, List.countP_map]
  rw [Nat.add_comm]
  congr 1
  · simp
  · congr 1; funext i; simp [Nat.add_comm, Nat.add_left_comm]

theorem boundaries_mod (c n : Nat) : boundaries (c % 8) n = boundaries c n := by
  simp [boundaries, Nat.mod_add_mod]

/-- What reading n bits does to unit R: the stream moves on by n bits, everything else follows. -/
structure Reads (n : Nat) (r r' : ReaderUnit) : Prop where
  eos : r'.eos = false
  byte : r'.cur ≠ 0 → r'.byte.isSome
  stream : r'.availableBits = r.availableBits.drop n
  cur : r'.cur.val = (r.cur.val + n) % 8
  task : r'.task = r.task
  stale : r'.stale = r.stale
  responses : r'.responses = r.responses
  source : r'.log ++ r'.answers = r.log ++ r.answers
  after : afterLeadingBytes r'.answers = afterLeadingBytes r.answers
  count : r'.log.length = r.log.length + boundaries r.cur.val n
  fetched : ∃ l : List Byte, r'.log = r.log ++ l.map .byte ∧ r'.byte = l.getLast?.or r.byte

/-- One bit step with a bit available. -/
theorem rbStep_available {r : ReaderUnit} {b : Bool} {bits : List Bool} (he : r.eos = false)
    (hb : r.cur ≠ 0 → r.byte.isSome) (h : r.availableBits = b :: bits) :
    ∃ r', rbStep r = .bit b r' ∧ Reads 1 r r' := by
  by_cases hc : r.cur = 0
  · have hp := pendingBits_boundary hc
    cases ha : r.answers with
    | nil => simp [ReaderUnit.availableBits, hp, ha, leadingBytes] at h
    | cons a rest =>
      cases a with
      | eos => simp [ReaderUnit.availableBits, hp, ha, leadingBytes] at h
      | fail e => simp [ReaderUnit.availableBits, hp, ha, leadingBytes] at h
      | byte v =>
        have hd := drop_byteBits v 0
        have ht := pendingBits_advance
          { r with answers := rest, log := r.log ++ [.byte v] } v 0
        simp only [ReaderUnit.availableBits, hp, ha, leadingBytes, bitsOf_cons, List.nil_append] at h
        simp only [Fin.val_zero, List.drop_zero, Nat.zero_add] at hd ht
        rw [hd, List.cons_append] at h
        obtain ⟨rfl, rfl⟩ := List.cons.inj h
        refine ⟨_, rbStep_byte he hc ha, he, fun _ => rfl, ?_, ?_, rfl, rfl, rfl, ?_, ?_, ?_,
          [v], rfl, rfl⟩
        · simp only [ReaderUnit.availableBits, hp, ha, leadingBytes, bitsOf_cons, List.nil_append]
          rw [hd, List.cons_append, List.drop_succ_cons, List.drop_zero]
          exact congrArg (· ++ _) ht
        · simp [hc]
        · simp [ha]
        · simp [ha, afterLeadingBytes]
        · simp [hc, boundaries]
  · obtain ⟨v, hv⟩ := Option.isSome_iff_exists.1 (hb hc)
    have hd := drop_byteBits v r.cur
    have ht := pendingBits_advance r v r.cur
    simp only [ReaderUnit.availableBits, pendingBits_inside hc hv] at h
    rw [hd, List.cons_append] at h
    obtain ⟨rfl, rfl⟩ := List.cons.inj h
    have hr : ({ r with cur := r.cur + 1 } : ReaderUnit) =
        { r with byte := some v, cur := r.cur + 1 } := by rw [← hv]
    refine ⟨_, rbStep_inside he hc hv, he, fun _ => by simp [hv], ?_, ?_, rfl, rfl, rfl, rfl, rfl, ?_,
      [], by simp, rfl⟩
    · rw [hr]
      simp only [ReaderUnit.availableBits, ht]
      rw [pendingBits_inside hc hv, hd, List.cons_append, List.drop_succ_cons, List.drop_zero]
    · simp [Fin.val_add]
    · have : r.cur.val % 8 ≠ 0 := fun e => hc (Fin.ext (by simpa [Nat.mod_eq_of_lt r.cur.isLt] using e))
      simp only [boundaries, List.range_one, List.countP_cons, List.countP_nil, Nat.add_zero]
      simp [this]

theorem Reads.zero {r : ReaderUnit} (he : r.eos = false) (hb : r.cur ≠ 0 → r.byte.isSome) :
    Reads 0 r r :=
  ⟨he, hb, rfl, by simp [Nat.mod_eq_of_lt r.cur.isLt], rfl, rfl, rfl, rfl, rfl, by simp [boundaries],
    [], by simp, rfl⟩

theorem Reads.succ {r r₁ r₂ : ReaderUnit} {n : Nat} (h₁ : Reads 1 r r₁) (h₂ : Reads n r₁ r₂) :
    Reads (n + 1) r r₂ where
  eos := h₂.eos
  byte := h₂.byte
  stream := by rw [h₂.stream, h₁.stream, List.drop_drop, Nat.add_comm]
  cur := by rw [h₂.cur, h₁.cur]; omega
  task := h₂.task.trans h₁.task
  stale := h₂.stale.trans h₁.stale
  responses := h₂.responses.trans h₁.responses
  source := h₂.source.trans h₁.source
  after := h₂.after.trans h₁.after
  count := by
    rw [h₂.count, h₁.count, h₁.cur, boundaries_mod, boundaries_succ r.cur.val n, boundaries_succ r.cur.val 0]
    simp [boundaries]; omega
  fetched := by
    obtain ⟨l₁, hl₁, hb₁⟩ := h₁.fetched
    obtain ⟨l₂, hl₂, hb₂⟩ := h₂.fetched
    refine ⟨l₁ ++ l₂, by rw [hl₂, hl₁, List.map_append, List.append_assoc], ?_⟩
    rw [hb₂, hb₁, List.getLast?_append]
    cases l₂.getLast? <;> simp

/-- READBITS' loop while bits are available: it reads them all. -/
theorem readLoop_available {n : Nat} : ∀ {k : Nat} {pk : Pack} {bits : List Bool} {r : ReaderUnit},
    r.eos = false → (r.cur ≠ 0 → r.byte.isSome) → pk.Holds bits → n ≤ r.availableBits.length →
    ∃ pk' r', readLoop n k pk r = .done .ok (k + n) pk' r' ∧
      pk'.Holds (bits ++ r.availableBits.take n) ∧ Reads n r r' := by
  induction n with
  | zero =>
    intro k pk bits r he hb hp _
    exact ⟨pk, r, rfl, by simpa using hp, Reads.zero he hb⟩
  | succ n ih =>
    intro k pk bits r he hb hp hn
    cases hav : r.availableBits with
    | nil => simp [hav] at hn
    | cons b rest =>
      obtain ⟨r₁, hs, h₁⟩ := rbStep_available he hb hav
      have hst : r₁.availableBits = rest := by rw [h₁.stream, hav]; rfl
      obtain ⟨pk', r', hl, hh, h₂⟩ := ih (k := k + 1) h₁.eos h₁.byte (Pack.holds_put hp b)
        (by rw [hst]; simpa [hav] using hn)
      refine ⟨pk', r', ?_, ?_, h₁.succ h₂⟩
      · rw [readLoop, hs]; simp only [hl]; congr 1; omega
      · simpa [hst] using hh

/-- The loop goes on from where its first a bits leave it. -/
theorem readLoop_add {a b k k' : Nat} {pk pk' : Pack} {r r' : ReaderUnit}
    (h : readLoop a k pk r = .done .ok k' pk' r') :
    readLoop (a + b) k pk r = readLoop b k' pk' r' := by
  induction a generalizing k pk r with
  | zero => simp only [readLoop] at h; cases h; simp
  | succ a ih =>
    rw [Nat.succ_add, readLoop]
    rw [readLoop] at h
    have hc := rbStep_cases r
    revert h hc
    cases rbStep r with
    | bit b' r₁ => intro h _; exact ih h
    | stop st r₁ => intro h hc; simp only at h; cases h; cases hc
    | wait => intro h; simp at h
    | fault f => intro h; simp at h

/-- READBITS' loop, packaged as an induction: what every successful bit step keeps holds where the loop
ends, and the loop ends after n bits, at a step that stops, at one that waits, or at a fault. -/
theorem readLoop_ind {P : Nat → Pack → ReaderUnit → Prop}
    (hbit : ∀ k pk r b r', P k pk r → rbStep r = .bit b r' → P (k + 1) (pkPut pk b) r') (n : Nat) :
    ∀ k pk r, P k pk r →
    match readLoop n k pk r with
    | .done st k' pk' r' => (st = .ok ∧ k' = k + n ∧ P k' pk' r') ∨
        (k' < k + n ∧ ∃ r₁, P k' pk' r₁ ∧ rbStep r₁ = .stop st r')
    | .wait m k' pk' r' => 0 < m ∧ m + k' = n + k ∧ P k' pk' r' ∧ rbStep r' = .wait
    | .fault f => ∃ k' pk' r', P k' pk' r' ∧ rbStep r' = .fault f := by
  induction n with
  | zero => intro k pk r h; exact .inl ⟨rfl, rfl, h⟩
  | succ n ih =>
    intro k pk r h
    rw [readLoop]
    cases hs : rbStep r with
    | bit b r' =>
      have := ih (k + 1) (pkPut pk b) r' (hbit _ _ _ _ _ h hs)
      simp only
      cases hl : readLoop n (k + 1) (pkPut pk b) r' with
      | done st k' pk' r₂ =>
        rw [hl] at this
        rcases this with ⟨h₁, h₂, h₃⟩ | ⟨h₁, h₂⟩
        · exact .inl ⟨h₁, by omega, h₃⟩
        · exact .inr ⟨by omega, h₂⟩
      | wait m k' pk' r₂ =>
        rw [hl] at this
        exact ⟨this.1, by omega, this.2.2⟩
      | fault f => rw [hl] at this; exact this
    | stop st r' => exact .inr ⟨by omega, r, h, hs⟩
    | wait => exact ⟨by omega, by omega, h, hs⟩
    | fault f => exact ⟨k, pk, r, h, hs⟩

/-- A bit step reads neither the command in flight nor the responses: it carries them along. -/
theorem rbStep_port (r : ReaderUnit) (t : Option ReaderTask) (p : List Response) :
    rbStep { r with task := t, responses := p } =
      match rbStep r with
      | .bit b r' => .bit b { r' with task := t, responses := p }
      | .stop st r' => .stop st { r' with task := t, responses := p }
      | .wait => .wait
      | .fault f => .fault f := by
  have hc := rbStep_cases r
  revert hc
  generalize hres : rbStep r = res
  intro hc
  cases hc with
  | exhausted he => exact rbStep_exhausted he
  | inside v he hc hv => exact rbStep_inside he hc hv
  | absent he hc hv => exact rbStep_absent he hc hv
  | silent he hc ha => exact rbStep_silent he hc ha
  | byte v rest he hc ha => exact rbStep_byte he hc ha
  | eos rest he hc ha => exact rbStep_eos he hc ha
  | fail e rest he hc ha => exact rbStep_fail he hc ha

/-- READBITS' loop reads neither the command in flight nor the responses: it carries them along. -/
theorem readLoop_port (n : Nat) : ∀ (k : Nat) (pk : Pack) (r : ReaderUnit)
    (t : Option ReaderTask) (p : List Response),
    readLoop n k pk { r with task := t, responses := p } =
      match readLoop n k pk r with
      | .done st k' pk' r' => .done st k' pk' { r' with task := t, responses := p }
      | .wait m k' pk' r' => .wait m k' pk' { r' with task := t, responses := p }
      | .fault f => .fault f := by
  induction n with
  | zero => intro k pk r t p; rfl
  | succ n ih =>
    intro k pk r t p
    rw [readLoop, rbStep_port, readLoop]
    cases rbStep r with
    | bit b r' => exact ih _ _ _ _ _
    | stop st r' => rfl
    | wait => rfl
    | fault f => rfl

end Sys2Proof.Machine
end

