-- ==== Sys2Proof/Laws/Writer.lean ====
section
/-!
SUPPORT. Unit W: what one emission and one bit step can do, said once, and what WRITEBITS' loop does
while the sink accepts what it completes.
-/

namespace Sys2Proof.Machine

/-! ## Emission -/

theorem emit_silent {w : WriterUnit} (h : w.answers = []) : emit w = .wait := by simp [emit, h]

theorem emit_ack {w : WriterUnit} {rest : List SinkAnswer} (h : w.answers = .ack :: rest) :
    emit w = .done .ok
      { w with acc := 0x00, cur := 0, answers := rest, log := w.log ++ [(w.acc, .ack)] } := by
  simp [emit, h, clearByte, offered]

theorem emit_fail {w : WriterUnit} {e : ErrT} {rest : List SinkAnswer}
    (h : w.answers = .fail e :: rest) :
    emit w = .done (.iofail e) { w with
      acc := if w.policy = .hold then w.acc else 0x00
      cur := if w.policy = .hold then w.cur else 0
      answers := rest, log := w.log ++ [(w.acc, .fail e)] } := by
  cases hp : w.policy <;> simp [emit, h, afterReject, offered, clearByte, hp]

/-- Everything one emission can do. -/
inductive EmitCases (w : WriterUnit) : EmitResult → Prop where
  | silent (h : w.answers = []) : EmitCases w .wait
  | ack (rest : List SinkAnswer) (h : w.answers = .ack :: rest) :
      EmitCases w (.done .ok
        { w with acc := 0x00, cur := 0, answers := rest, log := w.log ++ [(w.acc, .ack)] })
  | fail (e : ErrT) (rest : List SinkAnswer) (h : w.answers = .fail e :: rest) :
      EmitCases w (.done (.iofail e) { w with
        acc := if w.policy = .hold then w.acc else 0x00
        cur := if w.policy = .hold then w.cur else 0
        answers := rest, log := w.log ++ [(w.acc, .fail e)] })

theorem emit_cases (w : WriterUnit) : EmitCases w (emit w) := by
  cases h : w.answers with
  | nil => rw [emit_silent h]; exact .silent h
  | cons a rest =>
    cases a with
    | ack => rw [emit_ack h]; exact .ack rest h
    | fail e => rw [emit_fail h]; exact .fail e rest h

/-! ## One bit step -/

theorem wbStep_invalid {x : Int} {w : WriterUnit} (h₀ : x ≠ 0) (h₁ : x ≠ 1) :
    wbStep x w = .done .invalidBit w := by simp [wbStep, h₀, h₁]

@[simp] theorem wbStep_bitInt (b : Bool) (w : WriterUnit) :
    wbStep (bitInt b) w = writeBitAt b w := by cases b <;> simp [wbStep, bitInt]

theorem wbStep_zero (w : WriterUnit) : wbStep 0 w = writeBitAt false w := by simp [wbStep]

theorem wbStep_one (w : WriterUnit) : wbStep 1 w = writeBitAt true w := by simp [wbStep]

theorem writeBitAt_inside {b : Bool} {w : WriterUnit} (h : w.cur ≠ 7) :
    writeBitAt b w = .done .ok { w with acc := setBit w.acc w.cur b, cur := w.cur + 1 } := by
  simp [writeBitAt, h]

theorem writeBitAt_completes {b : Bool} {w : WriterUnit} (h : w.cur = 7) :
    writeBitAt b w = emitStep { w with acc := setBit w.acc 7 b } := by simp [writeBitAt, h]

theorem emitStep_silent {w : WriterUnit} (h : w.answers = []) : emitStep w = .wait w := by
  simp [emitStep, emit_silent h]

theorem emitStep_ack {w : WriterUnit} {rest : List SinkAnswer} (h : w.answers = .ack :: rest) :
    emitStep w = .done .ok
      { w with acc := 0x00, cur := 0, answers := rest, log := w.log ++ [(w.acc, .ack)] } := by
  simp [emitStep, emit_ack h]

theorem emitStep_fail {w : WriterUnit} {e : ErrT} {rest : List SinkAnswer}
    (h : w.answers = .fail e :: rest) :
    emitStep w = .done (.iofail e) { w with
      acc := if w.policy = .hold then w.acc else 0x00
      cur := if w.policy = .hold then w.cur else 0
      answers := rest, log := w.log ++ [(w.acc, .fail e)] } := by
  simp [emitStep, emit_fail h]

/-- Everything one emission at the end of a step can do. -/
inductive EmitStepCases (w : WriterUnit) : WriteResult → Prop where
  | silent (h : w.answers = []) : EmitStepCases w (.wait w)
  | ack (rest : List SinkAnswer) (h : w.answers = .ack :: rest) :
      EmitStepCases w (.done .ok
        { w with acc := 0x00, cur := 0, answers := rest, log := w.log ++ [(w.acc, .ack)] })
  | fail (e : ErrT) (rest : List SinkAnswer) (h : w.answers = .fail e :: rest) :
      EmitStepCases w (.done (.iofail e) { w with
        acc := if w.policy = .hold then w.acc else 0x00
        cur := if w.policy = .hold then w.cur else 0
        answers := rest, log := w.log ++ [(w.acc, .fail e)] })

theorem emitStep_cases (w : WriterUnit) : EmitStepCases w (emitStep w) := by
  cases h : w.answers with
  | nil => rw [emitStep_silent h]; exact .silent h
  | cons a rest =>
    cases a with
    | ack => rw [emitStep_ack h]; exact .ack rest h
    | fail e => rw [emitStep_fail h]; exact .fail e rest h

/-! ## The written bits -/

/-- The positions from the cursor on are 0, as in every byte but one that HOLD kept (R29). -/
def WriterUnit.Clean (w : WriterUnit) : Prop := ∀ q : Position, w.cur ≤ q → bitAt w.acc q = false

/-- The first bits of the accumulator with the bit at the cursor written. -/
theorem take_setBit (v : Byte) (p : Position) (b : Bool) (h : bitAt v p = false) :
    (byteBits (setBit v p b)).take (p.val + 1) = (byteBits v).take p.val ++ [b] := by
  apply List.ext_getElem
  · simp
  · intro i h₁ h₂
    simp only [List.length_append, List.length_take, byteBits_length, List.length_cons,
      List.length_nil] at h₂
    rw [List.getElem_take, byteBits_getElem, bitAt_setBit, List.getElem_append]
    split
    · rename_i hi
      simp only [List.length_take, byteBits_length] at hi
      have : p ≠ ⟨i, by omega⟩ := fun e => by rw [e] at hi; simp at hi
      rw [List.getElem_take, byteBits_getElem]; simp [this]
    · rename_i hi
      simp only [List.length_take, byteBits_length] at hi
      have : p = ⟨i, by omega⟩ := Fin.ext (by simp; omega)
      simp [← this, h]

theorem Clean.inside {w : WriterUnit} {b : Bool} (hc : w.Clean) (h : w.cur ≠ 7) :
    ({ w with acc := setBit w.acc w.cur b, cur := w.cur + 1 } : WriterUnit).Clean := by
  intro q hq
  have hv : (w.cur + 1).val = w.cur.val + 1 := by
    generalize w.cur = p at h; revert p; decide
  have hq' : w.cur.val + 1 ≤ q.val := hv ▸ hq
  have hne : w.cur ≠ q := fun e => by rw [e] at hq'; omega
  simp only [bitAt_setBit]
  simp [hc q (by show w.cur.val ≤ q.val; omega), hne]

/-- A byte completed by bit b, over a clean accumulator: the pending bits and then b. -/
theorem byteBits_completed {w : WriterUnit} {b : Bool} (hc : w.Clean) (h : w.cur = 7) :
    byteBits (setBit w.acc 7 b) = w.pendingBits ++ [b] := by
  have := take_setBit w.acc 7 b (hc 7 (by rw [h]))
  rw [List.take_of_length_le (by simp)] at this
  simpa [WriterUnit.pendingBits, h] using this

/-- What writing a list of bits does to unit W while every byte it completes is accepted. -/
structure Writes (bits : List Bool) (w w' : WriterUnit) : Prop where
  clean : w'.Clean
  written : w'.writtenBits = w.writtenBits ++ bits
  cur : w'.cur.val = (w.cur.val + bits.length) % 8
  answers : w.answers = List.replicate ((w.cur.val + bits.length) / 8) .ack ++ w'.answers
  count : w'.log.length = w.log.length + (w.cur.val + bits.length) / 8
  log : w.log <+: w'.log
  task : w'.task = w.task
  stale : w'.stale = w.stale
  responses : w'.responses = w.responses
  policy : w'.policy = w.policy

theorem Writes.nil {w : WriterUnit} (hc : w.Clean) : Writes [] w w :=
  ⟨hc, by simp, by simp [Nat.mod_eq_of_lt w.cur.isLt], by simp [Nat.div_eq_of_lt w.cur.isLt],
    by simp [Nat.div_eq_of_lt w.cur.isLt], List.prefix_rfl, rfl, rfl, rfl, rfl⟩

theorem Writes.append {w w₁ w₂ : WriterUnit} {as bs : List Bool} (h₁ : Writes as w w₁)
    (h₂ : Writes bs w₁ w₂) : Writes (as ++ bs) w w₂ where
  clean := h₂.clean
  written := by rw [h₂.written, h₁.written, List.append_assoc]
  cur := by rw [h₂.cur, h₁.cur, List.length_append]; omega
  answers := by
    rw [h₁.answers, h₂.answers, ← List.append_assoc, List.replicate_append_replicate, h₁.cur,
      List.length_append]
    congr 2; omega
  count := by rw [h₂.count, h₁.count, h₁.cur, List.length_append]; omega
  log := h₁.log.trans h₂.log
  task := h₂.task.trans h₁.task
  stale := h₂.stale.trans h₁.stale
  responses := h₂.responses.trans h₁.responses
  policy := h₂.policy.trans h₁.policy

/-- One bit step that completes no byte, or whose byte is accepted. -/
theorem writeBitAt_writes {w : WriterUnit} {b : Bool} (hc : w.Clean)
    (h : w.cur = 7 → ∃ rest, w.answers = .ack :: rest) :
    ∃ w', writeBitAt b w = .done .ok w' ∧ Writes [b] w w' := by
  by_cases h7 : w.cur = 7
  · obtain ⟨rest, ha⟩ := h h7
    refine ⟨{ w with acc := 0x00, cur := 0, answers := rest
                     log := w.log ++ [(setBit w.acc 7 b, .ack)] }, ?_, ?_⟩
    · rw [writeBitAt_completes h7, emitStep_ack (by simpa using ha)]
    · refine ⟨fun q _ => by simp, ?_, by simp [h7], by simp [h7, ha], by simp [h7], by simp, rfl,
        rfl, rfl, rfl⟩
      simp only [WriterUnit.writtenBits, WriterUnit.sinkOutput, List.filterMap_append,
        List.filterMap_cons, List.filterMap_nil, acceptedByte_ack, bitsOf_append, bitsOf_cons, bitsOf_nil]
      rw [byteBits_completed hc h7]
      simp [WriterUnit.pendingBits]
  · have hv : (w.cur + 1).val = w.cur.val + 1 := by
      generalize w.cur = p at h7; revert p; decide
    have hlt := (w.cur + 1).isLt
    refine ⟨_, writeBitAt_inside h7, Clean.inside hc h7, ?_, ?_, ?_, ?_, by simp, rfl, rfl, rfl, rfl⟩
    · simp only [WriterUnit.writtenBits, WriterUnit.pendingBits, hv]
      rw [take_setBit _ _ _ (hc _ (le_refl _)), List.append_assoc]
      rfl
    · simp [Fin.val_add]
    · have : (w.cur.val + 1) / 8 = 0 := by omega
      simp [this]
    · have : (w.cur.val + 1) / 8 = 0 := by omega
      simp [this]

/-- Bits i, i+1, … of a buffer, n of them (R54). -/
def bufBits (buf : List Byte) (i n : Nat) : List Bool := (List.range n).map fun k => bufBit buf (i + k)

@[simp] theorem bufBits_length (buf : List Byte) (i n : Nat) : (bufBits buf i n).length = n := by
  simp [bufBits]

theorem bufBits_succ (buf : List Byte) (i n : Nat) :
    bufBits buf i (n + 1) = bufBit buf i :: bufBits buf (i + 1) n := by
  simp only [bufBits, List.range_succ_eq_map, List.map_cons, List.map_map, Nat.add_zero]
  congr 2; funext k; simp [Nat.add_comm, Nat.add_left_comm]

theorem bufBits_zero_eq_take {buf : List Byte} {n : Nat} (h : n ≤ 8 * buf.length) :
    bufBits buf 0 n = (bitsOf buf).take n := by
  apply List.ext_getElem (by simpa using h)
  intro i h₁ h₂
  rw [List.getElem_take, bitsOf_getElem]
  simp [bufBits]

/-- WRITEBITS' loop over `a` of its remaining bits, while every byte they complete is accepted: it
writes them, and goes on. -/
theorem writeLoop_writes {a : Nat} : ∀ {n b j : Nat} {buf : List Byte} {w : WriterUnit},
    w.Clean → (∃ rest, w.answers = List.replicate ((w.cur.val + a) / 8) .ack ++ rest) →
    ∃ w', writeLoop n buf (a + b) j w = writeLoop n buf b (j + a) w' ∧
      Writes (bufBits buf j a) w w' := by
  induction a with
  | zero => intro n b j buf w hc _; exact ⟨w, by simp, Writes.nil hc⟩
  | succ a ih =>
    intro n b j buf w hc ⟨rest, hr⟩
    obtain ⟨w₁, hs, h₁⟩ := writeBitAt_writes (b := bufBit buf j) hc (fun h7 => by
      rw [h7, show ((7 : Position).val + (a + 1)) / 8 = a / 8 + 1 by simp; omega,
        List.replicate_succ, List.cons_append] at hr
      exact ⟨_, hr⟩)
    obtain ⟨w', hl, h₂⟩ := ih (n := n) (b := b) (j := j + 1) (buf := buf) h₁.clean (by
      refine ⟨rest, ?_⟩
      have h := h₁.answers
      rw [hr] at h
      have e : (w.cur.val + (a + 1)) / 8 =
          (w.cur.val + [bufBit buf j].length) / 8 + (w₁.cur.val + a) / 8 := by
        rw [h₁.cur]; simp; omega
      rw [e, ← List.replicate_append_replicate, List.append_assoc] at h
      exact (List.append_cancel_left h).symm)
    refine ⟨w', ?_, ?_⟩
    · rw [show a + 1 + b = (a + b) + 1 by omega, writeLoop, wbStep_bitInt, hs]
      simp only [hl]
      congr 1; omega
    · rw [bufBits_succ]
      exact h₁.append h₂

/-- A bit step of a bit reports OK or IOFAIL, never another status (R141, R144). -/
theorem writeBitAt_status {b : Bool} {w w' : WriterUnit} {st : Status}
    (h : writeBitAt b w = .done st w') : st = .ok ∨ ∃ e, st = .iofail e := by
  by_cases h7 : w.cur = 7
  · rw [writeBitAt_completes h7] at h
    have hc := emitStep_cases { w with acc := setBit w.acc 7 b }
    rw [h] at hc
    cases hc with
    | ack => exact .inl rfl
    | fail e => exact .inr ⟨e, rfl⟩
  · rw [writeBitAt_inside h7] at h
    cases h; exact .inl rfl

/-- WRITEBITS' loop, packaged as an induction: what every bit step answered OK keeps holds where the
loop ends, and the loop ends after m bits, at a step that fails, or at one that waits. -/
theorem writeLoop_ind {P : Nat → WriterUnit → Prop} (n : Nat) (buf : List Byte)
    (hbit : ∀ j w w', P j w → writeBitAt (bufBit buf j) w = .done .ok w' → P (j + 1) w') (m : Nat) :
    ∀ j w, P j w →
    match writeLoop n buf m j w with
    | .done st k w' => (st = exhaustion n buf ∧ k = j + m ∧ P k w') ∨
        (k < j + m ∧ (∃ e, st = .iofail e) ∧
          ∃ w₁, P k w₁ ∧ writeBitAt (bufBit buf k) w₁ = .done st w')
    | .wait k w' => k < j + m ∧ ∃ w₁, P k w₁ ∧ writeBitAt (bufBit buf k) w₁ = .wait w' := by
  induction m with
  | zero => intro j w h; exact .inl ⟨rfl, rfl, h⟩
  | succ m ih =>
    intro j w h
    rw [writeLoop, wbStep_bitInt]
    cases hs : writeBitAt (bufBit buf j) w with
    | wait w' => exact ⟨by omega, w, h, hs⟩
    | done st w' =>
      rcases writeBitAt_status hs with rfl | ⟨e, rfl⟩
      · have := ih (j + 1) w' (hbit _ _ _ h hs)
        simp only
        cases hl : writeLoop n buf m (j + 1) w' with
        | done st k w₂ =>
          rw [hl] at this
          rcases this with ⟨h₁, h₂, h₃⟩ | ⟨h₁, h₂⟩
          · exact .inl ⟨h₁, by omega, h₃⟩
          · exact .inr ⟨by omega, h₂⟩
        | wait k w₂ => rw [hl] at this; exact ⟨by omega, this.2⟩
      · exact .inr ⟨by omega, ⟨e, rfl⟩, w, h, hs⟩

/-- A bit step reads neither the command in flight nor the responses: it carries them along. -/
theorem writeBitAt_port (b : Bool) (w : WriterUnit) (t : Option WriterTask) (p : List Response) :
    writeBitAt b { w with task := t, responses := p } =
      match writeBitAt b w with
      | .done st w' => .done st { w' with task := t, responses := p }
      | .wait w' => .wait { w' with task := t, responses := p } := by
  by_cases h : w.cur = 7
  · rw [writeBitAt_completes (by simpa using h), writeBitAt_completes h]
    have hc := emitStep_cases { w with acc := setBit w.acc 7 b }
    revert hc
    generalize hres : emitStep { w with acc := setBit w.acc 7 b } = res
    intro hc
    cases hc with
    | silent ha => exact emitStep_silent ha
    | ack rest ha => exact emitStep_ack ha
    | fail e rest ha => exact emitStep_fail ha
  · rw [writeBitAt_inside (by simpa using h), writeBitAt_inside h]

/-- WRITEBITS' loop reads neither the command in flight nor the responses: it carries them along. -/
theorem writeLoop_port (n : Nat) (buf : List Byte) (m : Nat) :
    ∀ (j : Nat) (w : WriterUnit) (t : Option WriterTask) (p : List Response),
    writeLoop n buf m j { w with task := t, responses := p } =
      match writeLoop n buf m j w with
      | .done st k w' => .done st k { w' with task := t, responses := p }
      | .wait k w' => .wait k { w' with task := t, responses := p } := by
  induction m with
  | zero => intro j w t p; rfl
  | succ m ih =>
    intro j w t p
    rw [writeLoop, wbStep_bitInt, writeBitAt_port, writeLoop, wbStep_bitInt]
    cases writeBitAt (bufBit buf j) w with
    | done st w' =>
      cases st with
      | ok => exact ih _ _ _ _
      | eos => rfl
      | invalidBit => rfl
      | iofail e => rfl
      | illegalCmd => rfl
    | wait w' => rfl

end Sys2Proof.Machine
end

