-- ==== Sys2Proof/Laws/Steps.lean ====
section
/-!
SUPPORT. What a command, or a command that goes on after an answer, can do to its unit, said once for
each unit; and what an input can do to the block.
-/

namespace Sys2Proof.Machine

/-! ## Unit R -/

/-- n bit steps, each giving a bit. -/
inductive BitChain (r : ReaderUnit) : Nat → ReaderUnit → Prop where
  | refl : BitChain r 0 r
  | snoc {n : Nat} {b : Bool} {r₁ r₂ : ReaderUnit} (h : BitChain r n r₁)
      (hs : rbStep r₁ = .bit b r₂) : BitChain r (n + 1) r₂

/-- What a command of unit R can make of the unit: after some bits it responds, or stops at a step that
gives a status and responds, or stays in flight at a step with no answer. -/
inductive ReaderEnd (r : ReaderUnit) : ReaderUnit → Prop where
  | responds {n : Nat} {r₁ : ReaderUnit} (p : Response) (h : BitChain r n r₁) :
      ReaderEnd r (respondR p r₁)
  | stops {n : Nat} {r₁ r₂ : ReaderUnit} {st : Status} (p : Response) (h : BitChain r n r₁)
      (hs : rbStep r₁ = .stop st r₂) : ReaderEnd r (respondR p r₂)
  | waits {n : Nat} {r₁ : ReaderUnit} (k : ReaderTask) (h : BitChain r n r₁)
      (hs : rbStep r₁ = .wait) : ReaderEnd r { r₁ with task := some k }

/-- Bits use up the answers from the front and leave the mark of an abandoned request alone. -/
theorem BitChain.keeps {r r' : ReaderUnit} {n : Nat} (h : BitChain r n r') :
    r'.stale = r.stale ∧ r'.answers <:+ r.answers := by
  induction h with
  | refl => exact ⟨rfl, List.suffix_rfl⟩
  | @snoc _ _ r₁ _ _ hs ih =>
    have hc := rbStep_cases r₁
    rw [hs] at hc
    cases hc with
    | inside v he hc hv => exact ih
    | byte v rest he hc ha => exact ⟨ih.1, (ha ▸ List.suffix_cons _ _ : rest <:+ r₁.answers).trans ih.2⟩

/-- So does a command of unit R, however it ends. -/
theorem ReaderEnd.keeps {r r' : ReaderUnit} (h : ReaderEnd r r') :
    r'.stale = r.stale ∧ r'.answers <:+ r.answers := by
  cases h with
  | responds p h => exact h.keeps
  | waits k h hs => exact h.keeps
  | @stops _ r₁ _ _ p h hs =>
    have hc := rbStep_cases r₁
    rw [hs] at hc
    cases hc with
    | exhausted he => exact h.keeps
    | eos rest he hc ha =>
      exact ⟨h.keeps.1, (ha ▸ List.suffix_cons _ _ : rest <:+ r₁.answers).trans h.keeps.2⟩
    | fail e rest he hc ha =>
      exact ⟨h.keeps.1, (ha ▸ List.suffix_cons _ _ : rest <:+ r₁.answers).trans h.keeps.2⟩

theorem finishReadbit_end {s t : State} (h : finishReadbit (rbStep s.r) s = .next t) :
    ReaderEnd s.r t.r ∧ t.w = s.w ∧ t.inputs = s.inputs := by
  cases hs : rbStep s.r with
  | bit b r => rw [hs] at h; cases h; exact ⟨.responds _ (.snoc .refl hs), rfl, rfl⟩
  | stop st r => rw [hs] at h; cases h; exact ⟨.stops _ .refl hs, rfl, rfl⟩
  | wait => rw [hs] at h; cases h; exact ⟨.waits _ .refl hs, rfl, rfl⟩
  | fault f => rw [hs] at h; cases h

theorem finishReadbits_end {n k : Nat} {pk : Pack} {s t : State}
    (h : finishReadbits (readLoop n k pk s.r) s = .next t) :
    ReaderEnd s.r t.r ∧ t.w = s.w ∧ t.inputs = s.inputs := by
  have hl := readLoop_ind (P := fun _ _ r => ∃ m, BitChain s.r m r)
    (fun _ _ _ _ _ ⟨m, hm⟩ hs => ⟨m + 1, .snoc hm hs⟩) n k pk s.r ⟨0, .refl⟩
  cases hr : readLoop n k pk s.r with
  | done st k' pk' r' =>
    rw [hr] at h hl; cases h
    rcases hl with ⟨_, _, m, hm⟩ | ⟨_, r₁, ⟨m, hm⟩, hs⟩
    · exact ⟨.responds _ hm, rfl, rfl⟩
    · exact ⟨.stops _ hm hs, rfl, rfl⟩
  | wait m k' pk' r' =>
    rw [hr] at h hl; cases h
    obtain ⟨_, _, ⟨m, hm⟩, hs⟩ := hl
    exact ⟨.waits _ hm hs, rfl, rfl⟩
  | fault f => rw [hr] at h; cases h

theorem whenIdleR_next {s t : State} {act : Host.Outcome State Fault Refusal}
    (h : whenIdleR s act = .next t) : s.r.task = none ∧ act = .next t := by
  unfold whenIdleR at h
  split at h
  · cases h
  · rename_i hi; exact ⟨by simpa using hi, h⟩

theorem whenIdleW_next {s t : State} {act : Host.Outcome State Fault Refusal}
    (h : whenIdleW s act = .next t) : s.w.task = none ∧ act = .next t := by
  unfold whenIdleW at h
  split at h
  · cases h
  · rename_i hi; exact ⟨by simpa using hi, h⟩

/-- A command of unit R that gives a next state. -/
theorem exec_reader_end {i : Instr} {s t : State} (hu : i.unit = .unitR) (h : exec i s = .next t) :
    s.r.task = none ∧ ReaderEnd s.r t.r ∧ t.w = s.w ∧ t.inputs = s.inputs := by
  cases i with
  | readbit =>
    obtain ⟨hi, ha⟩ := whenIdleR_next h
    exact ⟨hi, finishReadbit_end ha⟩
  | readbits n =>
    obtain ⟨hi, ha⟩ := whenIdleR_next h
    refine ⟨hi, ?_⟩
    split at ha
    · cases ha; exact ⟨.responds _ .refl, rfl, rfl⟩
    · exact finishReadbits_end ha
  | writebit x => cases hu
  | writebits n buf => cases hu
  | flush => cases hu
  | flushones => cases hu

/-- A command of unit R that goes on after an answer. -/
theorem resumeReader_end {s t : State} (h : resumeReader s = .next t) :
    (s.r.task = none ∧ t = s) ∨ (ReaderEnd s.r t.r ∧ t.w = s.w ∧ t.inputs = s.inputs) := by
  unfold resumeReader at h
  split at h
  · cases h; exact .inl ⟨‹_›, rfl⟩
  · exact .inr (finishReadbit_end h)
  · exact .inr (finishReadbits_end h)

/-! ## Unit W -/

/-- What unit W keeps through a command: its history grows, its answers are used up from the front, its
parameters stay. -/
structure WriterGrows (w w' : WriterUnit) : Prop where
  log : w.log <+: w'.log
  answers : w'.answers <:+ w.answers
  stale : w'.stale = w.stale
  policy : w'.policy = w.policy
  responses : w'.responses = w.responses

theorem WriterGrows.refl (w : WriterUnit) : WriterGrows w w := ⟨List.prefix_rfl, List.suffix_rfl, rfl, rfl, rfl⟩

theorem WriterGrows.trans {w₁ w₂ w₃ : WriterUnit} (h : WriterGrows w₁ w₂) (h' : WriterGrows w₂ w₃) :
    WriterGrows w₁ w₃ :=
  ⟨h.log.trans h'.log, h'.answers.trans h.answers, h'.stale.trans h.stale, h'.policy.trans h.policy,
    h'.responses.trans h.responses⟩

/-- The unit a write's outcome holds. -/
def WriteResult.unit : WriteResult → WriterUnit
  | .done _ w => w
  | .wait w => w

theorem emitStep_grows (w : WriterUnit) : WriterGrows w (emitStep w).unit := by
  have hc := emitStep_cases w
  revert hc
  generalize emitStep w = res
  intro hc
  cases hc with
  | silent h => exact .refl w
  | ack rest h => exact ⟨List.prefix_append _ _, h ▸ List.suffix_cons _ _, rfl, rfl, rfl⟩
  | fail e rest h => exact ⟨List.prefix_append _ _, h ▸ List.suffix_cons _ _, rfl, rfl, rfl⟩

theorem writeBitAt_grows (b : Bool) (w : WriterUnit) : WriterGrows w (writeBitAt b w).unit := by
  by_cases h : w.cur = 7
  · rw [writeBitAt_completes h]
    have hg : WriterGrows w { w with acc := setBit w.acc 7 b } :=
      ⟨List.prefix_rfl, List.suffix_rfl, rfl, rfl, rfl⟩
    exact hg.trans (emitStep_grows _)
  · rw [writeBitAt_inside h]
    exact ⟨List.prefix_rfl, List.suffix_rfl, rfl, rfl, rfl⟩

/-- What a bit step keeps, from its outcome. -/
theorem writeBitAt_grows_of {b : Bool} {w : WriterUnit} {res : WriteResult}
    (h : writeBitAt b w = res) : WriterGrows w res.unit := h ▸ writeBitAt_grows b w

theorem padWithOnes_grows (w : WriterUnit) : WriterGrows w (padWithOnes w) :=
  ⟨List.prefix_rfl, List.suffix_rfl, rfl, rfl, rfl⟩

/-- The unit a loop's outcome holds. -/
def WriteLoop.unit : WriteLoop → WriterUnit
  | .done _ _ w => w
  | .wait _ w => w

theorem writeLoop_grows (n : Nat) (buf : List Byte) (m j : Nat) (w : WriterUnit) :
    WriterGrows w (writeLoop n buf m j w).unit := by
  have hl := writeLoop_ind (P := fun _ w' => WriterGrows w w') n buf
    (fun j w₁ w₂ hg hs => hg.trans (writeBitAt_grows_of hs))
    m j w (.refl w)
  cases hr : writeLoop n buf m j w with
  | done st k w' =>
    rw [hr] at hl
    rcases hl with ⟨_, _, hg⟩ | ⟨_, _, w₁, hg, hs⟩
    · exact hg
    · exact hg.trans (writeBitAt_grows_of hs)
  | wait k w' =>
    rw [hr] at hl
    obtain ⟨_, w₁, hg, hs⟩ := hl
    exact hg.trans (writeBitAt_grows_of hs)

/-- The end of a command of unit W: a response, or the command left in flight. -/
inductive WriterEnd (w : WriterUnit) : WriterUnit → Prop where
  | responds {w₁ : WriterUnit} (p : Response) (h : WriterGrows w w₁) : WriterEnd w (respondW p w₁)
  | waits {w₁ : WriterUnit} (k : WriterTask) (h : WriterGrows w w₁) :
      WriterEnd w { w₁ with task := some k }

/-- A command of unit W uses up the answers from the front and leaves the mark of an abandoned offer
alone. -/
theorem WriterEnd.keeps {w w' : WriterUnit} (h : WriterEnd w w') :
    w'.stale = w.stale ∧ w'.answers <:+ w.answers := by
  cases h with
  | responds p h => exact ⟨h.stale, h.answers⟩
  | waits k h => exact ⟨h.stale, h.answers⟩

theorem finishWrite_end {k : WriterTask} {res : WriteResult} {s t : State}
    (hg : WriterGrows s.w res.unit) (h : finishWrite k res s = .next t) :
    WriterEnd s.w t.w ∧ t.r = s.r ∧ t.inputs = s.inputs := by
  cases res with
  | done st w => cases h; exact ⟨.responds _ hg, rfl, rfl⟩
  | wait w => cases h; exact ⟨.waits _ hg, rfl, rfl⟩

theorem finishWritebits_end {n : Nat} {buf : List Byte} {res : WriteLoop} {s t : State}
    (hg : WriterGrows s.w res.unit) (h : finishWritebits n buf res s = .next t) :
    WriterEnd s.w t.w ∧ t.r = s.r ∧ t.inputs = s.inputs := by
  cases res with
  | done st k w => cases h; exact ⟨.responds _ hg, rfl, rfl⟩
  | wait j w => cases h; exact ⟨.waits _ hg, rfl, rfl⟩

theorem wbStep_grows (x : Int) (w : WriterUnit) : WriterGrows w (wbStep x w).unit := by
  unfold wbStep
  split
  · exact .refl w
  · exact writeBitAt_grows _ w

/-- A command of unit W that gives a next state. -/
theorem exec_writer_end {i : Instr} {s t : State} (hu : i.unit = .unitW) (h : exec i s = .next t) :
    s.w.task = none ∧ WriterEnd s.w t.w ∧ t.r = s.r ∧ t.inputs = s.inputs := by
  cases i with
  | readbit => cases hu
  | readbits n => cases hu
  | writebit x =>
    obtain ⟨hi, ha⟩ := whenIdleW_next h
    exact ⟨hi, finishWrite_end (wbStep_grows _ _) ha⟩
  | writebits n buf =>
    obtain ⟨hi, ha⟩ := whenIdleW_next h
    refine ⟨hi, ?_⟩
    split at ha
    · cases ha; exact ⟨.responds _ (.refl _), rfl, rfl⟩
    · exact finishWritebits_end (writeLoop_grows _ _ _ _ _) ha
  | flush =>
    obtain ⟨hi, ha⟩ := whenIdleW_next h
    refine ⟨hi, ?_⟩
    split at ha
    · cases ha; exact ⟨.responds _ (.refl _), rfl, rfl⟩
    · exact finishWrite_end (emitStep_grows _) ha
  | flushones =>
    obtain ⟨hi, ha⟩ := whenIdleW_next h
    refine ⟨hi, ?_⟩
    split at ha
    · cases ha; exact ⟨.responds _ (.refl _), rfl, rfl⟩
    · exact finishWrite_end ((padWithOnes_grows _).trans (emitStep_grows _)) ha

theorem writeLoopFrom_grows (n : Nat) (buf : List Byte) (j : Nat) (w : WriterUnit) :
    WriterGrows w (writeLoopFrom n buf j w).unit := by
  have hg := emitStep_grows w
  unfold emitStep at hg
  unfold writeLoopFrom
  cases he : emit w with
  | wait => exact .refl w
  | done st w' =>
    rw [he] at hg
    cases st with
    | ok => exact WriterGrows.trans hg (writeLoop_grows _ _ _ _ _)
    | eos => exact hg
    | invalidBit => exact hg
    | iofail e => exact hg
    | illegalCmd => exact hg

/-- A command of unit W that goes on after an answer. -/
theorem resumeWriter_end {s t : State} (h : resumeWriter s = .next t) :
    (s.w.task = none ∧ t = s) ∨ (WriterEnd s.w t.w ∧ t.r = s.r ∧ t.inputs = s.inputs) := by
  unfold resumeWriter at h
  split at h
  · cases h; exact .inl ⟨‹_›, rfl⟩
  · exact .inr (finishWrite_end (emitStep_grows _) h)
  · exact .inr (finishWritebits_end (writeLoopFrom_grows _ _ _ _) h)
  · exact .inr (finishWrite_end (emitStep_grows _) h)
  · exact .inr (finishWrite_end (emitStep_grows _) h)

/-! ## An input -/

/-- What one input can do to the block, when it gives a next state. -/
inductive InputCases (s : State) : Input → State → Prop where
  | execR {port : UnitId} {c : CommandRecord} {t : State} (i : Instr) (hd : decode port c = .instr i)
      (hu : i.unit = .unitR) (h : exec i s = .next t) : InputCases s (.command port c) t
  | execW {port : UnitId} {c : CommandRecord} {t : State} (i : Instr) (hd : decode port c = .instr i)
      (hu : i.unit = .unitW) (h : exec i s = .next t) : InputCases s (.command port c) t
  | illegalR {port : UnitId} {c : CommandRecord} (hi : s.r.task = none) :
      InputCases s (.command port c)
        { s with r := respondR (mkResponse .illegalCmd false 0 []) s.r }
  | illegalW {port : UnitId} {c : CommandRecord} (hi : s.w.task = none) :
      InputCases s (.command port c)
        { s with w := respondW (mkResponse .illegalCmd false 0 []) s.w }
  | sourceReady {a : SourceAnswer} {t : State} (hst : s.r.stale = false)
      (h : resumeReader { s with r := { s.r with answers := s.r.answers ++ [a] } } = .next t) :
      InputCases s (.sourceAnswer a) t
  | sourceStale {a : SourceAnswer} (hst : s.r.stale = true) :
      InputCases s (.sourceAnswer a) { s with r := { s.r with stale := false } }
  | sinkReady {a : SinkAnswer} {t : State} (hst : s.w.stale = false)
      (h : resumeWriter { s with w := { s.w with answers := s.w.answers ++ [a] } } = .next t) :
      InputCases s (.sinkAnswer a) t
  | sinkStale {a : SinkAnswer} (hst : s.w.stale = true) :
      InputCases s (.sinkAnswer a) { s with w := { s.w with stale := false } }
  | resetR : InputCases s .resetR { s with r := s.r.applyReset }
  | resetW : InputCases s .resetW { s with w := s.w.applyReset }
  | resetBlock : InputCases s .resetBlock { s with r := s.r.applyReset, w := s.w.applyReset }

theorem runInput_cases {x : Input} {s t : State} (h : runInput x s = .next t) :
    InputCases s x t := by
  cases x with
  | command port c =>
    simp only [runInput, receive] at h
    cases hd : decode port c with
    | instr i =>
      rw [hd] at h
      cases hu : i.unit with
      | unitR => exact .execR i hd hu h
      | unitW => exact .execW i hd hu h
    | reject why =>
      rw [hd] at h
      simp only [rejectRecord] at h
      split at h
      · cases port with
        | unitR => obtain ⟨hi, ha⟩ := whenIdleR_next h; cases ha; exact .illegalR hi
        | unitW => obtain ⟨hi, ha⟩ := whenIdleW_next h; cases ha; exact .illegalW hi
      · cases h
  | sourceAnswer a =>
    simp only [runInput, sourceAnswered] at h
    split at h
    · cases h; exact .sourceStale ‹_›
    · exact .sourceReady (Bool.eq_false_of_not_eq_true ‹_›) h
  | sinkAnswer a =>
    simp only [runInput, sinkAnswered] at h
    split at h
    · cases h; exact .sinkStale ‹_›
    · exact .sinkReady (Bool.eq_false_of_not_eq_true ‹_›) h
  | resetR => cases h; exact .resetR
  | resetW => cases h; exact .resetW
  | resetBlock => cases h; exact .resetBlock

/-- What one step can do: nothing, when no input comes; else what the next input does. -/
theorem step_cases {s t : State} (h : step s = .next t) :
    (s.inputs = [] ∧ t = s) ∨
      ∃ x rest, s.inputs = x :: rest ∧ InputCases { s with inputs := rest } x t := by
  cases hs : s.inputs with
  | nil => rw [step_nil hs] at h; cases h; exact .inl ⟨rfl, rfl⟩
  | cons x rest =>
    rw [step_cons hs] at h
    exact .inr ⟨x, rest, rfl, runInput_cases h⟩

end Sys2Proof.Machine
end

