-- ==== Sys2Proof/Tests/Slice0.lean ====
section
/-!
SUPPORT. The model's own tests. Every expected value is the spec's: a vector of spec/95_test_vectors.md
(named in the test), an encoding of spec/30_encoding.md, or the reset table R32. Then, for every
obligation with hypotheses, a concrete state and operands that meet all of them together.
-/

namespace Sys2Proof.Tests

open Sys2Proof Sys2Proof.Machine

/-! ## Helpers -/

/-- An error payload. The vectors of the spec name several; the type may have no other (assumption 2). -/
def e₀ : ErrT := ⟨0, .inl rfl⟩

/-- A block whose unit R has these registers and these source answers ready. -/
def readerAt (cur : Position) (byte : Option Byte) (eos : Bool) (answers : List SourceAnswer) : State :=
  { r := { ReaderUnit.reset with cur := cur, byte := byte, eos := eos, answers := answers }
    w := { WriterUnit.reset with policy := .hold }
    inputs := [] }

/-- A block whose unit W has this policy, these registers and these sink answers ready. -/
def writerAt (policy : SinkFailPolicy) (cur : Position) (acc : Byte) (answers : List SinkAnswer) : State :=
  { r := ReaderUnit.reset
    w := { WriterUnit.reset with cur := cur, acc := acc, answers := answers, policy := policy }
    inputs := [] }

/-- The state with these inputs to come. -/
def withInputs (ins : List Input) (s : State) : State := { s with inputs := ins }

/-- An outcome is a next state that passes a check. -/
def passes (o : Host.Outcome State Fault Refusal) (check : State → Bool) : Bool :=
  match o with
  | .next t => check t
  | .fault _ => false
  | .refused _ => false

/-- An outcome is this refusal. -/
def refusedAs (o : Host.Outcome State Fault Refusal) (w : Refusal) : Bool :=
  match o with
  | .next _ => false
  | .fault _ => false
  | .refused v => v = w

/-- Unit R answered exactly these responses and stands at these registers. -/
def readerIs (responses : List Response) (cur : Position) (byte : Option Byte) (eos : Bool)
    (transactions : Nat) (t : State) : Bool :=
  t.r.responses = responses ∧ t.r.cur = cur ∧ t.r.byte = byte ∧ t.r.eos = eos ∧
    t.r.log.length = transactions

/-- Unit W answered exactly these responses and stands at these registers. -/
def writerIs (responses : List Response) (cur : Position) (acc : Byte) (sink : List Byte)
    (transactions : Nat) (t : State) : Bool :=
  t.w.responses = responses ∧ t.w.cur = cur ∧ t.w.acc = acc ∧ t.w.sinkOutput = sink ∧
    t.w.log.length = transactions

/-! ## WellFormed: each check refuses an ill-formed term -/

theorem long_buffer_refused {buf : List Byte} (h : buf.length = 2 ^ 63) :
    (Instr.writebits 1 buf).wellFormed = false ∧ (AsmLine.writebits 1 buf).wellFormed = false := by
  simp only [Instr.wellFormed, AsmLine.wellFormed, h]; decide

theorem test_wellFormed_refuses_long_buffer :
    (Instr.writebits 1 (List.replicate (2 ^ 63) 0)).wellFormed = false :=
  (long_buffer_refused List.length_replicate).1

theorem test_wellFormed_accepts_buffer : (Instr.writebits 12 [0x92, 0x55]).wellFormed = true := by decide

theorem test_asm_refuses_large_count : (AsmLine.readbits (2 ^ 63)).wellFormed = false := by decide

theorem test_asm_refuses_small_count : (AsmLine.readbits (-2 ^ 63 - 1)).wellFormed = false := by decide

theorem test_asm_refuses_large_bit : (AsmLine.writebit (2 ^ 63)).wellFormed = false := by decide

theorem test_asm_refuses_small_bit : (AsmLine.writebit (-2 ^ 63 - 1)).wellFormed = false := by decide

theorem test_asm_refuses_large_write_count : (AsmLine.writebits (2 ^ 63) []).wellFormed = false := by decide

theorem test_asm_refuses_small_write_count :
    (AsmLine.writebits (-2 ^ 63 - 1) []).wellFormed = false := by decide

theorem test_asm_refuses_long_buffer :
    (AsmLine.writebits 1 (List.replicate (2 ^ 63) 0)).wellFormed = false :=
  (long_buffer_refused List.length_replicate).2

theorem test_asm_accepts_the_least_count : (AsmLine.readbits (-2 ^ 63)).wellFormed = true := by decide

/-! ## Decode: words written out from R71 and R74, and each reject -/

/-- VE9: format N ignores `a` and `len`. -/
theorem test_decode_readbit :
    decode .unitR ⟨0x01_0000000000001234_0000000000000005#136, []⟩ = .instr .readbit := by decide

/-- P2's first line. -/
theorem test_decode_readbits :
    decode .unitR ⟨0x02_0000000000000003_0000000000000000#136, []⟩ = .instr (.readbits 3) := by decide

/-- R73: format A ignores `len` and a payload. -/
theorem test_decode_writebit :
    decode .unitW ⟨0x81_FFFFFFFFFFFFFFFF_0000000000000007#136, [1]⟩ =
      .instr (.writebit 0xFFFFFFFFFFFFFFFF) := by decide

/-- VE10. -/
theorem test_decode_writebits :
    decode .unitW ⟨0x82_000000000000000C_0000000000000002#136, [0x92, 0x55]⟩ =
      .instr (.writebits 12 [0x92, 0x55]) := by decide

theorem test_decode_flush :
    decode .unitW ⟨0x83_0000000000000000_0000000000000000#136, []⟩ = .instr .flush := by decide

theorem test_decode_flushones :
    decode .unitW ⟨0x84_0000000000000000_0000000000000000#136, []⟩ = .instr .flushones := by decide

/-- VE1, VE2. -/
theorem test_decode_refuses_function_zero :
    decode .unitR ⟨packHeader 0x00 0 0, []⟩ = .reject .undefinedFunction ∧
    decode .unitW ⟨packHeader 0x80 0 0, []⟩ = .reject .undefinedFunction := by decide

/-- VE3, VE4. -/
theorem test_decode_refuses_the_other_unit :
    decode .unitR ⟨packHeader 0x81 1 0, []⟩ = .reject .wrongUnit ∧
    decode .unitW ⟨packHeader 0x01 0 0, []⟩ = .reject .wrongUnit := by decide

/-- VE5, VE8. -/
theorem test_decode_refuses_reserved_bits :
    decode .unitR ⟨packHeader 0x11 0 0, []⟩ = .reject .reservedBits ∧
    decode .unitW ⟨packHeader 0xC2 0xC 0, []⟩ = .reject .reservedBits := by decide

/-- VE6, VE7. -/
theorem test_decode_refuses_undefined_functions :
    decode .unitW ⟨packHeader 0x85 0 0, []⟩ = .reject .undefinedFunction ∧
    decode .unitR ⟨packHeader 0x03 0 0, []⟩ = .reject .undefinedFunction := by decide

theorem test_decode_refuses_length_beyond_range :
    decode .unitW ⟨packHeader 0x82 1 0x8000000000000000, []⟩ = .reject .lenOutOfRange := by decide

theorem test_decode_refuses_wrong_payload :
    decode .unitW ⟨packHeader 0x82 8 2, [0x92]⟩ = .reject .payloadLength := by decide

/-- R81: `READBITS -1` gives a = 0xFFFFFFFFFFFFFFFF. -/
theorem test_assemble_negative_count :
    assemble (.readbits (-1)) = ⟨0x02_FFFFFFFFFFFFFFFF_0000000000000000#136, []⟩ := by decide

/-- P5's first line. -/
theorem test_assemble_writebits :
    assemble (.writebits 13 [0xDE, 0xAD]) =
      ⟨0x82_000000000000000D_0000000000000002#136, [0xDE, 0xAD]⟩ := by decide

/-- The six rows of spec/opcode_table.json, at their match values. -/
theorem test_decodeTableWord :
    decodeTableWord 136 0x0100000000000000000000000000000000 = some .readbit ∧
    decodeTableWord 136 0x0200000000000000000000000000000000 = some (.readbits 0) ∧
    decodeTableWord 136 0x8100000000000000000000000000000000 = some (.writebit 0) ∧
    decodeTableWord 136 0x8200000000000000000000000000000000 = some (.writebits 0 []) ∧
    decodeTableWord 136 0x8300000000000000000000000000000000 = some .flush ∧
    decodeTableWord 136 0x8400000000000000000000000000000000 = some .flushones := by decide

theorem test_decodeTableWord_refuses :
    decodeTableWord 136 0x8500000000000000000000000000000000 = none := by decide

/-- The fetched word runs first after reset: WRITEBIT 0 answers OK and moves the cursor. -/
theorem test_withFetchWord_writer :
    passes (step (State.reset.withFetchWord 136 0x8100000000000000000000000000000000))
      (writerIs [⟨0, 0, 0, none, []⟩] 1 0x00 [] 0) = true := by decide

/-- READBIT as the first command asks the source and holds for its answer (R100, R240). -/
theorem test_withFetchWord_reader :
    passes (step (State.reset.withFetchWord 136 0x0100000000000000000000000000000000))
      (fun t => t.r.task = some .readbit ∧ t.r.responses = []) = true := by decide

/-! ## Unit R -/

/-- VR1's first bit: 0xA5 gives 1. -/
theorem test_readbit_fetches :
    passes (exec .readbit (readerAt 0 none false [.byte 0xA5, .eos]))
      (readerIs [⟨0, 1, 0, none, []⟩] 1 (some 0xA5) false 1) = true := by decide

/-- VR6: position 7 wraps the cursor and does not fetch. -/
theorem test_readbit_wraps :
    passes (exec .readbit (readerAt 7 (some 0x01) false [.byte 0xFF]))
      (readerIs [⟨0, 1, 0, none, []⟩] 0 (some 0x01) false 0) = true := by decide

/-- VR7. -/
theorem test_readbits_twelve :
    passes (exec (.readbits 12) (readerAt 0 none false [.byte 0x92, .byte 0x55]))
      (readerIs [⟨0, 0, 12, none, [0x92, 0x50]⟩] 4 (some 0x55) false 2) = true := by decide

/-- VR11's first command: a failure after 8 bits. -/
theorem test_readbits_partial :
    passes (exec (.readbits 12) (readerAt 0 none false [.byte 0xF0, .fail e₀, .byte 0x01]))
      (readerIs [⟨3, 0, 8, some e₀, [0xF0]⟩] 0 (some 0xF0) false 2) = true := by decide

/-! ## Unit W -/

/-- VW3 under HOLD: the completed byte stays, with position 7 set. -/
theorem test_writebit_fails_hold :
    passes (exec (.writebit 1) (writerAt .hold 7 0xAA [.fail e₀, .ack]))
      (writerIs [⟨3, 0, 0, some e₀, []⟩] 7 0xAB [] 1) = true := by decide

/-- VW2: 2^32 + 1 is no bit. -/
theorem test_writebit_invalid :
    passes (exec (.writebit 0x0000000100000001) (writerAt .hold 3 0xA0 []))
      (writerIs [⟨2, 0, 0, none, []⟩] 3 0xA0 [] 0) = true := by decide

/-- VW9 under DROP: the failure is at bit 15. -/
theorem test_writebits_fails_drop :
    passes (exec (.writebits 16 [0x12, 0x34]) (writerAt .drop 0 0x00 [.ack, .fail e₀]))
      (writerIs [⟨3, 0, 15, some e₀, []⟩] 0 0x00 [0x12] 2) = true := by decide

/-- VW10: bits 0,0,0,0,1 complete 0xE1 and 1,1,1 start the next byte. -/
theorem test_writebits_crosses_a_byte :
    passes (exec (.writebits 8 [0x0F]) (writerAt .hold 3 0xE0 [.ack]))
      (writerIs [⟨0, 0, 8, none, []⟩] 3 0xE0 [0xE1] 1) = true := by decide

/-- L1-6's first FLUSH. -/
theorem test_flush_pads_with_zeros :
    passes (exec .flush (writerAt .drop 3 0xA0 [.ack]))
      (writerIs [⟨0, 0, 0, none, []⟩] 0 0x00 [0xA0] 1) = true := by decide

/-- VW17 with FLUSH: a held byte goes out unchanged. -/
theorem test_flush_reoffers_the_held_byte :
    passes (exec .flush (writerAt .hold 7 0x5A [.ack]))
      (writerIs [⟨0, 0, 0, none, []⟩] 0 0x00 [0x5A] 1) = true := by decide

/-- VW16 under HOLD. -/
theorem test_flushones_fails_hold :
    passes (exec .flushones (writerAt .hold 3 0xE0 [.fail e₀]))
      (writerIs [⟨3, 0, 0, some e₀, []⟩] 7 0xFF [] 1) = true := by decide

/-- VW13. -/
theorem test_flushones_pads_with_ones :
    passes (exec .flushones (writerAt .drop 1 0x00 [.ack]))
      (writerIs [⟨0, 0, 0, none, []⟩] 0 0x00 [0x7F] 1) = true := by decide

/-! ## Ports -/

/-- VE3 at the port. -/
theorem test_illegal_command_answered :
    passes (step (withInputs [.command .unitR ⟨packHeader 0x81 1 0, []⟩]
        (readerAt 4 (some 0x55) false [.byte 0x01])))
      (readerIs [⟨4, 0, 0, none, []⟩] 4 (some 0x55) false 0) = true := by decide

theorem test_overlap_refused :
    refusedAs (Sys2Proof.core.run 2 (withInputs
        [.command .unitR ⟨packHeader 0x01 0 0, []⟩, .command .unitR ⟨packHeader 0x01 0 0, []⟩]
        (readerAt 0 none false []))) (.overlappingCommands .unitR) = true := by decide

theorem test_malformed_record_refused :
    refusedAs (step (withInputs [.command .unitW ⟨packHeader 0x82 8 2, [0x92]⟩]
        (writerAt .hold 0 0x00 []))) (.malformedRecord .payloadLength) = true := by decide

/-- VR5: an exhausted unit R, reset, asks again. -/
theorem test_reset_clears_exhaustion :
    passes (Sys2Proof.core.run 2 (withInputs [.resetR, .command .unitR ⟨packHeader 0x01 0 0, []⟩]
        (readerAt 0 none true [.byte 0x00])))
      (readerIs [⟨0, 0, 0, none, []⟩] 1 (some 0x00) false 1) = true := by decide

/-- R240: a READBIT that waits answers when the source does. -/
theorem test_late_answer :
    passes (Sys2Proof.core.run 2 (withInputs
        [.command .unitR ⟨packHeader 0x01 0 0, []⟩, .sourceAnswer (.byte 0x80)]
        (readerAt 0 none false [])))
      (readerIs [⟨0, 1, 0, none, []⟩] 1 (some 0x80) false 1) = true := by decide

/-- R61 across resets: one request is out, so one answer is discarded and the next is the last READBIT's. -/
theorem test_two_resets_discard_one_answer :
    passes (Sys2Proof.core.run 7 (withInputs
        [.command .unitR (encode .readbit), .resetR, .command .unitR (encode .readbit), .resetR,
          .command .unitR (encode .readbit), .sourceAnswer (.byte 0x00), .sourceAnswer (.byte 0x80)]
        (readerAt 0 none false [])))
      (readerIs [⟨0, 1, 0, none, []⟩] 1 (some 0x80) false 1) = true := by decide

/-! ## Witnesses: the hypotheses of every obligation are met together

The name after `witness_` is the obligation's; a suffix names the clause. -/

theorem witness_DecodeOfEncodeIsTheInstruction :
    (Instr.writebits 0x8000000000000000 [0x92, 0x55]).wellFormed = true := by decide

theorem witness_IllegalCommandsAreAnswered :
    (withInputs [.command .unitW ⟨packHeader 0x85 0 0, [7]⟩] (writerAt .drop 7 0xAA [])).busy .unitW = false ∧
    illegalOn .unitW (opField (packHeader 0x85 0 0)) = true := by decide

theorem witness_AssembledLinesReadBack :
    (AsmLine.writebits (-2 ^ 63) [0xFF]).wellFormed = true ∧
    (AsmLine.writebit (2 ^ 63 - 1)).wellFormed = true := by decide

theorem witness_StepRunsTheDecodedCommand :
    (withInputs [.command .unitR ⟨packHeader 0x02 12 9, []⟩] (readerAt 3 (some 0x01) false [])).inputs =
      .command .unitR ⟨packHeader 0x02 12 9, []⟩ :: [] ∧
    decode .unitR ⟨packHeader 0x02 12 9, []⟩ = .instr (.readbits 12) := by decide

theorem witness_BlockHoldsBetweenInputs : State.reset.inputs = [] := rfl

/-- A unit R that waits for its source. -/
def waitingReader : State :=
  { readerAt 0 none false [] with r := { ReaderUnit.reset with task := some .readbit } }

/-- A unit W that waits for its sink. -/
def waitingWriter : State :=
  { writerAt .hold 3 0xA0 [] with
    w := { WriterUnit.reset with cur := 3, acc := 0xA0, policy := .hold, task := some .flush } }

theorem witness_OverlappingCommandsAreRefused :
    (withInputs [.command .unitW ⟨packHeader 0x83 0 0, []⟩] waitingWriter).inputs =
      .command .unitW ⟨packHeader 0x83 0 0, []⟩ :: [] ∧
    (withInputs [.command .unitW ⟨packHeader 0x83 0 0, []⟩] waitingWriter).busy .unitW = true ∧
    (withInputs [.command .unitR ⟨packHeader 0x01 0 0, []⟩] waitingReader).busy .unitR = true := by decide

theorem witness_OneResponsePerCommand_responds :
    exec .flush (writerAt .hold 0 0x00 []) = .next { writerAt .hold 0 0x00 [] with
      w := respondW ⟨0, 0, 0, none, []⟩ (writerAt .hold 0 0x00 []).w } := rfl

theorem witness_OneResponsePerCommand_waits :
    exec .readbit (readerAt 0 none false []) = .next waitingReader := rfl

theorem witness_ResetLinesSetTheRegisters :
    (withInputs [.resetR] waitingReader).inputs = .resetR :: [] ∧
    (withInputs [.resetW] waitingWriter).inputs = .resetW :: [] ∧
    (withInputs [.resetBlock] waitingWriter).inputs = .resetBlock :: [] := by decide

theorem witness_ResetAbandonsTheCommandInFlight_reader :
    (withInputs [.resetR, .sourceAnswer (.byte 1)] waitingReader).inputs =
      .resetR :: .sourceAnswer (.byte 1) :: [] ∧
    (withInputs [.resetR, .sourceAnswer (.byte 1)] waitingReader).r.task.isSome = true ∧
    (withInputs [.resetR, .sourceAnswer (.byte 1)] waitingReader).r.stale = false := by decide

theorem witness_ResetAbandonsTheCommandInFlight_writer :
    (withInputs [.resetW, .sinkAnswer .ack] waitingWriter).inputs = .resetW :: .sinkAnswer .ack :: [] ∧
    (withInputs [.resetW, .sinkAnswer .ack] waitingWriter).w.task.isSome = true ∧
    (withInputs [.resetW, .sinkAnswer .ack] waitingWriter).w.stale = false := by decide

/-- In the middle of a byte, and exhausted. -/
theorem witness_ReaderFetchesAfterReset :
    (withInputs [.resetR, .command .unitR ⟨packHeader 0x01 0 0, []⟩]
        (readerAt 4 (some 0x55) false [.byte 0x80])).inputs =
      .resetR :: .command .unitR ⟨packHeader 0x01 0 0, []⟩ :: [] ∧
    opField (packHeader 0x01 0 0) = 0x01 ∧
    (readerAt 4 (some 0x55) false [.byte 0x80]).r.task = none ∧
    (readerAt 4 (some 0x55) false [.byte 0x80]).r.answers = .byte 0x80 :: [] ∧
    (readerAt 0 (some 0x55) true [.byte 0x80]).r.answers = .byte 0x80 :: [] := by decide

theorem witness_WriterResetDiscardsPendingBits :
    (withInputs [.resetW] (writerAt .hold 7 0xFE [.ack])).inputs = .resetW :: [] ∧
    (withInputs [.resetW] (writerAt .hold 7 0xFE [.ack])).w.task = none := by decide

/-- An ended run, with nothing to come, and with a reset and an answer that no one asked for. -/
theorem witness_EndedRunsStayEnded_ended :
    (writerAt .hold 4 0x50 []).RunEnded ∧
    (withInputs [.resetBlock, .sourceAnswer .eos] (writerAt .hold 4 0x50 [])).RunEnded :=
  ⟨⟨by decide, by decide, by simp [writerAt]⟩, by decide, by decide, by simp [withInputs]⟩

/-- A step that adds a response and a byte to the result. -/
theorem witness_EndedRunsStayEnded_grows :
    passes (step (withInputs [.command .unitW ⟨packHeader 0x83 0 0, []⟩] (writerAt .drop 3 0xA0 [.ack])))
      (fun t => t.result = ⟨[], [⟨0, 0, 0, none, []⟩], [], [0xA0]⟩) = true := by decide

/-- ReadbitResult, its five clauses: exhausted; inside a byte at 1 and 7; at the boundary. -/
theorem witness_ReadbitResult :
    (readerAt 0 (some 0xA5) true []).r.task = none ∧ (readerAt 0 (some 0xA5) true []).r.eos = true ∧
    (readerAt 1 (some 0xA5) false []).r.eos = false ∧ (readerAt 1 (some 0xA5) false []).r.cur ≠ 0 ∧
    (readerAt 7 (some 0xA5) false []).r.cur ≠ 0 ∧
    (readerAt 7 (some 0xA5) false []).r.byte = some 0xA5 ∧
    (readerAt 0 none false [.byte 1]).r.cur = 0 ∧
    (readerAt 0 none false [.byte 1]).r.answers = .byte 1 :: [] ∧
    (readerAt 0 none false [.eos]).r.answers = .eos :: [] ∧
    (readerAt 0 none false [.fail e₀]).r.answers = .fail e₀ :: [] ∧
    opField (packHeader 0x01 0x1234 5) = 0x01 := by decide

theorem witness_AbsentByteReadFaults :
    (readerAt 1 none false []).r.task = none ∧ (readerAt 1 none false []).r.eos = false ∧
    (readerAt 1 none false []).r.cur ≠ 0 ∧ (readerAt 1 none false []).r.byte = none ∧
    0 < sint 1 := by decide

theorem witness_SourceFailureChangesNoRegister :
    (readerAt 0 (some 3) false [.fail e₀, .byte 0x80]).r.task = none ∧
    (readerAt 0 (some 3) false [.fail e₀, .byte 0x80]).r.eos = false ∧
    (readerAt 0 (some 3) false [.fail e₀, .byte 0x80]).r.cur = 0 ∧
    (readerAt 0 (some 3) false [.fail e₀, .byte 0x80]).r.answers = .fail e₀ :: .byte 0x80 :: [] ∧
    0 < sint 0x7FFFFFFFFFFFFFFF := by decide

/-- The ends of the range: 0, -1, and the most negative count. -/
theorem witness_ReadbitsNonPositiveIsNoOp :
    sint 0 ≤ 0 ∧ sint 0xFFFFFFFFFFFFFFFF ≤ 0 ∧ sint 0x8000000000000000 ≤ 0 ∧
    (readerAt 0 none true []).r.task = none := by decide

theorem witness_ExhaustedUntilReset_answers :
    (readerAt 0 (some 0xA5) true [.byte 0]).r.task = none ∧
    (readerAt 0 (some 0xA5) true [.byte 0]).r.eos = true ∧ 0 < sint 1 := by decide

theorem witness_ExhaustedUntilReset_keeps :
    step (withInputs [.resetW] (readerAt 0 none true [])) = .next (readerAt 0 none true []) ∧
    (withInputs [.resetW] (readerAt 0 none true [])).inputs.head? ≠ some .resetR ∧
    (withInputs [.resetW] (readerAt 0 none true [])).inputs.head? ≠ some .resetBlock :=
  ⟨rfl, by decide, by decide⟩

/-- A step that asks and is answered EOS. -/
theorem witness_ExhaustedUntilReset_sets :
    passes (step (withInputs [.command .unitR ⟨packHeader 0x01 0 0, []⟩] (readerAt 0 none false [.eos])))
      (fun t => t.r.log = [] ++ [.eos]) = true ∧ (readerAt 0 none false [.eos]).r.eos = false := by decide

theorem readerAt_inv {cur : Position} {byte : Option Byte} {answers : List SourceAnswer}
    (h : cur ≠ 0 → byte.isSome) : (readerAt cur byte false answers).r.Inv :=
  ⟨h, nofun, trivial, nofun⟩

theorem witness_ReadbitsDeliversTheNextBits :
    (readerAt 5 (some 0x03) false [.byte 0x80]).r.task = none ∧
    (readerAt 5 (some 0x03) false [.byte 0x80]).r.Inv ∧
    (readerAt 5 (some 0x03) false [.byte 0x80]).r.eos = false ∧ 0 < sint 11 ∧
    (11 : Word).toNat ≤ (readerAt 5 (some 0x03) false [.byte 0x80]).r.availableBits.length :=
  ⟨rfl, readerAt_inv (by decide), rfl, by decide, by decide⟩

theorem witness_ReadbitsPartialResult :
    (readerAt 0 none false [.byte 0xF0, .fail e₀, .byte 1]).r.Inv ∧ 0 < sint 12 ∧
    (readerAt 0 none false [.byte 0xF0, .fail e₀, .byte 1]).r.task = none ∧
    (readerAt 0 none false [.byte 0xF0, .fail e₀, .byte 1]).r.eos = false ∧
    (readerAt 0 none false [.byte 0xF0, .fail e₀, .byte 1]).r.availableBits.length < (12 : Word).toNat ∧
    afterLeadingBytes (readerAt 0 none false [.byte 0xF0, .fail e₀, .byte 1]).r.answers =
      .fail e₀ :: [.byte 1] ∧
    afterLeadingBytes (readerAt 0 none false [.byte 0xF0, .eos]).r.answers = .eos :: [] :=
  ⟨readerAt_inv (by decide), by decide, rfl, rfl, by decide, by decide, by decide⟩

theorem witness_ReadbitsWaitsForTheSource :
    (readerAt 0 none false [.byte 0xF0]).r.Inv ∧ 0 < sint 9 ∧
    (readerAt 0 none false [.byte 0xF0]).r.task = none ∧
    (readerAt 0 none false [.byte 0xF0]).r.eos = false ∧
    (readerAt 0 none false [.byte 0xF0]).r.availableBits.length < (9 : Word).toNat ∧
    afterLeadingBytes (readerAt 0 none false [.byte 0xF0]).r.answers = [] :=
  ⟨readerAt_inv (by decide), by decide, rfl, rfl, by decide, by decide⟩

theorem witness_UnansweredCommandsHold :
    (readerAt 0 none false []).inputs = [] ∧ (readerAt 0 none false []).r.task = none ∧
    (readerAt 0 none false []).r.answers = [] ∧
    (writerAt .drop 7 0xAA []).inputs = [] ∧ (writerAt .drop 7 0xAA []).w.task = none ∧
    (writerAt .drop 7 0xAA []).w.cur = 7 ∧ (writerAt .drop 7 0xAA []).w.answers = [] ∧
    (writerAt .hold 1 0x80 []).w.cur ≠ 0 ∧ (writerAt .hold 1 0x80 []).w.answers = [] ∧
    0 < sint 1 := by decide

/-- A command of each form that waits: unit R at the boundary, unit W at position 7. -/
theorem witness_UnansweredCommandsHold_every_form :
    [Instr.readbit, .readbits 9, .writebit 0, .writebit 1, .writebits 9 [0x5A], .flush, .flushones].all
      (fun i => passes (exec i (writerAt .hold 7 0xAA [])) (fun t => t.busy i.unit)) = true := by decide

theorem witness_LateAnswersGiveTheSameResult :
    Instr.readbit.unit = .unitR ∧ Instr.flush.unit = .unitW ∧
    exec .readbit (readerAt 0 none false []) = .next waitingReader ∧ waitingReader.r.task.isSome ∧
    (readerAt 0 none false []).r.stale = false ∧
    exec .flush (writerAt .hold 3 0xA0 []) = .next waitingWriter ∧ waitingWriter.w.task.isSome ∧
    (writerAt .hold 3 0xA0 []).w.stale = false := ⟨rfl, rfl, rfl, rfl, rfl, rfl, rfl, rfl⟩

/-- The other forms, the bulk ones after a first answered transaction. -/
theorem witness_LateAnswersGiveTheSameResult_every_form :
    passes (exec (.readbits 16) (readerAt 0 none false [.byte 0xA5])) (fun t => t.r.task.isSome) = true ∧
    passes (exec (.writebit 0) (writerAt .hold 7 0xAA [])) (fun t => t.w.task.isSome) = true ∧
    passes (exec (.writebits 16 [0x12, 0x34]) (writerAt .drop 0 0x00 [.ack]))
      (fun t => t.w.task.isSome) = true ∧
    passes (exec .flushones (writerAt .drop 3 0xA0 [])) (fun t => t.w.task.isSome) = true ∧
    (readerAt 0 none false [.byte 0xA5]).r.stale = false ∧ (writerAt .drop 0 0x00 [.ack]).w.stale = false := by
  decide

/-- Three READBITs that return OK (VR10's source), then one that is answered EOS. -/
theorem witness_ReadbitsIsRepeatedReadbit :
    passes (execAll (List.replicate 3 .readbit) (readerAt 5 (some 0x03) false [.eos]))
      (fun t => t.r.responses = [false, true, true].map (fun b => ⟨0, BitVec.ofBool b, 0, none, []⟩) ∧
        t.r.task = none ∧
        passes (exec .readbit t) (fun u => u.r.responses = t.r.responses ++ [⟨1, 0, 0, none, []⟩])) =
      true ∧ 0 < sint 3 ∧ 3 ≤ (3 : Word).toNat ∧ 3 < (4 : Word).toNat := by decide

theorem witness_ReadbitsTransactionCount :
    (readerAt 4 (some 0x55) false [.byte 0x80]).r.task = none ∧
    (readerAt 4 (some 0x55) false [.byte 0x80]).r.eos = false ∧
    (readerAt 4 (some 0x55) false [.byte 0x80]).r.Inv ∧
    (readerAt 4 (some 0x55) false [.byte 0x80, .eos]).r.Inv ∧ 0 < sint 6 ∧ 0 < sint 13 ∧
    passes (exec (.readbits 6) (readerAt 4 (some 0x55) false [.byte 0x80]))
      (fun t => t.r.responses = [] ++ [⟨0, 0, 6, none, [0x58]⟩]) = true ∧
    passes (exec (.readbits 13) (readerAt 4 (some 0x55) false [.byte 0x80, .eos]))
      (fun t => t.r.responses = [] ++ [⟨1, 0, 12, none, [0x58, 0x00]⟩]) = true :=
  ⟨rfl, rfl, readerAt_inv (by decide), readerAt_inv (by decide), by decide, by decide, by decide,
    by decide⟩

/-- The empty list and a list of two bytes. -/
theorem witness_ReaderRoundTrip :
    8 * ([0xA5, 0x3C] : List Byte).length < 2 ^ 63 ∧
    (readerAt 0 none false ([0xA5, 0x3C].map .byte ++ [.eos])).r =
      { ReaderUnit.reset with answers := [0xA5, 0x3C].map .byte ++ [.eos] } ∧
    (readerAt 0 none false (([] : List Byte).map .byte ++ [.eos])).r =
      { ReaderUnit.reset with answers := ([] : List Byte).map .byte ++ [.eos] } := by decide

theorem witness_EmissionProcedure :
    (writerAt .hold 7 0xAB []).w.answers = [] ∧ (writerAt .hold 7 0xAB [.ack]).w.answers = .ack :: [] ∧
    (writerAt .hold 7 0xAB [.fail e₀]).w.answers = .fail e₀ :: [] ∧
    (writerAt .hold 7 0xAB [.fail e₀]).w.policy = .hold ∧
    (writerAt .drop 7 0xAB [.fail e₀]).w.answers = .fail e₀ :: [] ∧
    (writerAt .drop 7 0xAB [.fail e₀]).w.policy = .drop := by decide

/-- Both bits, at positions 0, 6 and 7, with each answer of the sink. -/
theorem witness_WritebitResult :
    (writerAt .hold 0 0x00 []).w.task = none ∧ ((0 : Word) = 0 ∨ (0 : Word) = 1) ∧
    ((1 : Word) = 0 ∨ (1 : Word) = 1) ∧ (writerAt .hold 0 0x00 []).w.cur ≠ 7 ∧
    (writerAt .hold 6 0x00 []).w.cur ≠ 7 ∧ (writerAt .hold 7 0xAA [.ack]).w.cur = 7 ∧
    (writerAt .hold 7 0xAA [.ack]).w.answers = .ack :: [] ∧
    (writerAt .drop 7 0xAA [.fail e₀]).w.answers = .fail e₀ :: [] ∧
    sint 2 ≠ 0 ∧ sint 2 ≠ 1 ∧ opField (packHeader 0x81 1 0) = 0x81 := by decide

/-- 2, -1, the most negative integer, and 2^32 + 1 (VW2). -/
theorem witness_WritebitValidatesFirst :
    (sint 2 ≠ 0 ∧ sint 2 ≠ 1) ∧ (sint 0xFFFFFFFFFFFFFFFF ≠ 0 ∧ sint 0xFFFFFFFFFFFFFFFF ≠ 1) ∧
    (sint 0x8000000000000000 ≠ 0 ∧ sint 0x8000000000000000 ≠ 1) ∧
    (sint 0x0000000100000001 ≠ 0 ∧ sint 0x0000000100000001 ≠ 1) ∧
    (writerAt .hold 3 0xA0 []).w.task = none := by decide

theorem witness_WritebitsNonPositiveIsNoOp :
    sint 0 ≤ 0 ∧ sint 0xFFFFFFFFFFFFFFFB ≤ 0 ∧ sint 0x8000000000000000 ≤ 0 ∧
    (writerAt .hold 7 0xAB []).w.task = none := by decide

/-- A whole buffer, and a buffer too short (VW10, VW7). -/
theorem witness_WritebitsAppendsTheBufferBits :
    (writerAt .hold 3 0xE0 [.ack]).w.task = none ∧
    (∀ q : Position, (writerAt .hold 3 0xE0 [.ack]).w.cur ≤ q →
      bitAt (writerAt .hold 3 0xE0 [.ack]).w.acc q = false) ∧
    0 < sint 8 ∧ 0 < sint 20 ∧
    (writerAt .hold 3 0xE0 [.ack]).w.answers =
      List.replicate ((3 + min (8 : Word).toNat (8 * ([0x0F] : List Byte).length)) / 8) .ack ++ [] ∧
    (writerAt .drop 0 0x00 [.ack]).w.answers =
      List.replicate ((0 + min (20 : Word).toNat (8 * ([0xAB] : List Byte).length)) / 8) .ack ++ [] := by
  decide

/-- VW9, and the first byte already refused. -/
theorem witness_WritebitsStopsAtTheFirstFailure :
    (writerAt .hold 0 0x00 [.ack, .fail e₀]).w.task = none ∧
    (∀ q : Position, (writerAt .hold 0 0x00 [.ack, .fail e₀]).w.cur ≤ q →
      bitAt (writerAt .hold 0 0x00 [.ack, .fail e₀]).w.acc q = false) ∧ 0 < sint 16 ∧
    (writerAt .hold 0 0x00 [.ack, .fail e₀]).w.answers = List.replicate 1 .ack ++ .fail e₀ :: [] ∧
    8 * 1 + 8 ≤ 0 + min (16 : Word).toNat (8 * ([0x12, 0x34] : List Byte).length) ∧
    (writerAt .drop 0 0x00 [.fail e₀]).w.answers = List.replicate 0 .ack ++ .fail e₀ :: [] ∧
    8 * 0 + 8 ≤ 0 + min (8 : Word).toNat (8 * ([0x5A] : List Byte).length) := by decide

theorem witness_WritebitsWaitsForTheSink :
    (writerAt .hold 0 0x00 [.ack]).w.task = none ∧
    (∀ q : Position, (writerAt .hold 0 0x00 [.ack]).w.cur ≤ q →
      bitAt (writerAt .hold 0 0x00 [.ack]).w.acc q = false) ∧ 0 < sint 16 ∧
    (writerAt .hold 0 0x00 [.ack]).w.answers = List.replicate 1 .ack ∧
    8 * 1 + 8 ≤ 0 + min (16 : Word).toNat (8 * ([0x12, 0x34] : List Byte).length) := by decide

/-- All of a buffer too short; and the failure of bit 7 over a held byte's predecessor bits (P4). -/
theorem witness_WritebitsIsRepeatedWritebit :
    passes (execAll ((List.range 8).map fun j => .writebit (if bufBit [0xAB] j then 1 else 0))
        (writerAt .hold 0 0x00 [.ack]))
      (fun t => t.w.responses = [] ++ List.replicate 8 ⟨0, 0, 0, none, []⟩ ∧ t.w.task = none) = true ∧
    passes (execAll ((List.range 7).map fun j => .writebit (if bufBit [0x5A] j then 1 else 0))
        (writerAt .hold 0 0x00 [.fail e₀]))
      (fun t => t.w.responses = [] ++ List.replicate 7 ⟨0, 0, 0, none, []⟩ ∧ t.w.task = none ∧
        passes (exec (.writebit (if bufBit [0x5A] 7 then 1 else 0)) t)
          (fun u => u.w.responses = t.w.responses ++ [⟨3, 0, 0, some e₀, []⟩])) = true ∧
    0 < sint 20 ∧ 8 ≤ min (20 : Word).toNat (8 * ([0xAB] : List Byte).length) ∧
    7 < min (8 : Word).toNat (8 * ([0x5A] : List Byte).length) := by decide

theorem witness_FlushResult :
    (writerAt .hold 0 0x00 []).w.task = none ∧ (writerAt .hold 0 0x00 []).w.cur = 0 ∧
    (writerAt .hold 1 0x80 [.ack]).w.cur ≠ 0 ∧ (writerAt .hold 1 0x80 [.ack]).w.answers = .ack :: [] ∧
    (writerAt .drop 7 0x80 [.fail e₀]).w.cur ≠ 0 ∧
    (writerAt .drop 7 0x80 [.fail e₀]).w.answers = .fail e₀ :: [] ∧
    opField (packHeader 0x83 9 9) = 0x83 := by decide

/-- The zero padding: inside a byte under HOLD, and at position 7 under DROP. -/
theorem witness_FlushResult_padding :
    ((writerAt .hold 1 0x80 [.ack]).w.cur ≠ 7 ∨ (writerAt .hold 1 0x80 [.ack]).w.policy = .drop) ∧
    (writerAt .hold 1 0x80 [.ack]).w.Inv ∧
    ((writerAt .drop 7 0x80 [.fail e₀]).w.cur ≠ 7 ∨ (writerAt .drop 7 0x80 [.fail e₀]).w.policy = .drop) ∧
    (writerAt .drop 7 0x80 [.fail e₀]).w.Inv ∧
    passes (exec .flush (writerAt .hold 1 0x80 [.ack])) (fun t => t.w.log = [] ++ [(0x80, .ack)]) = true ∧
    passes (exec .flush (writerAt .drop 7 0x80 [.fail e₀]))
      (fun t => t.w.log = [] ++ [(0x80, .fail e₀)]) = true :=
  ⟨by decide, ⟨by decide, by decide, trivial, nofun⟩, by decide, ⟨by decide, by decide, trivial, nofun⟩, by decide,
    by decide⟩

theorem witness_FlushonesResult :
    (writerAt .hold 0 0x00 []).w.task = none ∧ (writerAt .hold 0 0x00 []).w.cur = 0 ∧
    (writerAt .hold 1 0x80 [.ack]).w.cur ≠ 0 ∧ (writerAt .hold 1 0x80 [.ack]).w.answers = .ack :: [] ∧
    (writerAt .hold 7 0x5A [.fail e₀]).w.cur ≠ 0 ∧
    (writerAt .hold 7 0x5A [.fail e₀]).w.answers = .fail e₀ :: [] ∧
    opField (packHeader 0x84 9 9) = 0x84 := by decide

/-- One command that emits and one that does not; and a reset. -/
theorem witness_EmissionCondition :
    Instr.flush.unit = .unitW ∧ exec .flush (writerAt .hold 3 0xA0 []) = .next waitingWriter ∧
    step (withInputs [.resetW] (writerAt .hold 3 0xA0 [])) = .next (writerAt .hold 0 0x00 []) :=
  ⟨rfl, rfl, rfl⟩

theorem witness_FlushIsIdempotent :
    passes (exec .flush (writerAt .hold 3 0xA0 [.ack]))
      (fun t => t.w.responses = [] ++ [⟨0, 0, 0, none, []⟩]) = true := by decide

theorem witness_FlushonesIsRepeatedWritebitOne :
    (writerAt .hold 1 0x80 [.fail e₀]).w.task = none ∧ (writerAt .hold 1 0x80 [.fail e₀]).w.cur ≠ 0 ∧
    (writerAt .drop 7 0x5A []).w.cur ≠ 0 := by decide

/-- Three bits, eight bits and none. -/
theorem witness_WriterRoundTrip :
    (writerAt .hold 0 0x00 [.ack]).w.task = none ∧ (writerAt .hold 0 0x00 [.ack]).w.cur = 0 ∧
    (writerAt .hold 0 0x00 [.ack]).w.acc = 0x00 ∧ (writerAt .hold 0 0x00 [.ack]).w.log = [] ∧
    (writerAt .hold 0 0x00 [.ack]).w.answers =
      List.replicate (([true, false, true].length + 7) / 8) .ack ∧
    (writerAt .hold 0 0x00 [.ack]).w.answers =
      List.replicate (((List.replicate 8 true).length + 7) / 8) .ack ∧
    (writerAt .hold 0 0x00 []).w.answers = List.replicate ((([] : List Bool).length + 7) / 8) .ack := by
  decide

theorem witness_WrittenStreamReadsBack :
    (writerAt .hold 0 0x00 [.ack]).r = ReaderUnit.reset ∧ 0 < sint 3 ∧
    (writerAt .hold 0 0x00 [.ack]).w.task = none ∧ (writerAt .hold 0 0x00 [.ack]).w.cur = 0 ∧
    (writerAt .hold 0 0x00 [.ack]).w.acc = 0x00 ∧ (writerAt .hold 0 0x00 [.ack]).w.log = [] ∧
    [true, false, true].length = (3 : Word).toNat ∧
    (writerAt .hold 0 0x00 [.ack]).w.answers =
      List.replicate (([true, false, true].length + 7) / 8) .ack ∧
    passes (execAll ([true, false, true].map (fun b => .writebit (if b then 1 else 0)) ++ [.flush])
      (writerAt .hold 0 0x00 [.ack])) (fun _ => true) = true := by decide

theorem witness_StepKeepsTheInvariants :
    waitingWriter.Inv ∧ step (withInputs [.sinkAnswer .ack] waitingWriter) =
      .next { waitingWriter with
        w := { WriterUnit.reset with policy := .hold, log := [(0xA0, .ack)]
                                     responses := [⟨0, 0, 0, none, []⟩] } } :=
  ⟨⟨⟨by decide, by decide, trivial, nofun⟩, by decide, by decide, ⟨rfl, by decide⟩, nofun⟩, rfl⟩

theorem witness_NoRunReadsAnAbsentByte : (readerAt 4 (some 0x55) false [.byte 1]).Inv :=
  ⟨readerAt_inv (by decide), by decide, by decide, trivial, nofun⟩

theorem witness_IdleUnitsTakeEveryCommand :
    (readerAt 4 (some 0x55) false []).Inv ∧
    (readerAt 4 (some 0x55) false []).busy (Instr.readbits 100).unit = false ∧
    (readerAt 4 (some 0x55) false []).busy (Instr.writebits 9 [1]).unit = false :=
  ⟨⟨readerAt_inv (by decide), by decide, by decide, trivial, nofun⟩, rfl, rfl⟩

theorem witness_AnswersAndResetsNeverStopTheBlock :
    (withInputs [.resetR, .sourceAnswer .eos, .sinkAnswer (.fail e₀)]
      (readerAt 4 (some 0x55) false [])).Inv ∧
    ∀ port c, Input.command port c ∉ (withInputs [.resetR, .sourceAnswer .eos, .sinkAnswer (.fail e₀)]
      (readerAt 4 (some 0x55) false [])).inputs :=
  ⟨⟨readerAt_inv (by decide), by decide, by decide, trivial, nofun⟩, by simp [withInputs]⟩

theorem witness_UnitsShareNoState :
    Instr.readbit.unit = .unitR ∧ exec .readbit (readerAt 0 none false []) = .next waitingReader ∧
    Instr.flush.unit = .unitW ∧ exec .flush (writerAt .hold 3 0xA0 []) = .next waitingWriter :=
  ⟨rfl, rfl, rfl, rfl⟩

theorem witness_CommandsOfTwoUnitsCommute :
    Instr.readbit.unit = .unitR ∧ Instr.flush.unit = .unitW ∧
    passes (exec .readbit (writerAt .hold 3 0xA0 [.ack])) (fun _ => true) = true ∧
    passes (exec .flush (writerAt .hold 3 0xA0 [.ack])) (fun _ => true) = true := by decide

theorem witness_HistoryOnlyGrows :
    passes (step (withInputs [.command .unitW ⟨packHeader 0x83 0 0, []⟩] (writerAt .drop 3 0xA0 [.ack])))
      (fun t => t.w.log = [(0xA0, .ack)]) = true := by decide

theorem witness_ResponsesAreWellShaped :
    (withInputs [.command .unitR ⟨packHeader 0x02 12 0, []⟩]
      (readerAt 0 none false [.byte 0xF0, .fail e₀])).Inv ∧
    passes (step (withInputs [.command .unitR ⟨packHeader 0x02 12 0, []⟩]
        (readerAt 0 none false [.byte 0xF0, .fail e₀])))
      (fun t => t.r.responses = [] ++ [⟨3, 0, 8, some e₀, [0xF0]⟩]) = true ∧
    passes (step (withInputs [.command .unitW ⟨packHeader 0x81 2 0, []⟩] (writerAt .hold 0 0x00 [])))
      (fun t => t.w.responses = [] ++ [⟨2, 0, 0, none, []⟩]) = true :=
  ⟨⟨readerAt_inv (by decide), by decide, by decide, trivial, nofun⟩, by decide, by decide⟩

theorem witness_SingleBitCommandsMakeAtMostOneTransaction :
    passes (exec .readbit (readerAt 0 none false [.byte 1])) (fun _ => true) = true ∧
    passes (exec (.writebit 1) (writerAt .hold 7 0xAA [.ack])) (fun _ => true) = true := by decide

/-- An answer that joins, one that is used at once, and one that is discarded. -/
theorem witness_AnswersAreUsedOnceInOrder :
    passes (step (withInputs [.sourceAnswer .eos] (readerAt 4 (some 1) false [.byte 2])))
      (fun t => t.r.log ++ t.r.answers = [.byte 2, .eos]) = true ∧
    passes (step (withInputs [.sinkAnswer .ack] waitingWriter))
      (fun t => t.w.log = [(0xA0, .ack)] ∧ t.w.answers = []) = true ∧
    passes (Sys2Proof.core.run 2 (withInputs [.resetW, .sinkAnswer .ack] waitingWriter))
      (fun t => t.w.log = [] ∧ t.w.answers = [] ∧ t.w.sinkOutput = []) = true := by decide

/-- Two readings and two writings abandoned before the block answers one of them. -/
theorem witness_OneTransactionInFlightAcrossResets :
    0 < 2 ∧ (readerAt 0 none false []).r.task = none ∧ (readerAt 0 none false []).r.eos = false ∧
    (readerAt 0 none false []).r.cur = 0 ∧ (readerAt 0 none false []).r.answers = [] ∧
    (withInputs [.command .unitR (encode .readbit), .resetR, .command .unitR (encode .readbit), .resetR,
        .command .unitR (encode .readbit), .sourceAnswer .eos, .sourceAnswer (.byte 0x80)]
        (readerAt 0 none false [])).inputs =
      (List.replicate 2 [.command .unitR (encode .readbit), .resetR]).flatten ++
        [.command .unitR (encode .readbit), .sourceAnswer .eos, .sourceAnswer (.byte 0x80)] ++ [] ∧
    (writerAt .hold 0 0x00 []).w.task = none ∧ (writerAt .hold 0 0x00 []).w.cur = 0 ∧
    (writerAt .hold 0 0x00 []).w.acc = 0x00 ∧ (writerAt .hold 0 0x00 []).w.answers = [] ∧
    (withInputs [.command .unitW (encode (.writebits 8 [1])), .resetW,
        .command .unitW (encode (.writebits 8 [0xA5])), .sinkAnswer (.fail e₀), .sinkAnswer .ack]
        (writerAt .hold 0 0x00 [])).inputs =
      (List.replicate 1 [.command .unitW (encode (.writebits 8 [1])), .resetW]).flatten ++
        [.command .unitW (encode (.writebits 8 [0xA5])), .sinkAnswer (.fail e₀), .sinkAnswer .ack] ++ [] := by
  decide

end Sys2Proof.Tests
end

/-!
PROOFS. The statements of 10_state.md: the registers after reset (R32), and the exhausted flag `r_eos`
(R23), followed through bit steps, commands and inputs by one relation between unit R before and after.
-/

namespace Sys2Proof.Machine

/-! ## After reset -/

/-- Settles O10: the reset state is written out with the values of R32. -/
theorem registersAfterReset : Obligations.RegistersAfterReset := by
  unfold Obligations.RegistersAfterReset
  exact ⟨rfl, rfl, rfl, rfl, rfl, rfl, rfl, rfl⟩

/-! ## Commands to an exhausted unit R -/

/-- An idle unit R takes the command (R70). -/
theorem whenIdleR_idle {s : State} (h : s.r.task = none)
    (act : Host.Outcome State Fault Refusal) : whenIdleR s act = act := by
  simp [whenIdleR, h]

/-- An idle unit R that responds does nothing but deliver the response. -/
theorem respondR_idle {s : State} (h : s.r.task = none) (p : Response) :
    { s with r := respondR p s.r } = deliver .unitR p s := by
  simp only [respondR, deliver, ← h]

theorem Pack.finish_empty : Pack.empty.finish = [] := rfl

/-- READBITS' loop stops before its first bit when the source has ended. -/
theorem readLoop_exhausted {r : ReaderUnit} (h : r.eos = true) {n : Nat} (hn : 0 < n) (k : Nat)
    (pk : Pack) : readLoop n k pk r = .done .eos k pk r := by
  obtain ⟨m, rfl⟩ := Nat.exists_eq_add_of_lt hn
  simp [readLoop, rbStep_exhausted h]

theorem exec_readbit_exhausted {s : State} (hi : s.r.task = none) (he : s.r.eos = true) :
    exec .readbit s = .next (deliver .unitR (mkResponse .eos false 0 []) s) := by
  rw [← respondR_idle hi]
  simp only [exec, execReadbit, whenIdleR_idle hi, rbStep_exhausted he, finishReadbit]

theorem exec_readbits_exhausted {s : State} {n : Word} (hi : s.r.task = none)
    (he : s.r.eos = true) (hn : 0 < sint n) :
    exec (.readbits n) s = .next (deliver .unitR (mkResponse .eos false 0 []) s) := by
  have hl := readLoop_exhausted he (n := (sint n).toNat) (by omega) 0 Pack.empty
  rw [← respondR_idle hi]
  simp only [exec, execReadbits, whenIdleR_idle hi, if_neg (not_le.2 hn), hl, finishReadbits,
    Pack.finish_empty]

/-! ## The source's answers and the exhausted flag -/

/-- Unit R logs some further answers of the source: none when it was exhausted already, and it ends
exhausted when it was so before or one of them is EOS (R23). -/
def AsksUntilEos (r r' : ReaderUnit) : Prop :=
  ∃ l, r'.log = r.log ++ l ∧ (r.eos = true → l = []) ∧ (r'.eos = true ↔ r.eos = true ∨ .eos ∈ l)

/-- A unit that logs nothing and keeps the flag. -/
theorem AsksUntilEos.of_same {r r' : ReaderUnit} (hl : r'.log = r.log) (he : r'.eos = r.eos) :
    AsksUntilEos r r' :=
  ⟨[], by simp [hl], fun _ => rfl, by simp [he]⟩

/-- A unit that is not exhausted and logs one answer. -/
theorem AsksUntilEos.of_answer {r r' : ReaderUnit} {a : SourceAnswer} (he : r.eos = false)
    (hl : r'.log = r.log ++ [a]) (he' : r'.eos = true ↔ a = .eos) : AsksUntilEos r r' :=
  ⟨[a], hl, by simp [he], by simp [he, he', eq_comm]⟩

theorem AsksUntilEos.trans {r₁ r₂ r₃ : ReaderUnit} (h : AsksUntilEos r₁ r₂)
    (h' : AsksUntilEos r₂ r₃) : AsksUntilEos r₁ r₃ := by
  obtain ⟨l, hl, hn, he⟩ := h
  obtain ⟨l', hl', hn', he'⟩ := h'
  refine ⟨l ++ l', by rw [hl', hl, List.append_assoc], fun h => ?_, ?_⟩
  · rw [hn h, hn' (he.2 (.inl h)), List.append_nil]
  · rw [he', he, List.mem_append, or_assoc]

theorem AsksUntilEos.of_bit {r r' : ReaderUnit} {b : Bool} (hs : rbStep r = .bit b r') :
    AsksUntilEos r r' := by
  have hc := rbStep_cases r
  rw [hs] at hc
  cases hc with
  | inside v he hc hv => exact .of_same rfl rfl
  | byte v rest he hc ha => exact .of_answer he rfl (by simp [he])

theorem AsksUntilEos.of_stop {r r' : ReaderUnit} {st : Status} (hs : rbStep r = .stop st r') :
    AsksUntilEos r r' := by
  have hc := rbStep_cases r
  rw [hs] at hc
  cases hc with
  | exhausted he => exact .of_same rfl rfl
  | eos rest he hc ha => exact .of_answer he rfl (by simp)
  | fail e rest he hc ha => exact .of_answer he rfl (by simp [he])

theorem BitChain.asksUntilEos {r r' : ReaderUnit} {n : Nat} (h : BitChain r n r') :
    AsksUntilEos r r' := by
  induction h with
  | refl => exact .of_same rfl rfl
  | snoc _ hs ih => exact ih.trans (.of_bit hs)

/-- A command of unit R asks until an EOS, however it ends. -/
theorem ReaderEnd.asksUntilEos {r r' : ReaderUnit} (h : ReaderEnd r r') : AsksUntilEos r r' := by
  cases h with
  | responds p h => exact h.asksUntilEos
  | stops p h hs =>
    have hstop := AsksUntilEos.of_stop hs
    exact h.asksUntilEos.trans hstop
  | waits k h hs => exact h.asksUntilEos

/-- An input asks until an EOS, unless it resets unit R. -/
theorem InputCases.asksUntilEos {s t : State} {x : Input} (h : InputCases s x t) :
    AsksUntilEos s.r t.r ∨ ((x = .resetR ∨ x = .resetBlock) ∧ t.r = s.r.applyReset) := by
  cases h with
  | execR i hd hu h =>
    obtain ⟨-, hend, -, -⟩ := exec_reader_end hu h
    exact .inl hend.asksUntilEos
  | execW i hd hu h =>
    obtain ⟨-, -, hr, -⟩ := exec_writer_end hu h
    exact .inl (.of_same (by rw [hr]) (by rw [hr]))
  | illegalR hi => exact .inl (.of_same rfl rfl)
  | illegalW hi => exact .inl (.of_same rfl rfl)
  | sourceReady hst h =>
    obtain ⟨-, rfl⟩ | ⟨hend, -, -⟩ := resumeReader_end h
    · exact .inl (.of_same rfl rfl)
    · exact .inl hend.asksUntilEos
  | sourceStale hst => exact .inl (.of_same rfl rfl)
  | sinkReady hst h =>
    obtain ⟨-, rfl⟩ | ⟨-, hr, -⟩ := resumeWriter_end h
    · exact .inl (.of_same rfl rfl)
    · exact .inl (.of_same (by rw [hr]) (by rw [hr]))
  | sinkStale hst => exact .inl (.of_same rfl rfl)
  | resetR => exact .inr ⟨.inl rfl, rfl⟩
  | resetW => exact .inl (.of_same rfl rfl)
  | resetBlock => exact .inr ⟨.inr rfl, rfl⟩

theorem step_asksUntilEos {s t : State} (h : step s = .next t) :
    AsksUntilEos s.r t.r ∨
      ((s.inputs.head? = some .resetR ∨ s.inputs.head? = some .resetBlock) ∧
        t.r = s.r.applyReset) := by
  obtain ⟨-, rfl⟩ | ⟨x, rest, hx, hcases⟩ := step_cases h
  · exact .inl (.of_same rfl rfl)
  · simpa [hx] using hcases.asksUntilEos

/-- A step from an exhausted unit R that does not reset it keeps the flag and asks nothing. -/
theorem step_keeps_exhausted {s t : State} (h : step s = .next t) (he : s.r.eos = true)
    (hR : s.inputs.head? ≠ some .resetR) (hB : s.inputs.head? ≠ some .resetBlock) :
    t.r.eos = true ∧ t.r.log = s.r.log := by
  obtain ⟨l, hl, hn, he'⟩ | ⟨hx, -⟩ := step_asksUntilEos h
  · exact ⟨he'.2 (.inl he), by rw [hl, hn he, List.append_nil]⟩
  · exact absurd hx (not_or.2 ⟨hR, hB⟩)

/-- A step from a unit R that is not exhausted sets the flag exactly when it logs an EOS. -/
theorem step_exhausts_iff {s t : State} {l : List SourceAnswer} (h : step s = .next t)
    (he : s.r.eos = false) (hl : t.r.log = s.r.log ++ l) : t.r.eos = true ↔ .eos ∈ l := by
  have hasks : AsksUntilEos s.r t.r := by
    obtain hasks | ⟨-, hr⟩ := step_asksUntilEos h
    · exact hasks
    · exact .of_same (by simp [hr]) (by simp [hr, he])
  obtain ⟨l', hl', -, he'⟩ := hasks
  obtain rfl : l = l' := List.append_cancel_left (hl.symm.trans hl')
  simpa [he] using he'

/-- Settles O20: the answers from the exhausted bit step, the other clauses from what a step asks the
source. -/
theorem exhaustedUntilReset : Obligations.ExhaustedUntilReset :=
  ⟨fun _ _ hi he hn => ⟨exec_readbit_exhausted hi he, exec_readbits_exhausted hi he hn⟩,
    fun _ _ => step_keeps_exhausted, fun _ _ _ => step_exhausts_iff⟩

end Sys2Proof.Machine

/-!
PROOFS. The statements of 30_encoding.md: which opcodes a port calls illegal (R79), against the table of
R74 and against its decoder, and how a record with such an opcode is answered.
-/

namespace Sys2Proof.Machine

/-! ## The illegal opcodes -/

/-- R79's three conditions leave exactly the rows of R74's table: the finite check over the 256
opcodes, from which every other fact about legality follows. -/
theorem illegalOn_eq_false_iff (port : UnitId) (op : Byte) :
    illegalOn port op = false ↔ op ∈ legalOpcodes port := by
  cases port with
  | unitR => revert op; decide
  | unitW => revert op; decide

theorem illegalOn_of_not_mem {port : UnitId} {op : Byte} (h : op ∉ legalOpcodes port) :
    illegalOn port op = true := by
  rwa [← illegalOn_eq_false_iff, Bool.not_eq_false] at h

theorem legalOpcodes_nodup (port : UnitId) : (legalOpcodes port).Nodup := by
  cases port <;> decide

/-- Among the 256 values, those that are not illegal are the table's, each once. -/
theorem filter_legal_perm (port : UnitId) :
    ((List.finRange 256).filter fun v => !illegalOn port (BitVec.ofFin v)).Perm
      ((legalOpcodes port).map BitVec.toFin) := by
  have hinj : Function.Injective (BitVec.toFin (w := 8)) := fun _ _ => BitVec.eq_of_toFin_eq
  rw [List.perm_ext_iff_of_nodup ((List.nodup_finRange 256).filter _)
    ((legalOpcodes_nodup port).map hinj)]
  intro v
  obtain ⟨op, rfl⟩ : ∃ op : Byte, op.toFin = v := ⟨.ofFin v, rfl⟩
  simp [List.mem_map_of_injective hinj, illegalOn_eq_false_iff]

/-- The opcodes illegal on a port are all but the table's. -/
theorem countP_illegalOn (port : UnitId) :
    (List.finRange 256).countP (fun v => illegalOn port (BitVec.ofFin v)) =
      256 - (legalOpcodes port).length := by
  have hsum := (List.finRange 256).length_eq_countP_add_countP
    (fun v => illegalOn port (BitVec.ofFin v))
  have hlegal := (filter_legal_perm port).length_eq
  simp only [List.length_finRange, List.length_map, ← List.countP_eq_length_filter,
    Bool.not_eq_true, Bool.decide_eq_false] at hsum hlegal
  omega

/-! ## Answering an illegal opcode -/

/-- The port's decoder rejects an illegal opcode as an illegal command, before it looks at the payload. -/
theorem decode_illegal {port : UnitId} {c : CommandRecord}
    (h : illegalOn port (opField c.header) = true) :
    ∃ why, decode port c = .reject why ∧ why.isIllegal = true := by
  have hop : opField c.header ∉ legalOpcodes port := by simp [← illegalOn_eq_false_iff, h]
  rw [decode_by_opcode]
  split
  · exact ⟨_, rfl, rfl⟩
  · split
    · exact ⟨_, rfl, rfl⟩
    · cases port with
      | unitR =>
        simp only [legalOpcodes, List.mem_cons, List.not_mem_nil, or_false, not_or] at hop
        obtain ⟨h₁, h₂⟩ := hop
        exact ⟨_, by rw [if_neg h₁, if_neg h₂], rfl⟩
      | unitW =>
        simp only [legalOpcodes, List.mem_cons, List.not_mem_nil, or_false, not_or] at hop
        obtain ⟨h₁, h₂, h₃, h₄⟩ := hop
        exact ⟨_, by rw [if_neg h₁, if_neg h₂, if_neg h₃, if_neg h₄], rfl⟩

/-- An idle unit W takes the command (R70). -/
theorem whenIdleW_idle {s : State} (h : s.w.task = none)
    (act : Host.Outcome State Fault Refusal) : whenIdleW s act = act := by
  simp [whenIdleW, h]

/-- An idle unit W that responds does nothing but deliver the response. -/
theorem respondW_idle {s : State} (h : s.w.task = none) (p : Response) :
    { s with w := respondW p s.w } = deliver .unitW p s := by
  simp only [respondW, deliver, ← h]

theorem execIllegal_idle {port : UnitId} {s : State} (h : s.busy port = false) :
    execIllegal port s = .next (deliver port (mkResponse .illegalCmd false 0 []) s) := by
  cases port with
  | unitR =>
    have hi : s.r.task = none := by simpa [State.busy] using h
    rw [← respondR_idle hi]
    exact whenIdleR_idle hi _
  | unitW =>
    have hi : s.w.task = none := by simpa [State.busy] using h
    rw [← respondW_idle hi]
    exact whenIdleW_idle hi _

/-- A record with an illegal opcode, whatever its payload, is answered as an illegal command. -/
theorem receive_illegal {port : UnitId} {c : CommandRecord}
    (h : illegalOn port (opField c.header) = true) (s : State) :
    receive port c s = execIllegal port s := by
  obtain ⟨why, hd, hi⟩ := decode_illegal h
  simp only [receive, hd, rejectRecord, if_pos hi]

theorem step_illegal {port : UnitId} {c : CommandRecord} {s : State} {rest : List Input}
    (hin : s.inputs = .command port c :: rest) (hidle : s.busy port = false)
    (hop : illegalOn port (opField c.header) = true) :
    step s = .next (deliver port (mkResponse .illegalCmd false 0 []) { s with inputs := rest }) :=
  calc step s = receive port c { s with inputs := rest } := step_cons hin
    _ = execIllegal port { s with inputs := rest } := receive_illegal hop _
    _ = _ := execIllegal_idle hidle

/-- Settles O3: the answer from the decoder's rejection, the counts from the legal opcodes being the
table's. -/
theorem illegalCommandsAreAnswered : Obligations.IllegalCommandsAreAnswered := by
  unfold Obligations.IllegalCommandsAreAnswered
  refine ⟨fun _ _ _ _ => step_illegal, fun port => ?_, countP_illegalOn .unitR,
    countP_illegalOn .unitW, illegalOn_eq_false_iff⟩
  cases port with
  | unitR => exact ⟨illegalOn_of_not_mem (by decide), illegalOn_of_not_mem (by decide)⟩
  | unitW => exact ⟨illegalOn_of_not_mem (by decide), illegalOn_of_not_mem (by decide)⟩

end Sys2Proof.Machine

/-!
PROOFS. The statements of 40_reader.md about READBIT and READBITS (R101 to R107): what READBIT answers for
each outcome of its bit step, READBITS as repeated bit steps, and READBITS when the source stops before n
bits.
-/

namespace Sys2Proof.Machine

/-! ## The response port during bit steps -/

/-- Unit R has delivered no response in between, and is idle, or has its command in flight, as before:
what bit steps keep until the command's end. -/
def KeepsPort (r r' : ReaderUnit) : Prop := r'.task = r.task ∧ r'.responses = r.responses

theorem KeepsPort.trans {r₁ r₂ r₃ : ReaderUnit} (h : KeepsPort r₁ r₂) (h' : KeepsPort r₂ r₃) :
    KeepsPort r₁ r₃ := ⟨h'.1.trans h.1, h'.2.trans h.2⟩

theorem KeepsPort.of_bit {r r' : ReaderUnit} {b : Bool} (hs : rbStep r = .bit b r') :
    KeepsPort r r' := by
  have hc := rbStep_cases r
  rw [hs] at hc
  cases hc with
  | inside v he hc hv => exact ⟨rfl, rfl⟩
  | byte v rest he hc ha => exact ⟨rfl, rfl⟩

theorem KeepsPort.of_stop {r r' : ReaderUnit} {st : Status} (hs : rbStep r = .stop st r') :
    KeepsPort r r' := by
  have hc := rbStep_cases r
  rw [hs] at hc
  cases hc with
  | exhausted he => exact ⟨rfl, rfl⟩
  | eos rest he hc ha => exact ⟨rfl, rfl⟩
  | fail e rest he hc ha => exact ⟨rfl, rfl⟩

theorem KeepsPort.of_readLoop {n k k' : Nat} {pk pk' : Pack} {r r' : ReaderUnit} {st : Status}
    (h : readLoop n k pk r = .done st k' pk' r') : KeepsPort r r' := by
  have hl := readLoop_ind (P := fun _ _ r₁ => KeepsPort r r₁)
    (fun _ _ _ _ _ hk hs => hk.trans (.of_bit hs)) n k pk r ⟨rfl, rfl⟩
  rw [h] at hl
  obtain ⟨-, -, hk⟩ | ⟨-, r₁, hk, hs⟩ := hl
  · exact hk
  · exact hk.trans (.of_stop hs)

/-- An idle unit that responds after bit steps adds the response to those before the command. -/
theorem KeepsPort.respondR_eq {r r' : ReaderUnit} (h : KeepsPort r r') (hi : r.task = none)
    (p : Response) : respondR p r' = { r' with responses := r.responses ++ [p] } := by
  obtain ⟨htask, hresp⟩ := h
  rw [respondR, hresp, ← htask.trans hi]

/-- A status that stops a bit step is none of success. -/
theorem rbStep_stop_code {r r' : ReaderUnit} {st : Status} (hs : rbStep r = .stop st r') :
    st.code ≠ 0 := by
  have hc := rbStep_cases r
  rw [hs] at hc
  cases hc with
  | exhausted he => decide
  | eos rest he hc ha => decide
  | fail e rest he hc ha => simp [Status.code]

/-! ## READBIT -/

theorem exec_readbit_idle {s : State} (hi : s.r.task = none) :
    exec .readbit s = finishReadbit (rbStep s.r) s := whenIdleR_idle hi _

theorem exec_readbit_bit {s : State} {b : Bool} {r : ReaderUnit} (hi : s.r.task = none)
    (hs : rbStep s.r = .bit b r) : exec .readbit s = .next { s with
      r := { r with responses := s.r.responses ++ [⟨0, BitVec.ofBool b, 0, none, []⟩] } } := by
  have hresp := (KeepsPort.of_bit hs).respondR_eq hi (mkResponse .ok b 0 [])
  simp only [exec_readbit_idle hi, hs, finishReadbit, hresp]
  rfl

theorem exec_readbit_stop {s : State} {st : Status} {r : ReaderUnit} (hi : s.r.task = none)
    (hs : rbStep s.r = .stop st r) : exec .readbit s = .next { s with
      r := { r with responses := s.r.responses ++ [⟨st.code, 0, 0, st.err, []⟩] } } := by
  have hresp := (KeepsPort.of_stop hs).respondR_eq hi (mkResponse st false 0 [])
  simp only [exec_readbit_idle hi, hs, finishReadbit, hresp]
  rfl

/-- Every next state READBIT can give, by the outcome of its bit step. -/
inductive ReadbitCases (s : State) : State → Prop where
  | bit (b : Bool) (r : ReaderUnit) (hs : rbStep s.r = .bit b r) : ReadbitCases s { s with
      r := { r with responses := s.r.responses ++ [⟨0, BitVec.ofBool b, 0, none, []⟩] } }
  | stop (st : Status) (r : ReaderUnit) (hs : rbStep s.r = .stop st r) : ReadbitCases s { s with
      r := { r with responses := s.r.responses ++ [⟨st.code, 0, 0, st.err, []⟩] } }
  | wait (hs : rbStep s.r = .wait) :
      ReadbitCases s { s with r := { s.r with task := some .readbit } }

theorem exec_readbit_cases {s t : State} (h : exec .readbit s = .next t) :
    s.r.task = none ∧ ReadbitCases s t := by
  have hi : s.r.task = none := (exec_reader_end rfl h).1
  refine ⟨hi, ?_⟩
  cases hs : rbStep s.r with
  | bit b r => rw [exec_readbit_bit hi hs] at h; cases h; exact .bit b r hs
  | stop st r => rw [exec_readbit_stop hi hs] at h; cases h; exact .stop st r hs
  | wait => rw [exec_readbit_idle hi, hs] at h; cases h; exact .wait hs
  | fault f => rw [exec_readbit_idle hi, hs] at h; cases h

/-- A READBIT that leaves the unit idle has delivered one response. -/
theorem exec_readbit_responds {s t : State} (h : exec .readbit s = .next t)
    (ht : t.r.task = none) : ∃ p, t.r.responses = s.r.responses ++ [p] := by
  obtain ⟨-, hc⟩ := exec_readbit_cases h
  cases hc with
  | bit b r hs => exact ⟨_, rfl⟩
  | stop st r hs => exact ⟨_, rfl⟩
  | wait hs => cases ht

/-- A READBIT that answers OK with a bit has read it. -/
theorem exec_readbit_ok {s t : State} {b : Bool} (h : exec .readbit s = .next t)
    (hp : t.r.responses = s.r.responses ++ [⟨0, BitVec.ofBool b, 0, none, []⟩]) :
    ∃ r, rbStep s.r = .bit b r ∧ t = { s with r := { r with responses := t.r.responses } } := by
  obtain ⟨-, hc⟩ := exec_readbit_cases h
  cases hc with
  | bit b' r hs =>
    obtain rfl : b' = b := by simpa [BitVec.ofBool_eq_iff_eq] using hp
    exact ⟨r, hs, rfl⟩
  | stop st r hs =>
    have hp' := List.singleton_inj.1 (List.append_cancel_left hp)
    exact absurd (congrArg Response.status hp') (rbStep_stop_code hs)
  | wait hs => simp at hp

/-- A READBIT that answers another status has met it in its bit step. -/
theorem exec_readbit_not_ok {s t : State} {p : Response} (h : exec .readbit s = .next t)
    (hp : t.r.responses = s.r.responses ++ [p]) (hne : p.status ≠ 0) :
    ∃ st r, rbStep s.r = .stop st r ∧ p.status = st.code ∧ p.err = st.err ∧
      t = { s with r := { r with responses := t.r.responses } } := by
  obtain ⟨-, hc⟩ := exec_readbit_cases h
  cases hc with
  | bit b r hs =>
    obtain rfl : _ = p := by simpa using hp
    exact absurd rfl hne
  | stop st r hs =>
    obtain rfl : _ = p := by simpa using hp
    exact ⟨st, r, hs, rfl, rfl, rfl⟩
  | wait hs => simp at hp

/-- Settles O16: each case is the bit step of that case. -/
theorem readbitResult : Obligations.ReadbitResult := by
  unfold Obligations.ReadbitResult
  refine ⟨fun c h => by rw [decode_by_opcode, h]; rfl,
    fun s hi => ⟨?exhausted, ?inside, ?byte, ?eos, ?fail⟩⟩
  case exhausted => exact fun he => exec_readbit_stop hi (rbStep_exhausted he)
  case inside =>
    intro he hc v hv
    rw [exec_readbit_bit hi (rbStep_inside he hc hv), bitAt_eq]
  case byte =>
    intro he hc v rest ha
    rw [exec_readbit_bit hi (rbStep_byte he hc ha), bitAt_eq]
    rfl
  case eos => exact fun he hc rest ha => exec_readbit_stop hi (rbStep_eos he hc ha)
  case fail => exact fun he hc e rest ha => exec_readbit_stop hi (rbStep_fail he hc ha)

/-! ## READBITS and its loop -/

/-- Settles O19: READBITS looks at the sign of n before anything else. -/
theorem readbitsNonPositiveIsNoOp : Obligations.ReadbitsNonPositiveIsNoOp := by
  unfold Obligations.ReadbitsNonPositiveIsNoOp
  intro n s hn hi
  have hresp := respondR_idle hi (mkResponse .ok false 0 [])
  simp only [exec, execReadbits, whenIdleR_idle hi, if_pos hn, hresp]
  rfl

theorem sint_toNat {n : Word} (hn : 0 < sint n) : (sint n).toNat = n.toNat := by
  unfold sint at hn ⊢
  rw [BitVec.toInt_eq_toNat_cond] at hn ⊢
  split at hn <;> omega

/-- READBITS with n >= 1 answers what its loop ends with, its payload the packing of the bits read. -/
theorem exec_readbits_done {s : State} {n : Word} {st : Status} {k : Nat} {pk : Pack}
    {r : ReaderUnit} {bits : List Bool} (hi : s.r.task = none) (hn : 0 < sint n)
    (hl : readLoop n.toNat 0 Pack.empty s.r = .done st k pk r) (hpk : pk.Holds bits) :
    exec (.readbits n) s = .next { s with
      r := { r with responses := s.r.responses ++
        [⟨st.code, 0, BitVec.ofNat 64 k, st.err, packBits bits⟩] } } := by
  have hresp := (KeepsPort.of_readLoop hl).respondR_eq hi (mkResponse st false k (packBits bits))
  simp only [exec, execReadbits, whenIdleR_idle hi, if_neg (not_le.2 hn), sint_toNat hn, hl,
    finishReadbits, Pack.holds_finish hpk, hresp]
  rfl

theorem readLoop_one {r r' : ReaderUnit} {b : Bool} (hs : rbStep r = .bit b r') (k : Nat)
    (pk : Pack) : readLoop 1 k pk r = .done .ok (k + 1) (pkPut pk b) r' := by
  simp [readLoop, hs]

/-- The loop ends at the first status other than OK, with the bits before it. -/
theorem readLoop_stops {m n : Nat} {k k' : Nat} {pk pk' : Pack} {r r₁ r₂ : ReaderUnit} {st : Status}
    (hl : readLoop m k pk r = .done .ok k' pk' r₁) (hm : m < n) (hs : rbStep r₁ = .stop st r₂) :
    readLoop n k pk r = .done st k' pk' r₂ := by
  obtain ⟨d, rfl⟩ := Nat.exists_eq_add_of_lt hm
  rw [Nat.add_assoc, readLoop_add hl]
  simp [readLoop, hs]

/-- Settles O18: the failing bit step is the whole command for READBIT and for READBITS. -/
theorem sourceFailureChangesNoRegister : Obligations.SourceFailureChangesNoRegister := by
  unfold Obligations.SourceFailureChangesNoRegister
  intro s n e v rest hi he hc ha hn failed
  have hs := rbStep_fail he hc ha
  have hpos : 0 < n.toNat := by have := sint_toNat hn; omega
  have hl := readLoop_stops (k := 0) (pk := Pack.empty) rfl hpos hs
  refine ⟨exec_readbit_stop hi hs, exec_readbits_done hi hn hl Pack.holds_empty, ?_⟩
  have hnext := exec_readbit_bit (s := failed) hi (rbStep_byte he hc rfl)
  rw [hnext, bitAt_eq]
  rfl

/-! ## READBITS as repeated READBITs -/

/-- A bit step does not look at the responses delivered before it. -/
theorem rbStep_bit_responses {r r' : ReaderUnit} {b : Bool} (hs : rbStep r = .bit b r')
    (l : List Response) :
    rbStep { r with responses := l } = .bit b { r' with responses := l } := by
  obtain ⟨htask, -⟩ := KeepsPort.of_bit hs
  rw [rbStep_port r r.task l, hs, ← htask]

theorem rbStep_stop_responses {r r' : ReaderUnit} {st : Status} (hs : rbStep r = .stop st r')
    (l : List Response) :
    rbStep { r with responses := l } = .stop st { r' with responses := l } := by
  obtain ⟨htask, -⟩ := KeepsPort.of_stop hs
  rw [rbStep_port r r.task l, hs, ← htask]

/-- The last of k + 1 commands. -/
theorem execAll_replicate_succ {i : Instr} {k : Nat} {s t : State}
    (h : execAll (List.replicate (k + 1) i) s = .next t) :
    ∃ u, execAll (List.replicate k i) s = .next u ∧ exec i u = .next t := by
  rw [List.replicate_succ', execAll_append] at h
  cases hu : execAll (List.replicate k i) s with
  | next u =>
    simp only [hu, execAll] at h
    refine ⟨u, rfl, ?_⟩
    cases ht : exec i u with
    | next t' => simpa [ht] using h
    | fault f => simp [ht] at h
    | refused w => simp [ht] at h
  | fault f => simp [hu] at h
  | refused w => simp [hu] at h

/-- READBITs that all return OK take unit R through READBITS' loop: only the responses differ. -/
theorem readLoop_of_readbits {s : State} {bits : List Bool} : ∀ {t : State},
    execAll (List.replicate bits.length .readbit) s = .next t →
    t.r.responses = s.r.responses ++ bits.map (fun b => ⟨0, BitVec.ofBool b, 0, none, []⟩) →
    t.r.task = none →
    ∃ pk r, readLoop bits.length 0 Pack.empty s.r = .done .ok bits.length pk r ∧ pk.Holds bits ∧
      r = { t.r with responses := s.r.responses } ∧ t = { s with r := t.r } := by
  induction bits using List.reverseRecOn with
  | nil =>
    intro t h _ _
    cases h
    exact ⟨Pack.empty, s.r, rfl, Pack.holds_empty, rfl, rfl⟩
  | append_singleton bits b ih =>
    intro t h hresp ht
    rw [List.length_append, List.length_singleton] at h ⊢
    obtain ⟨u, hu, hut⟩ := execAll_replicate_succ h
    obtain ⟨p, hp⟩ := exec_readbit_responds hut ht
    rw [List.map_append, ← List.append_assoc, hp] at hresp
    obtain ⟨hpre, hlast⟩ := List.append_inj' hresp rfl
    rw [hlast] at hp
    obtain ⟨r, hs, hteq⟩ := exec_readbit_ok hut hp
    obtain ⟨pk, r₀, hl, hpk, rfl, hueq⟩ := ih hu hpre (exec_readbit_cases hut).1
    have hs' := rbStep_bit_responses hs s.r.responses
    refine ⟨pkPut pk b, { r with responses := s.r.responses }, ?_, Pack.holds_put hpk b, ?_, ?_⟩
    · rw [readLoop_add hl, readLoop_one hs']
    · rw [hteq]
    · rw [hteq, hueq]

/-- n READBITs that all return OK are one READBITS n. -/
theorem exec_readbits_of_readbits {s t : State} {n : Word} {bits : List Bool} (hn : 0 < sint n)
    (h : execAll (List.replicate bits.length .readbit) s = .next t)
    (hresp : t.r.responses = s.r.responses ++ bits.map (fun b => ⟨0, BitVec.ofBool b, 0, none, []⟩))
    (ht : t.r.task = none) (hlen : bits.length = n.toNat) :
    exec (.readbits n) s = .next { t with
      r := { t.r with responses := s.r.responses ++ [⟨0, 0, n, none, packBits bits⟩] } } := by
  obtain ⟨pk, r, hl, hpk, rfl, hteq⟩ := readLoop_of_readbits h hresp ht
  have hi : s.r.task = none := (KeepsPort.of_readLoop hl).1.symm.trans ht
  rw [hlen] at hl
  rw [exec_readbits_done hi hn hl hpk, hteq, BitVec.ofNat_toNat, BitVec.setWidth_eq]
  rfl

/-- Fewer READBITs that return OK, and one that returns another status, are one READBITS n. -/
theorem exec_readbits_of_readbits_stop {s t u : State} {n : Word} {bits : List Bool} {p : Response}
    (hn : 0 < sint n) (h : execAll (List.replicate bits.length .readbit) s = .next t)
    (hresp : t.r.responses = s.r.responses ++ bits.map (fun b => ⟨0, BitVec.ofBool b, 0, none, []⟩))
    (ht : t.r.task = none) (hlen : bits.length < n.toNat) (hu : exec .readbit t = .next u)
    (hp : u.r.responses = t.r.responses ++ [p]) (hne : p.status ≠ 0) :
    exec (.readbits n) s = .next { u with
      r := { u.r with responses := s.r.responses ++
        [⟨p.status, 0, BitVec.ofNat 64 bits.length, p.err, packBits bits⟩] } } := by
  obtain ⟨pk, r, hl, hpk, rfl, hteq⟩ := readLoop_of_readbits h hresp ht
  have hi : s.r.task = none := (KeepsPort.of_readLoop hl).1.symm.trans ht
  obtain ⟨st, r', hs, hcode, herr, hueq⟩ := exec_readbit_not_ok hu hp hne
  have hstop := readLoop_stops hl hlen (rbStep_stop_responses hs s.r.responses)
  rw [exec_readbits_done hi hn hstop hpk, hcode, herr, hueq, hteq]

/-- Settles O26: READBITS' loop follows the READBITs, its pack unit holding the bits they answered. -/
theorem readbitsIsRepeatedReadbit : Obligations.ReadbitsIsRepeatedReadbit := by
  unfold Obligations.ReadbitsIsRepeatedReadbit
  refine ⟨fun c h => by rw [decode_by_opcode, h]; rfl, readbitsNonPositiveIsNoOp, ?_⟩
  intro n bits s t hn _ h hresp ht
  exact ⟨exec_readbits_of_readbits hn h hresp ht,
    fun hlen _ _ => exec_readbits_of_readbits_stop hn h hresp ht hlen⟩

/-! ## READBITS when the source stops -/

/-- With no bit available the unit is at the byte boundary and no byte stands ready. -/
theorem availableBits_nil {r : ReaderUnit} (hb : r.cur ≠ 0 → r.byte.isSome)
    (h : r.availableBits = []) : r.cur = 0 ∧ leadingBytes r.answers = [] := by
  obtain ⟨hpend, hlead⟩ := List.append_eq_nil_iff.1 h
  constructor
  · by_contra hc
    obtain ⟨v, hv⟩ := Option.isSome_iff_exists.1 (hb hc)
    rw [pendingBits_inside hc hv, drop_byteBits] at hpend
    cases hpend
  · simpa using congrArg packBits hlead

theorem afterLeadingBytes_of_none {l : List SourceAnswer} (h : leadingBytes l = []) :
    afterLeadingBytes l = l := by
  cases l with
  | nil => rfl
  | cons a l =>
    cases a with
    | byte v => cases h
    | eos => rfl
    | fail e => rfl

/-- READBITS' loop reads every available bit and comes to the boundary, where the answer after the
leading bytes, if one stands ready, is the next. -/
theorem readLoop_drains {r : ReaderUnit} (he : r.eos = false) (hb : r.cur ≠ 0 → r.byte.isSome) :
    ∃ pk r', readLoop r.availableBits.length 0 Pack.empty r =
        .done .ok r.availableBits.length pk r' ∧
      pk.Holds r.availableBits ∧ Reads r.availableBits.length r r' ∧ r'.cur = 0 ∧
      r'.answers = afterLeadingBytes r.answers := by
  obtain ⟨pk, r', hl, hpk, hreads⟩ := readLoop_available (k := 0) he hb Pack.holds_empty le_rfl
  rw [Nat.zero_add] at hl
  rw [List.nil_append, List.take_length] at hpk
  obtain ⟨hcur, hlead⟩ := availableBits_nil hreads.byte (by rw [hreads.stream, List.drop_length])
  exact ⟨pk, r', hl, hpk, hreads, hcur, by rw [← hreads.after, afterLeadingBytes_of_none hlead]⟩

/-- The answer after the leading bytes is no byte. -/
theorem afterLeadingBytes_head {l : List SourceAnswer} {a : SourceAnswer} {rest : List SourceAnswer}
    (h : afterLeadingBytes l = a :: rest) : a = .eos ∨ ∃ e, a = .fail e := by
  induction l with
  | nil => cases h
  | cons x l ih =>
    cases x with
    | byte v => exact ih h
    | eos => cases h; exact .inl rfl
    | fail e => cases h; exact .inr ⟨e, rfl⟩

/-- A fetch answered EOS or FAIL(e) stops the bit step with that status and logs the answer. -/
theorem rbStep_refused {r : ReaderUnit} {a : SourceAnswer} {rest : List SourceAnswer}
    (he : r.eos = false) (hc : r.cur = 0) (ha : r.answers = a :: rest)
    (hstop : a = .eos ∨ ∃ e, a = .fail e) :
    ∃ st, rbStep r = .stop st (answered a rest r) ∧
      ((a = .eos ∧ st.code = 1 ∧ st.err = none) ∨
        ∃ e, a = .fail e ∧ st.code = 3 ∧ st.err = some e) := by
  obtain rfl | ⟨e, rfl⟩ := hstop
  · exact ⟨.eos, rbStep_eos he hc ha, .inl ⟨rfl, rfl, rfl⟩⟩
  · exact ⟨.iofail e, rbStep_fail he hc ha, .inr ⟨e, rfl, rfl, rfl⟩⟩

/-- Settles O22: the loop drains the available bits and its next bit step is refused. -/
theorem readbitsPartialResult : Obligations.ReadbitsPartialResult := by
  unfold Obligations.ReadbitsPartialResult
  intro n s a rest hi hinv he hn hlen hafter
  obtain ⟨hbyte, -, -, -⟩ := hinv
  obtain ⟨pk, r, hl, hpk, hreads, hcur, hans⟩ := readLoop_drains he hbyte
  obtain ⟨l, hlog, hlast⟩ := hreads.fetched
  rw [hafter] at hans
  obtain ⟨st, hs, hst⟩ := rbStep_refused hreads.eos hcur hans (afterLeadingBytes_head hafter)
  have hexec := exec_readbits_done hi hn (readLoop_stops hl hlen hs) hpk
  refine ⟨_, hexec, ⟨st.code, st.err, hst, rfl⟩, hcur, ?eos, rfl, hreads.task.trans hi,
    ⟨l, ?log, hlast⟩, ?source, hreads.stale, rfl, rfl⟩
  case eos => cases a <;> simp [hreads.eos, eosAfter]
  case log => rw [answered_log, hlog]
  case source =>
    rw [answered_log, answered_answers, List.append_assoc, List.singleton_append, ← hans,
      hreads.source]

end Sys2Proof.Machine

/-!
PROOFS. The statements of 41_writer.md about unit W's commands (R140 to R150): what WRITEBIT, FLUSH and
FLUSHONES answer in each case, WRITEBITS as repeated WRITEBITs, and which commands offer a byte.
-/

namespace Sys2Proof.Machine

/-! ## Emission -/

/-- Settles O29: the three answers the sink may have ready, FAIL(e) under each policy. -/
theorem emissionProcedure : Obligations.EmissionProcedure := by
  unfold Obligations.EmissionProcedure
  refine fun w => ⟨emit_silent, fun _ => emit_ack, fun e rest ha hp => ?hold, fun e rest ha hp => ?drop⟩
  case hold => simp only [emit_fail ha, hp, if_true]
  case drop => simp only [emit_fail ha, hp, reduceCtorEq, if_false]

/-! ## The end of a command of unit W -/

/-- A unit W with no command in flight that responds adds one response and does nothing else. -/
theorem respondW_eq {w : WriterUnit} (hi : w.task = none) (p : Response) :
    respondW p w = { w with responses := w.responses ++ [p] } := by
  rw [respondW, ← hi]

/-- A command that ends in an offer answered ACK. -/
theorem finishWrite_ack {k : WriterTask} {w : WriterUnit} {rest : List SinkAnswer} (s : State)
    (hi : w.task = none) (ha : w.answers = .ack :: rest) :
    finishWrite k (emitStep w) s = .next { s with
      w := { w with acc := 0x00, cur := 0, answers := rest, log := w.log ++ [(w.acc, .ack)]
                    responses := w.responses ++ [⟨0, 0, 0, none, []⟩] } } := by
  simp only [emitStep_ack ha, finishWrite, respondW, hi]
  rfl

/-- A command that ends in an offer answered FAIL(e). -/
theorem finishWrite_fail {k : WriterTask} {w : WriterUnit} {e : ErrT} {rest : List SinkAnswer}
    (s : State) (hi : w.task = none) (ha : w.answers = .fail e :: rest) :
    finishWrite k (emitStep w) s = .next { s with
      w := { w with acc := if w.policy = .hold then w.acc else 0x00
                    cur := if w.policy = .hold then w.cur else 0
                    answers := rest, log := w.log ++ [(w.acc, .fail e)]
                    responses := w.responses ++ [⟨3, 0, 0, some e, []⟩] } } := by
  simp only [emitStep_fail ha, finishWrite, respondW, hi]
  rfl

/-! ## WRITEBIT -/

/-- Settles O31: the integer is validated before any state change. -/
theorem writebitValidatesFirst : Obligations.WritebitValidatesFirst := by
  unfold Obligations.WritebitValidatesFirst
  intro x s h₀ h₁ hi
  calc exec (.writebit x) s
      = finishWrite .writebit (wbStep (sint x) s.w) s := whenIdleW_idle hi _
    _ = .next { s with w := respondW (mkResponse .invalidBit false 0 []) s.w } := by
        rw [wbStep_invalid h₀ h₁, finishWrite]
    _ = _ := by rw [respondW_eq hi]; rfl

/-- The operand of a valid WRITEBIT. -/
def bitWord (b : Bool) : Word := if b then 1 else 0

@[simp] theorem sint_bitWord (b : Bool) : sint (bitWord b) = bitInt b := by cases b <;> rfl

/-- A valid WRITEBIT is its bit step. -/
theorem exec_writebit_idle {s : State} (hi : s.w.task = none) (b : Bool) :
    exec (.writebit (bitWord b)) s = finishWrite .writebit (writeBitAt b s.w) s := by
  rw [← wbStep_bitInt, ← sint_bitWord]
  exact whenIdleW_idle hi _

/-- WRITEBIT of a bit at position 7 is the offer of the byte it completes. -/
theorem exec_writebit_completes {s : State} (hi : s.w.task = none) (h7 : s.w.cur = 7) (b : Bool) :
    exec (.writebit (bitWord b)) s =
      finishWrite .writebit (emitStep { s.w with acc := setBit s.w.acc s.w.cur b }) s := by
  rw [exec_writebit_idle hi, writeBitAt_completes h7, ← h7]

/-- The two valid operands, and what they make of the accumulator (R141). -/
theorem setBit_of_operand {x : Word} (hx : x = 0 ∨ x = 1) (acc : Byte) (p : Position) :
    ∃ b, x = bitWord b ∧
      (if x = 1 then acc ||| (0x80#8 >>> p.val) else acc) = setBit acc p b := by
  obtain rfl | rfl := hx
  · exact ⟨false, rfl, rfl⟩
  · exact ⟨true, rfl, rfl⟩

/-- Settles O30: the invalid operand from O31, and each valid case by what its bit step does. -/
theorem writebitResult : Obligations.WritebitResult := by
  unfold Obligations.WritebitResult
  refine ⟨fun c h => by rw [decode_by_opcode, h]; rfl, writebitValidatesFirst, ?_⟩
  intro x s hi hx acc'
  obtain ⟨b, rfl, hacc⟩ := setBit_of_operand hx s.w.acc s.w.cur
  replace hacc : acc' = setBit s.w.acc s.w.cur b := hacc
  rw [hacc]
  refine ⟨fun h7 => ?inside, fun h7 rest ha => ?ack, fun h7 e rest ha => ?fail⟩
  case inside =>
    simp only [exec_writebit_idle hi, writeBitAt_inside h7, finishWrite, respondW, hi]
    rfl
  case ack =>
    exact (exec_writebit_completes hi h7 b).trans
      (finishWrite_ack (w := { s.w with acc := setBit s.w.acc s.w.cur b }) s hi ha)
  case fail =>
    rw [← h7]
    exact (exec_writebit_completes hi h7 b).trans
      (finishWrite_fail (w := { s.w with acc := setBit s.w.acc s.w.cur b }) s hi ha)

/-! ## WRITEBITS as repeated WRITEBITs -/

/-- Settles O32: WRITEBITS looks at the sign of n before anything else. -/
theorem writebitsNonPositiveIsNoOp : Obligations.WritebitsNonPositiveIsNoOp := by
  unfold Obligations.WritebitsNonPositiveIsNoOp
  intro n buf s hn hi
  rw [exec, execWritebits, whenIdleW_idle hi, if_pos hn, respondW_eq hi]
  rfl

/-- A bit step that ends leaves the response port alone. -/
theorem writeBitAt_keeps_port {b : Bool} {w w' : WriterUnit} {st : Status}
    (h : writeBitAt b w = .done st w') : w'.task = w.task ∧ w'.responses = w.responses := by
  have hp : WriteResult.done st w' =
      .done st { w' with task := w.task, responses := w.responses } :=
    h.symm.trans ((writeBitAt_port b w w.task w.responses).trans (by rw [h]))
  injection hp with _ hw
  rw [hw]
  exact ⟨rfl, rfl⟩

/-- A bit step does not look at the responses delivered before it. -/
theorem writeBitAt_responses {b : Bool} {w w' : WriterUnit} {st : Status}
    (h : writeBitAt b w = .done st w') (l : List Response) :
    writeBitAt b { w with responses := l } = .done st { w' with responses := l } := by
  obtain ⟨htask, -⟩ := writeBitAt_keeps_port h
  rw [writeBitAt_port b w w.task l, h, ← htask]

/-- A status of a bit step other than OK has another code. -/
theorem writeBitAt_code {b : Bool} {w w' : WriterUnit} {st : Status}
    (h : writeBitAt b w = .done st w') : st.code = 0 ↔ st = .ok := by
  obtain rfl | ⟨e, rfl⟩ := writeBitAt_status h
  · exact ⟨fun _ => rfl, fun _ => rfl⟩
  · simp [Status.code]

/-- A valid WRITEBIT that has delivered a response has made its bit step, and nothing else. -/
theorem exec_writebit_responded {b : Bool} {s t : State} {p : Response}
    (h : exec (.writebit (bitWord b)) s = .next t)
    (hp : t.w.responses = s.w.responses ++ [p]) :
    ∃ st w, writeBitAt b s.w = .done st w ∧ p = ⟨st.code, 0, 0, st.err, []⟩ ∧
      t = { s with w := { w with responses := t.w.responses } } := by
  have hi : s.w.task = none := (exec_writer_end rfl h).1
  rw [exec_writebit_idle hi] at h
  cases hs : writeBitAt b s.w with
  | done st w =>
    obtain ⟨htask, hresp⟩ := writeBitAt_keeps_port hs
    rw [hs, finishWrite, respondW_eq (htask.trans hi), hresp] at h
    cases h
    exact ⟨st, w, rfl, (List.singleton_inj.1 (List.append_cancel_left hp)).symm, rfl⟩
  | wait w =>
    have hresp : w.responses = s.w.responses := (writeBitAt_grows_of hs).responses
    rw [hs] at h
    cases h
    simp [hresp] at hp

/-- A command of unit W that leaves the unit idle has delivered one response. -/
theorem exec_writer_responds {i : Instr} {s t : State} (hu : i.unit = .unitW)
    (h : exec i s = .next t) (ht : t.w.task = none) :
    ∃ p, t.w.responses = s.w.responses ++ [p] := by
  obtain ⟨-, hend, -⟩ := exec_writer_end hu h
  generalize t.w = w at hend ht
  cases hend with
  | responds p hg => exact ⟨p, by rw [respondW_responses, hg.responses]⟩
  | waits k hg => cases ht

/-- The last command of a list. -/
theorem execAll_concat {is : List Instr} {i : Instr} {s t : State}
    (h : execAll (is ++ [i]) s = .next t) :
    ∃ u, execAll is s = .next u ∧ exec i u = .next t := by
  rw [execAll_append] at h
  cases hu : execAll is s with
  | next u =>
    simp only [hu, execAll] at h
    refine ⟨u, rfl, ?_⟩
    cases ht : exec i u with
    | next t' => simpa [ht] using h
    | fault f => simp [ht] at h
    | refused w => simp [ht] at h
  | fault f => simp [hu] at h
  | refused w => simp [hu] at h

/-- The WRITEBIT of bit j of a buffer. -/
def writeBufBit (buf : List Byte) (j : Nat) : Instr := .writebit (bitWord (bufBit buf j))

/-- WRITEBITS' loop takes up the bit after one whose step returned OK. -/
theorem writeLoop_ok {n j : Nat} {buf : List Byte} {w w' : WriterUnit}
    (hs : writeBitAt (bufBit buf j) w = .done .ok w') (m : Nat) :
    writeLoop n buf (m + 1) j w = writeLoop n buf m (j + 1) w' := by
  rw [writeLoop, wbStep_bitInt, hs]

/-- WRITEBITS' loop ends at a step that returned another status. -/
theorem writeLoop_stops {n j : Nat} {buf : List Byte} {w w' : WriterUnit} {st : Status}
    (hs : writeBitAt (bufBit buf j) w = .done st w') (hne : st ≠ .ok) (m : Nat) :
    writeLoop n buf (m + 1) j w = .done st j w' := by
  rw [writeLoop, wbStep_bitInt, hs]
  cases st with
  | ok => exact absurd rfl hne
  | eos => rfl
  | invalidBit => rfl
  | iofail e => rfl
  | illegalCmd => rfl

/-- WRITEBITs that all return OK take unit W through WRITEBITS' loop: only the responses differ. -/
theorem writeLoop_of_writebits (n : Nat) {buf : List Byte} {s : State} {k : Nat} : ∀ {t : State},
    execAll ((List.range k).map (writeBufBit buf)) s = .next t →
    t.w.responses = s.w.responses ++ List.replicate k ⟨0, 0, 0, none, []⟩ →
    t.w.task = none →
    (∀ m, writeLoop n buf (k + m) 0 s.w =
      writeLoop n buf m k { t.w with responses := s.w.responses }) ∧
    s.w.task = none ∧ t = { s with w := t.w } := by
  induction k with
  | zero =>
    intro t h _ ht
    cases h
    exact ⟨fun m => by rw [Nat.zero_add], ht, rfl⟩
  | succ k ih =>
    intro t h hresp ht
    rw [List.range_succ, List.map_append] at h
    obtain ⟨u, hu, hut⟩ := execAll_concat h
    obtain ⟨p, hp⟩ := exec_writer_responds rfl hut ht
    rw [List.replicate_succ', ← List.append_assoc, hp] at hresp
    obtain ⟨hpre, hlast⟩ := List.append_inj' hresp rfl
    obtain ⟨st, w, hs, hpst, hteq⟩ := exec_writebit_responded hut hp
    have hok : st = .ok := by
      rw [← writeBitAt_code hs]
      exact congrArg Response.status (hpst.symm.trans (List.singleton_inj.1 hlast))
    subst hok
    obtain ⟨hl, hi, hueq⟩ := ih hu hpre (exec_writer_end rfl hut).1
    refine ⟨fun m => ?_, hi, ?_⟩
    · rw [Nat.add_right_comm, Nat.add_assoc, hl, writeLoop_ok (writeBitAt_responses hs _), hteq]
    · rw [hteq, hueq]

/-- WRITEBITS with n >= 1 answers what its loop ends with. -/
theorem exec_writebits_done {s : State} {n : Word} {buf : List Byte} {st : Status} {k : Nat}
    {w : WriterUnit} (hi : s.w.task = none) (hn : 0 < sint n)
    (hl : writeLoop n.toNat buf (bitsToWrite n.toNat buf) 0 s.w = .done st k w)
    (hw : w.task = none) :
    exec (.writebits n buf) s = .next { s with
      w := { w with responses := w.responses ++ [mkResponse st false k []] } } := by
  rw [exec, execWritebits, whenIdleW_idle hi, if_neg (not_le.2 hn), sint_toNat hn, hl,
    finishWritebits, respondW_eq hw]

/-- WRITEBITS' response when no step failed (R144, R146). -/
theorem exhaustion_response (n : Word) (buf : List Byte) :
    mkResponse (exhaustion n.toNat buf) false (bitsToWrite n.toNat buf) [] =
      if 8 * buf.length < n.toNat then ⟨1, 0, BitVec.ofNat 64 (8 * buf.length), none, []⟩
      else ⟨0, 0, n, none, []⟩ := by
  unfold exhaustion bitsToWrite
  split
  · rw [Nat.min_eq_right (by omega)]
    rfl
  · rw [Nat.min_eq_left (by omega), mkResponse, BitVec.ofNat_toNat, BitVec.setWidth_eq]
    rfl

section
variable {s t : State} {n : Word} {buf : List Byte} {k : Nat} (hn : 0 < sint n)
  (h : execAll ((List.range k).map (writeBufBit buf)) s = .next t)
  (hresp : t.w.responses = s.w.responses ++ List.replicate k ⟨0, 0, 0, none, []⟩)
  (ht : t.w.task = none)
include hn h hresp ht

/-- min(n, 8·len) WRITEBITs of the buffer's bits that all return OK are one WRITEBITS n. -/
theorem exec_writebits_of_writebits (hk : k = bitsToWrite n.toNat buf) :
    exec (.writebits n buf) s = .next { t with
      w := { t.w with responses := s.w.responses ++
        [if 8 * buf.length < n.toNat then ⟨1, 0, BitVec.ofNat 64 (8 * buf.length), none, []⟩
         else ⟨0, 0, n, none, []⟩] } } := by
  obtain ⟨hl, hi, hteq⟩ := writeLoop_of_writebits n.toNat h hresp ht
  have hdone := hl 0
  rw [hk, Nat.add_zero, writeLoop] at hdone
  rw [exec_writebits_done hi hn hdone ht, exhaustion_response, hteq]

/-- Fewer WRITEBITs that return OK, and one that returns another status, are one WRITEBITS n. -/
theorem exec_writebits_of_writebits_stop (hk : k < bitsToWrite n.toNat buf) {u : State}
    {p : Response} (hu : exec (writeBufBit buf k) t = .next u)
    (hp : u.w.responses = t.w.responses ++ [p]) (hne : p.status ≠ 0) :
    exec (.writebits n buf) s = .next { u with
      w := { u.w with responses := s.w.responses ++
        [⟨p.status, 0, BitVec.ofNat 64 k, p.err, []⟩] } } := by
  obtain ⟨hl, hi, hteq⟩ := writeLoop_of_writebits n.toNat h hresp ht
  obtain ⟨st, w, hs, rfl, hueq⟩ := exec_writebit_responded hu hp
  obtain ⟨d, hd⟩ := Nat.exists_eq_add_of_lt hk
  have hstop : writeLoop n.toNat buf (bitsToWrite n.toNat buf) 0 s.w =
      .done st k { w with responses := s.w.responses } := by
    rw [hd, Nat.add_assoc, hl,
      writeLoop_stops (writeBitAt_responses hs _) (fun hok => hne ((writeBitAt_code hs).2 hok))]
  have htask : w.task = none := (writeBitAt_keeps_port hs).1.trans ht
  rw [exec_writebits_done hi hn hstop htask, hueq, hteq]
  rfl

end

/-- The port reads a WRITEBITS record whose payload is the `len` bytes it says. -/
theorem decode_writebits {c : CommandRecord} (hop : opField c.header = 0x82)
    (hlen : c.payload.length = (lenField c.header).toNat) (hmax : c.payload.length < 2 ^ 63) :
    decode .unitW c = .instr (.writebits (aField c.header) c.payload) := by
  have hd : decode .unitW c = decodeWritebits c := by rw [decode_by_opcode, hop]; rfl
  rw [hd, decodeWritebits, if_neg (by unfold maxLen; omega), if_pos hlen]

/-- Settles O36: WRITEBITS' loop follows the WRITEBITs of the buffer's bits. -/
theorem writebitsIsRepeatedWritebit : Obligations.WritebitsIsRepeatedWritebit := by
  unfold Obligations.WritebitsIsRepeatedWritebit
  refine ⟨fun _ => decode_writebits, writebitsNonPositiveIsNoOp, ?_⟩
  intro n buf k s t hn m write _ h hresp ht
  exact ⟨exec_writebits_of_writebits hn h hresp ht,
    fun hk _ _ => exec_writebits_of_writebits_stop hn h hresp ht hk⟩

/-! ## FLUSH and FLUSHONES -/

/-- A flush with nothing pending answers OK and does nothing. -/
theorem exec_flush_empty {s : State} (hi : s.w.task = none) (h₀ : s.w.cur = 0) :
    exec .flush s = .next { s with
      w := { s.w with responses := s.w.responses ++ [⟨0, 0, 0, none, []⟩] } } := by
  rw [exec, execFlush, whenIdleW_idle hi, if_pos h₀, respondW_eq hi]
  rfl

theorem exec_flush_pending {s : State} (hi : s.w.task = none) (h₀ : s.w.cur ≠ 0) :
    exec .flush s = finishWrite .flush (emitStep s.w) s := by
  rw [exec, execFlush, whenIdleW_idle hi, if_neg h₀]

/-- A FLUSHONES with nothing pending answers OK and does nothing. -/
theorem exec_flushones_empty {s : State} (hi : s.w.task = none) (h₀ : s.w.cur = 0) :
    exec .flushones s = .next { s with
      w := { s.w with responses := s.w.responses ++ [⟨0, 0, 0, none, []⟩] } } := by
  rw [exec, execFlushones, whenIdleW_idle hi, if_pos h₀, respondW_eq hi]
  rfl

theorem exec_flushones_pending {s : State} (hi : s.w.task = none) (h₀ : s.w.cur ≠ 0) :
    exec .flushones s = finishWrite .flushones (emitStep (padWithOnes s.w)) s := by
  rw [exec, execFlushones, whenIdleW_idle hi, if_neg h₀]

/-- An idle unit W holds zeros from the cursor on, but in a byte that HOLD kept (R29). -/
theorem WriterUnit.Inv.clean {w : WriterUnit} (h : w.Inv) (hi : w.task = none)
    (hw : w.cur ≠ 7 ∨ w.policy = .drop) : w.Clean := by
  obtain ⟨hafter, hcur, -, -⟩ := h
  intro q hq
  obtain heq | hlt := hq.eq_or_lt
  · exact heq ▸ hcur (hw.imp_right fun hp => ⟨hi, hp⟩)
  · exact hafter q hlt

/-- A byte FLUSH has offered is the accumulator. -/
theorem exec_flush_offers {s t : State} {v : Byte} {a : SinkAnswer} (h : exec .flush s = .next t)
    (hlog : t.w.log = s.w.log ++ [(v, a)]) : v = s.w.acc := by
  have hi : s.w.task = none := (exec_writer_end rfl h).1
  by_cases h₀ : s.w.cur = 0
  · rw [exec_flush_empty hi h₀] at h
    cases h
    simp at hlog
  · rw [exec_flush_pending hi h₀] at h
    have hc := emitStep_cases s.w
    generalize emitStep s.w = res at h hc
    cases hc with
    | silent ha => cases h; simp at hlog
    | ack rest ha =>
      cases h
      exact (Prod.mk.inj (List.singleton_inj.1 (List.append_cancel_left hlog))).1.symm
    | fail e rest ha =>
      cases h
      exact (Prod.mk.inj (List.singleton_inj.1 (List.append_cancel_left hlog))).1.symm

/-- Settles O37: nothing pending, or the offer of the accumulator; its padding from the invariant. -/
theorem flushResult : Obligations.FlushResult := by
  unfold Obligations.FlushResult
  refine ⟨fun c h => by rw [decode_by_opcode, h]; rfl, fun s hi =>
    ⟨exec_flush_empty hi, fun h₀ rest ha => ?ack, fun h₀ e rest ha => ?fail, ?padding⟩⟩
  case ack => rw [exec_flush_pending hi h₀, finishWrite_ack s hi ha]
  case fail => rw [exec_flush_pending hi h₀, finishWrite_fail s hi ha]
  case padding =>
    intro hw hinv t v a h hlog q
    rw [exec_flush_offers h hlog]
    split
    · rfl
    · exact hinv.clean hi hw q (not_lt.1 ‹_›)

/-- Settles O38: nothing pending, or the offer of the padded accumulator. -/
theorem flushonesResult : Obligations.FlushonesResult := by
  unfold Obligations.FlushonesResult
  refine ⟨fun c h => by rw [decode_by_opcode, h]; rfl, fun s hi =>
    ⟨exec_flushones_empty hi, fun h₀ rest ha => ?ack, fun h₀ e rest ha => ?fail⟩⟩
  case ack =>
    rw [exec_flushones_pending hi h₀, finishWrite_ack (w := padWithOnes s.w) s hi ha]
    rfl
  case fail =>
    rw [exec_flushones_pending hi h₀, finishWrite_fail (w := padWithOnes s.w) s hi ha]
    rfl

/-! ## Which commands offer a byte -/

/-- A write's outcome has made an offer since the log was l, or waits for one. -/
def WriteResult.Emits (l : List (Byte × SinkAnswer)) : WriteResult → Prop
  | .done _ w => w.log ≠ l
  | .wait _ => True

/-- A loop's outcome has made an offer since the log was l, or waits for one. -/
def WriteLoop.Emits (l : List (Byte × SinkAnswer)) : WriteLoop → Prop
  | .done _ _ w => w.log ≠ l
  | .wait _ _ => True

theorem emitStep_emits (w : WriterUnit) : (emitStep w).Emits w.log := by
  have hc := emitStep_cases w
  generalize emitStep w = res at hc
  cases hc with
  | silent ha => trivial
  | ack rest ha => simp [WriteResult.Emits]
  | fail e rest ha => simp [WriteResult.Emits]

/-- R142 (a), for one bit step. -/
theorem writeBitAt_emits_iff (b : Bool) (w : WriterUnit) :
    (writeBitAt b w).Emits w.log ↔ w.cur = 7 := by
  by_cases h7 : w.cur = 7
  · rw [writeBitAt_completes h7]
    exact iff_of_true (emitStep_emits { w with acc := setBit w.acc 7 b }) h7
  · rw [writeBitAt_inside h7]
    exact iff_of_false (fun hne => hne rfl) h7

theorem sint_eq_zero_iff (x : Word) : sint x = 0 ↔ x = 0 := BitVec.toInt_inj (y := 0)

theorem sint_eq_one_iff (x : Word) : sint x = 1 ↔ x = 1 := BitVec.toInt_inj (y := 1)

/-- R142 (a), for a WRITEBIT: an operand that is no bit makes no offer. -/
theorem wbStep_emits_iff (x : Word) (w : WriterUnit) :
    (wbStep (sint x) w).Emits w.log ↔ (x = 0 ∨ x = 1) ∧ w.cur = 7 := by
  by_cases hx : x = 0 ∨ x = 1
  · obtain ⟨b, rfl, -⟩ := setBit_of_operand hx 0 0
    rw [sint_bitWord, wbStep_bitInt, writeBitAt_emits_iff, and_iff_right hx]
  · obtain ⟨h₀, h₁⟩ := not_or.1 hx
    rw [wbStep_invalid (mt (sint_eq_zero_iff x).1 h₀) (mt (sint_eq_one_iff x).1 h₁)]
    exact iff_of_false (fun hne => hne rfl) fun h => hx h.1

/-- Once an offer is made, growing the log further does not undo it. -/
theorem WriteLoop.Emits.of_grows {w w₁ : WriterUnit} {res : WriteLoop} (h : w.log <+: w₁.log)
    (hne : w₁.log ≠ w.log) (hg : WriterGrows w₁ res.unit) : res.Emits w.log := by
  cases res with
  | done st k w' => exact fun heq => hne ((heq ▸ hg.log).eq_of_length_le h.length_le)
  | wait j w' => trivial

/-- A cursor before position 7 advances without wrapping (R14). -/
theorem position_succ_val {p : Position} (h : p ≠ 7) : (p + 1).val = p.val + 1 := by
  revert p
  decide

/-- R142 (a), for WRITEBITS' loop: its bits reach position 7. -/
theorem writeLoop_emits_iff (n : Nat) (buf : List Byte) (m : Nat) : ∀ (j : Nat) (w : WriterUnit),
    (writeLoop n buf m j w).Emits w.log ↔ 8 ≤ w.cur.val + m := by
  induction m with
  | zero =>
    intro j w
    exact iff_of_false (fun hne => hne rfl) (by have := w.cur.isLt; omega)
  | succ m ih =>
    intro j w
    have hbit := writeBitAt_emits_iff (bufBit buf j) w
    by_cases h7 : w.cur = 7
    · refine iff_of_true ?_ (by rw [h7]; change 8 ≤ 7 + (m + 1); omega)
      replace hbit := hbit.2 h7
      cases hs : writeBitAt (bufBit buf j) w with
      | done st w' =>
        rw [hs] at hbit
        by_cases hok : st = .ok
        · subst hok
          rw [writeLoop_ok hs]
          exact .of_grows (writeBitAt_grows_of hs).log hbit (writeLoop_grows _ _ _ _ _)
        · rw [writeLoop_stops hs hok]
          exact hbit
      | wait w' =>
        rw [writeLoop, wbStep_bitInt, hs]
        trivial
    · rw [writeLoop_ok (writeBitAt_inside h7)]
      exact (ih _ _).trans (by rw [position_succ_val h7]; omega)

/-- The state after a command's end shows whether it made an offer. -/
theorem finishWrite_emits_iff {k : WriterTask} {res : WriteResult} {s t : State}
    (h : finishWrite k res s = .next t) :
    (t.w.task.isSome ∨ t.w.log ≠ s.w.log) ↔ res.Emits s.w.log := by
  cases res with
  | done st w => cases h; simp [WriteResult.Emits]
  | wait w => cases h; simp [WriteResult.Emits]

theorem finishWritebits_emits_iff {n : Nat} {buf : List Byte} {res : WriteLoop} {s t : State}
    (h : finishWritebits n buf res s = .next t) :
    (t.w.task.isSome ∨ t.w.log ≠ s.w.log) ↔ res.Emits s.w.log := by
  cases res with
  | done st k w => cases h; simp [WriteLoop.Emits]
  | wait j w => cases h; simp [WriteLoop.Emits]

/-- A response with no register changed is no offer. -/
theorem respondW_emits_not {p : Response} {s t : State}
    (h : (.next { s with w := respondW p s.w } : Host.Outcome State Fault Refusal) = .next t) :
    ¬ (t.w.task.isSome ∨ t.w.log ≠ s.w.log) := by
  cases h
  simp

theorem exec_writebits_emits_iff {n : Word} {buf : List Byte} {s t : State}
    (h : exec (.writebits n buf) s = .next t) :
    (t.w.task.isSome ∨ t.w.log ≠ s.w.log) ↔
      0 < sint n ∧ 8 ≤ s.w.cur.val + min n.toNat (8 * buf.length) := by
  obtain ⟨-, ha⟩ := whenIdleW_next h
  split at ha
  · exact iff_of_false (respondW_emits_not ha) fun hn => by omega
  · have hn : 0 < sint n := not_le.1 ‹_›
    rw [finishWritebits_emits_iff ha, writeLoop_emits_iff, sint_toNat hn, bitsToWrite,
      and_iff_right hn]

/-- R142 (b): a flush finds bits pending. -/
theorem exec_flush_emits_iff {s t : State} (h : exec .flush s = .next t) :
    (t.w.task.isSome ∨ t.w.log ≠ s.w.log) ↔ s.w.cur ≠ 0 := by
  obtain ⟨-, ha⟩ := whenIdleW_next h
  split at ha
  · exact iff_of_false (respondW_emits_not ha) (not_not.2 ‹_›)
  · exact iff_of_true ((finishWrite_emits_iff ha).2 (emitStep_emits _)) ‹_›

theorem exec_flushones_emits_iff {s t : State} (h : exec .flushones s = .next t) :
    (t.w.task.isSome ∨ t.w.log ≠ s.w.log) ↔ s.w.cur ≠ 0 := by
  obtain ⟨-, ha⟩ := whenIdleW_next h
  split at ha
  · exact iff_of_false (respondW_emits_not ha) (not_not.2 ‹_›)
  · exact iff_of_true ((finishWrite_emits_iff ha).2 (emitStep_emits (padWithOnes s.w))) ‹_›

/-- Settles O39: each command by the outcome of its step or loop, and the reset lines by their effect. -/
theorem emissionCondition : Obligations.EmissionCondition := by
  unfold Obligations.EmissionCondition
  refine ⟨fun i s t hu h => ?command, fun s t rest h hin => ?reset⟩
  case command =>
    cases i with
    | readbit => cases hu
    | readbits n => cases hu
    | writebit x =>
      obtain ⟨-, ha⟩ := whenIdleW_next h
      exact (finishWrite_emits_iff ha).trans (wbStep_emits_iff x s.w)
    | writebits n buf => exact exec_writebits_emits_iff h
    | flush => exact exec_flush_emits_iff h
    | flushones => exact exec_flushones_emits_iff h
  case reset =>
    rcases hin with hin | hin <;>
    · rw [step_cons hin] at h
      cases h
      rfl

end Sys2Proof.Machine

/-!
PROOFS. The statement of 60_exceptions.md about overlapping commands (R212): every way a port's record can
go, as a command, an illegal command or a record no port carries, ends in a refusal when the unit is busy.
-/

namespace Sys2Proof.Machine

/-! ## The port's unit is the command's unit -/

theorem decodeReader_unit {c : CommandRecord} {i : Instr} (h : decodeReader c = .instr i) :
    i.unit = .unitR := by
  unfold decodeReader at h
  split at h <;> cases h <;> rfl

theorem decodeWritebits_unit {c : CommandRecord} {i : Instr} (h : decodeWritebits c = .instr i) :
    i.unit = .unitW := by
  unfold decodeWritebits at h
  split at h
  · cases h
  · split at h <;> cases h
    rfl

theorem decodeWriter_unit {c : CommandRecord} {i : Instr} (h : decodeWriter c = .instr i) :
    i.unit = .unitW := by
  unfold decodeWriter at h
  split at h
  case h_2 => exact decodeWritebits_unit h
  all_goals cases h <;> rfl

/-- A port decodes only commands of its own unit (R74, R79 (c)). -/
theorem decode_instr_unit {port : UnitId} {c : CommandRecord} {i : Instr}
    (h : decode port c = .instr i) : i.unit = port := by
  unfold decode at h
  split at h
  · cases h
  · split at h
    · cases h
    · cases port with
      | unitR => exact decodeReader_unit h
      | unitW => exact decodeWriter_unit h

/-! ## Records at a busy port -/

theorem whenIdleR_busy {s : State} (h : s.busy .unitR = true)
    (act : Host.Outcome State Fault Refusal) :
    whenIdleR s act = .refused (.overlappingCommands .unitR) := if_pos h

theorem whenIdleW_busy {s : State} (h : s.busy .unitW = true)
    (act : Host.Outcome State Fault Refusal) :
    whenIdleW s act = .refused (.overlappingCommands .unitW) := if_pos h

theorem exec_busy {i : Instr} {s : State} (h : s.busy i.unit = true) :
    exec i s = .refused (.overlappingCommands i.unit) := by
  cases i with
  | readbit => exact whenIdleR_busy h _
  | readbits n => exact whenIdleR_busy h _
  | writebit x => exact whenIdleW_busy h _
  | writebits n buf => exact whenIdleW_busy h _
  | flush => exact whenIdleW_busy h _
  | flushones => exact whenIdleW_busy h _

theorem execIllegal_busy {port : UnitId} {s : State} (h : s.busy port = true) :
    execIllegal port s = .refused (.overlappingCommands port) := by
  cases port with
  | unitR => exact whenIdleR_busy h _
  | unitW => exact whenIdleW_busy h _

/-- A record at a busy port overlaps the command in flight, or is one that no port carries. -/
theorem receive_busy {port : UnitId} {s : State} (h : s.busy port = true) (c : CommandRecord) :
    receive port c s = .refused (.overlappingCommands port) ∨
      ∃ why, receive port c s = .refused (.malformedRecord why) := by
  unfold receive
  cases hd : decode port c with
  | instr i =>
    obtain rfl := decode_instr_unit hd
    exact .inl (exec_busy h)
  | reject why =>
    by_cases hw : why.isIllegal = true
    · exact .inl ((if_pos hw).trans (execIllegal_busy h))
    · exact .inr ⟨why, if_neg hw⟩

/-- Settles O8: the step is the port's receipt of the record, and taking the input leaves the unit busy. -/
theorem overlappingCommandsAreRefused : Obligations.OverlappingCommandsAreRefused := by
  unfold Obligations.OverlappingCommandsAreRefused
  intro s port c rest hin hbusy
  have hbusy' : ({ s with inputs := rest } : State).busy port = true := by
    cases port <;> exact hbusy
  rw [step_cons hin]
  rcases receive_busy hbusy' c with h | ⟨why, h⟩
  · exact ⟨_, h⟩
  · exact ⟨_, h⟩

end Sys2Proof.Machine

/-!
PROOFS. The statements of 70_reset_and_hazards.md about a reset line asserted while its unit is idle (R231,
R232): such a reset writes the unit's registers and nothing else.
-/

namespace Sys2Proof.Machine

/-! ## Reset of an idle unit -/

/-- An idle unit R has no request out, so its reset leaves no answer to discard (R233). -/
theorem ReaderUnit.applyReset_idle {r : ReaderUnit} (h : r.task = none) :
    r.applyReset = { r with cur := 0, byte := none, eos := false } := by
  simp [ReaderUnit.applyReset, h]

/-- An idle unit W has no offer out, so its reset leaves no answer to discard (R233). -/
theorem WriterUnit.applyReset_idle {w : WriterUnit} (h : w.task = none) :
    w.applyReset = { w with cur := 0, acc := 0x00 } := by
  simp [WriterUnit.applyReset, h]

theorem step_resetR_idle {s : State} {rest : List Input} (hin : s.inputs = .resetR :: rest)
    (hi : s.r.task = none) :
    step s = .next { s with r := { s.r with cur := 0, byte := none, eos := false }, inputs := rest } := by
  rw [step_cons hin, ← ReaderUnit.applyReset_idle hi]
  rfl

theorem step_resetW_idle {s : State} {rest : List Input} (hin : s.inputs = .resetW :: rest)
    (hi : s.w.task = none) :
    step s = .next { s with w := { s.w with cur := 0, acc := 0x00 }, inputs := rest } := by
  rw [step_cons hin, ← WriterUnit.applyReset_idle hi]
  rfl

/-- With the cursor at 0 no written bit is pending, whatever the accumulator holds. -/
theorem WriterUnit.pendingBits_boundary {w : WriterUnit} (h : w.cur = 0) : w.pendingBits = [] := by
  simp [WriterUnit.pendingBits, h]

/-! ## Steps and commands in sequence -/

theorem run_succ_next {s t : State} (h : step s = .next t) (k : Nat) :
    Sys2Proof.core.run (k + 1) s = Sys2Proof.core.run k t := by
  have hcore : Sys2Proof.core.step s = .next t := h
  simp only [Host.Core.run, hcore]

theorem run_one_next {s t : State} (h : step s = .next t) : Sys2Proof.core.run 1 s = .next t :=
  run_succ_next h 0

/-- A step whose input is a record the port decodes is the instruction's meaning (R74). -/
theorem step_command {port : UnitId} {c : CommandRecord} {i : Instr} {s : State} {rest : List Input}
    (hin : s.inputs = .command port c :: rest) (hd : decode port c = .instr i) :
    step s = exec i { s with inputs := rest } := by
  simp only [step_cons hin, runInput, receive, hd]

/-! ## The statements -/

/-- Settles O13: the reset puts unit R at a byte boundary, not exhausted, where READBIT is O16's fetch. -/
theorem readerFetchesAfterReset : Obligations.ReaderFetchesAfterReset := by
  unfold Obligations.ReaderFetchesAfterReset
  intro s c v more rest hin hop hi ha
  obtain ⟨hdecode, hreadbit⟩ := readbitResult
  have hreset := step_resetR_idle hin hi
  refine ⟨run_one_next hreset, ?_⟩
  rw [run_succ_next hreset]
  apply run_one_next
  rw [step_command rfl (hdecode c hop)]
  obtain ⟨-, -, hfetch, -, -⟩ := hreadbit
    { s with r := { s.r with cur := 0, byte := none, eos := false }, inputs := rest } hi
  exact hfetch rfl rfl v more ha

/-- Settles O14: the reset writes the two registers, so the sink's log stands and the cursor is at 0. -/
theorem writerResetDiscardsPendingBits : Obligations.WriterResetDiscardsPendingBits := by
  unfold Obligations.WriterResetDiscardsPendingBits
  intro s rest hin hi
  have hreset := step_resetW_idle hin hi
  refine ⟨hreset, fun t ht => ?_⟩
  rw [hreset] at ht
  cases ht
  exact ⟨WriterUnit.pendingBits_boundary rfl, rfl⟩

end Sys2Proof.Machine

/-!
PROOFS. The statements of 30_encoding.md about records (R71 to R81): exactly which records a port reads as
which instruction, and from that the encoder's and the assembler's records read back.
-/

namespace Sys2Proof.Machine

/-! ## What a port reads -/

/-- Unit R's port reads R74's two rows for it and nothing else. -/
theorem decode_unitR_iff {c : CommandRecord} {i : Instr} :
    decode .unitR c = .instr i ↔
      (opField c.header = 0x01 ∧ i = .readbit) ∨
        (opField c.header = 0x02 ∧ i = .readbits (aField c.header)) := by
  constructor
  · intro h
    rw [decode_by_opcode] at h
    split at h
    · cases h
    · split at h
      · cases h
      · simp only at h
        split at h
        · cases h; exact .inl ⟨‹_›, rfl⟩
        · split at h
          · cases h; exact .inr ⟨‹_›, rfl⟩
          · cases h
  · rintro (⟨hop, rfl⟩ | ⟨hop, rfl⟩)
    · exact readbitResult.1 c hop
    · exact readbitsIsRepeatedReadbit.1 c hop

/-- WRITEBITS' operands are read from a record whose payload is the `len` bytes it says (R9, R73). -/
theorem decodeWritebits_iff {c : CommandRecord} {i : Instr} :
    decodeWritebits c = .instr i ↔
      i = .writebits (aField c.header) c.payload ∧
        c.payload.length = (lenField c.header).toNat ∧ c.payload.length < 2 ^ 63 := by
  unfold decodeWritebits maxLen
  split
  · simp only [reduceCtorEq, false_iff]
    omega
  · split
    · simp only [Decoded.instr.injEq, eq_comm (b := i)]
      exact ⟨fun h => ⟨h, ‹_›, by omega⟩, fun h => h.1⟩
    · simp only [reduceCtorEq, false_iff]
      exact fun h => absurd h.2.1 ‹_›

/-- Unit W's port reads R74's four rows for it and nothing else. -/
theorem decode_unitW_iff {c : CommandRecord} {i : Instr} :
    decode .unitW c = .instr i ↔
      (opField c.header = 0x81 ∧ i = .writebit (aField c.header)) ∨
        (opField c.header = 0x82 ∧ decodeWritebits c = .instr i) ∨
        (opField c.header = 0x83 ∧ i = .flush) ∨ (opField c.header = 0x84 ∧ i = .flushones) := by
  constructor
  · intro h
    rw [decode_by_opcode] at h
    split at h
    · cases h
    · split at h
      · cases h
      · simp only at h
        split at h
        · cases h; exact .inl ⟨‹_›, rfl⟩
        · split at h
          · exact .inr (.inl ⟨‹_›, h⟩)
          · split at h
            · cases h; exact .inr (.inr (.inl ⟨‹_›, rfl⟩))
            · split at h
              · cases h; exact .inr (.inr (.inr ⟨‹_›, rfl⟩))
              · cases h
  · rintro (⟨hop, rfl⟩ | ⟨hop, h⟩ | ⟨hop, rfl⟩ | ⟨hop, rfl⟩)
    · exact writebitResult.1 c hop
    · obtain ⟨rfl, hlen, hmax⟩ := decodeWritebits_iff.1 h
      exact decode_writebits hop hlen hmax
    · exact flushResult.1 c hop
    · exact flushonesResult.1 c hop

/-- Settles O2: each instruction against the rows its port reads. -/
theorem decodeMatchesAllOpcodeBits : Obligations.DecodeMatchesAllOpcodeBits := by
  unfold Obligations.DecodeMatchesAllOpcodeBits
  intro port c i
  cases port with
  | unitR => cases i <;> simp [decode_unitR_iff, eq_comm]
  | unitW =>
    cases i with
    | writebits n buf =>
      simp only [decode_unitW_iff, decodeWritebits_iff, reduceCtorEq, Instr.writebits.injEq,
        and_false, false_or, or_false, true_and]
      constructor
      · rintro ⟨hop, ⟨rfl, rfl⟩, hlen, hmax⟩
        exact ⟨hop, rfl, rfl, hlen, hmax⟩
      · rintro ⟨hop, rfl, rfl, hlen, hmax⟩
        exact ⟨hop, ⟨rfl, rfl⟩, hlen, hmax⟩
    | readbit => simp [decode_unitW_iff, decodeWritebits_iff]
    | readbits n => simp [decode_unitW_iff, decodeWritebits_iff]
    | writebit x => simp [decode_unitW_iff, decodeWritebits_iff, eq_comm]
    | flush => simp [decode_unitW_iff, decodeWritebits_iff]
    | flushones => simp [decode_unitW_iff, decodeWritebits_iff]

/-! ## Records made by the encoder and the assembler -/

/-- Settles O1: the encoded record has the opcode and the operands that O2 asks for. -/
theorem decodeOfEncodeIsTheInstruction : Obligations.DecodeOfEncodeIsTheInstruction := by
  unfold Obligations.DecodeOfEncodeIsTheInstruction
  intro i hwf
  rw [decodeMatchesAllOpcodeBits]
  have hop : opField (encode i).header = i.opcode := opField_packHeader _ _ _
  have ha : aField (encode i).header = i.aOperand := aField_packHeader _ _ _
  cases i with
  | readbit => exact ⟨rfl, hop⟩
  | readbits n => exact ⟨rfl, hop, ha⟩
  | writebit x => exact ⟨rfl, hop, ha⟩
  | writebits n buf =>
    obtain ⟨-, -, -, -, hlen⟩ := Laws.EncodedFields.writebits n buf
    have hmax : buf.length ≤ maxLen := of_decide_eq_true hwf
    exact ⟨rfl, hop, ha, rfl, (hlen hwf).symm, by unfold maxLen at hmax; omega⟩
  | flush => exact ⟨rfl, hop⟩
  | flushones => exact ⟨rfl, hop⟩

/-- Settles O4: each word is read by evaluating its port's decoder. -/
theorem writtenOutWordsDecode : Obligations.WrittenOutWordsDecode := by
  unfold Obligations.WrittenOutWordsDecode
  decide

/-- An integer that fits a word is read back from its two's complement (R75). -/
theorem sint_ofInt {n : Int} (h : -2 ^ 63 ≤ n ∧ n < 2 ^ 63) : sint (BitVec.ofInt 64 n) = n :=
  BitVec.toInt_ofInt_eq_self (by decide) h.1 h.2

/-- A line whose integers fit is an instruction some record carries. -/
theorem wellFormed_toInstr {l : AsmLine} (h : l.wellFormed = true) : l.toInstr.wellFormed = true := by
  cases l with
  | writebits n buf => exact (Bool.and_eq_true_iff.1 h).2
  | readbit => rfl
  | readbits n => rfl
  | writebit b => rfl
  | flush => rfl
  | flushones => rfl

/-- Settles O5: the decoding from O1, the operands from the two's complement. -/
theorem assembledLinesReadBack : Obligations.AssembledLinesReadBack := by
  unfold Obligations.AssembledLinesReadBack
  intro l hwf
  refine ⟨decodeOfEncodeIsTheInstruction _ (wellFormed_toInstr hwf), ?_⟩
  cases l with
  | readbit => rfl
  | readbits n => exact ⟨_, rfl, sint_ofInt (of_decide_eq_true hwf)⟩
  | writebit b => exact ⟨_, rfl, sint_ofInt (of_decide_eq_true hwf)⟩
  | writebits n buf =>
    obtain ⟨hn, hmax⟩ := Bool.and_eq_true_iff.1 hwf
    have hmax : buf.length ≤ maxLen := of_decide_eq_true hmax
    refine ⟨_, _, rfl, sint_ofInt (of_decide_eq_true hn), ?_⟩
    rw [BitVec.toNat_ofNat]
    exact Nat.mod_eq_of_lt (show buf.length < 2 ^ 64 by unfold maxLen at hmax; omega)
  | flush => rfl
  | flushones => rfl

end Sys2Proof.Machine

/-!
PROOFS. The statements of 40_reader.md about READBITS and its loop: the bits it delivers, the transactions
it makes, how it waits and where it faults, and the round trip of a byte list.
-/

namespace Sys2Proof.Machine

/-! ## READBITS with its bits available -/

theorem ofNat_toNat_word (n : Word) : BitVec.ofNat 64 n.toNat = n := by simp

/-- READBITS with n bits available answers OK with them, and unit R has read them. -/
theorem exec_readbits_available {n : Word} {s : State} (hi : s.r.task = none) (hinv : s.r.Inv)
    (he : s.r.eos = false) (hn : 0 < sint n) (hlen : n.toNat ≤ s.r.availableBits.length) :
    ∃ r, Reads n.toNat s.r r ∧ exec (.readbits n) s = .next { s with
      r := { r with responses := s.r.responses ++
        [⟨0, 0, n, none, packBits (s.r.availableBits.take n.toNat)⟩] } } := by
  obtain ⟨hbyte, -, -, -⟩ := hinv
  obtain ⟨pk, r, hl, hpk, hreads⟩ := readLoop_available (k := 0) he hbyte Pack.holds_empty hlen
  rw [Nat.zero_add] at hl
  refine ⟨r, hreads, (exec_readbits_done hi hn hl hpk).trans ?_⟩
  rw [ofNat_toNat_word]
  rfl

/-- Settles O21: the loop reads the available bits, and the response carries them. -/
theorem readbitsDeliversTheNextBits : Obligations.ReadbitsDeliversTheNextBits := by
  unfold Obligations.ReadbitsDeliversTheNextBits
  intro n s hi hinv he hn hlen
  obtain ⟨r, hreads, hexec⟩ := exec_readbits_available hi hinv he hn hlen
  exact ⟨_, hexec, rfl, hreads.stream, hreads.cur, hreads.eos, hreads.task.trans hi, hreads.fetched,
    hreads.source, hreads.stale, rfl, rfl⟩

/-! ## READBITS when the source falls silent -/

/-- READBITS' loop waits at the first bit step that has no answer. -/
theorem readLoop_waits {m n k k' : Nat} {pk pk' : Pack} {r r' : ReaderUnit}
    (hl : readLoop m k pk r = .done .ok k' pk' r') (hm : m < n) (hs : rbStep r' = .wait) :
    readLoop n k pk r = .wait (n - m) k' pk' r' := by
  obtain ⟨d, rfl⟩ := Nat.exists_eq_add_of_lt hm
  rw [Nat.add_assoc, readLoop_add hl, Nat.add_sub_cancel_left]
  simp [readLoop, hs]

/-- READBITS stays in flight where its loop waits. -/
theorem exec_readbits_wait {s : State} {n : Word} {rem k : Nat} {pk : Pack} {r : ReaderUnit}
    (hi : s.r.task = none) (hn : 0 < sint n)
    (hl : readLoop n.toNat 0 Pack.empty s.r = .wait rem k pk r) :
    exec (.readbits n) s = .next { s with r := { r with task := some (.readbits rem k pk) } } := by
  simp only [exec, execReadbits, whenIdleR_idle hi, if_neg (not_le.2 hn), sint_toNat hn, hl,
    finishReadbits]

/-- READBITS that finds fewer than n bits before the source falls silent reads them and waits. -/
theorem exec_readbits_silent {n : Word} {s : State} (hi : s.r.task = none) (hinv : s.r.Inv)
    (he : s.r.eos = false) (hn : 0 < sint n) (hlen : s.r.availableBits.length < n.toNat)
    (hafter : afterLeadingBytes s.r.answers = []) :
    ∃ pk r, pk.Holds s.r.availableBits ∧ Reads s.r.availableBits.length s.r r ∧ r.cur = 0 ∧
      r.answers = [] ∧ exec (.readbits n) s = .next { s with
        r := { r with task := some (.readbits (n.toNat - s.r.availableBits.length)
          s.r.availableBits.length pk) } } := by
  obtain ⟨hbyte, -, -, -⟩ := hinv
  obtain ⟨pk, r, hl, hpk, hreads, hcur, hans⟩ := readLoop_drains he hbyte
  rw [hafter] at hans
  have hwait := readLoop_waits hl hlen (rbStep_silent hreads.eos hcur hans)
  exact ⟨pk, r, hpk, hreads, hcur, hans, exec_readbits_wait hi hn hwait⟩

/-- Settles O23: the loop drains the available bits into the pack unit it waits with. -/
theorem readbitsWaitsForTheSource : Obligations.ReadbitsWaitsForTheSource := by
  unfold Obligations.ReadbitsWaitsForTheSource
  intro n s hi hinv he hn hlen hafter
  obtain ⟨pk, r, hpk, hreads, hcur, hans, hexec⟩ :=
    exec_readbits_silent hi hinv he hn hlen hafter
  have hsource := hreads.source
  rw [hans, List.append_nil] at hsource
  exact ⟨_, pk, hexec, rfl, Pack.holds_finish hpk, hreads.responses, hcur, hreads.eos, hans, hsource,
    rfl, rfl⟩

/-! ## READBITS' transactions -/

/-- READBITS that the source ends early answers the refused fetch's status, with the bits before it. -/
theorem exec_readbits_refused {n : Word} {s : State} {a : SourceAnswer} {rest : List SourceAnswer}
    (hi : s.r.task = none) (hinv : s.r.Inv) (he : s.r.eos = false) (hn : 0 < sint n)
    (hlen : s.r.availableBits.length < n.toNat)
    (hafter : afterLeadingBytes s.r.answers = a :: rest) :
    ∃ (st : Status) (r : ReaderUnit), st.code ≠ 0 ∧ r.cur = 0 ∧ Reads s.r.availableBits.length s.r r ∧
      exec (.readbits n) s = .next { s with
        r := { answered a rest r with responses := s.r.responses ++
          [⟨st.code, 0, BitVec.ofNat 64 s.r.availableBits.length, st.err,
            packBits s.r.availableBits⟩] } } := by
  obtain ⟨hbyte, -, -, -⟩ := hinv
  obtain ⟨pk, r, hl, hpk, hreads, hcur, hans⟩ := readLoop_drains he hbyte
  rw [hafter] at hans
  obtain ⟨st, hs, -⟩ := rbStep_refused hreads.eos hcur hans (afterLeadingBytes_head hafter)
  exact ⟨st, r, rbStep_stop_code hs, hcur, hreads,
    exec_readbits_done hi hn (readLoop_stops hl hlen hs) hpk⟩

/-- Settles O27: by what follows the available bits, from the count that `Reads` keeps. -/
theorem readbitsTransactionCount : Obligations.ReadbitsTransactionCount := by
  unfold Obligations.ReadbitsTransactionCount
  intro n s t p hi hinv he hn h hp
  dsimp only
  by_cases hlen : n.toNat ≤ s.r.availableBits.length
  · obtain ⟨r, hreads, hexec⟩ := exec_readbits_available hi hinv he hn hlen
    cases hexec.symm.trans h
    obtain rfl := List.singleton_inj.1 (List.append_cancel_left hp)
    exact ⟨fun _ => ⟨rfl, hreads.count, hreads.cur⟩, fun hne => absurd rfl hne⟩
  · rw [not_le] at hlen
    cases hafter : afterLeadingBytes s.r.answers with
    | nil =>
      obtain ⟨pk, r, -, hreads, -, -, hexec⟩ := exec_readbits_silent hi hinv he hn hlen hafter
      cases hexec.symm.trans h
      rw [hreads.responses] at hp
      simp at hp
    | cons a rest =>
      obtain ⟨st, r, hcode, hcur, hreads, hexec⟩ := exec_readbits_refused hi hinv he hn hlen hafter
      cases hexec.symm.trans h
      obtain rfl := List.singleton_inj.1 (List.append_cancel_left hp)
      have hcount : (BitVec.ofNat 64 s.r.availableBits.length).toNat = s.r.availableBits.length := by
        rw [BitVec.toNat_ofNat, Nat.mod_eq_of_lt (hlen.trans n.isLt)]
      refine ⟨fun heq => absurd heq hcode, fun _ => ⟨by rw [hcount]; exact hlen, ?_, hcur⟩⟩
      rw [hcount]
      simp [hreads.count, boundaries]

/-! ## Reads of an absent byte -/

/-- Settles O17: the first bit step reads the absent byte. -/
theorem absentByteReadFaults : Obligations.AbsentByteReadFaults := by
  unfold Obligations.AbsentByteReadFaults
  intro s n hi he hc hb
  have hs := rbStep_absent he hc hb
  refine ⟨by rw [exec_readbit_idle hi, hs, finishReadbit], fun hn => ?_⟩
  obtain ⟨m, hm⟩ := Nat.exists_eq_add_of_lt (show 0 < (sint n).toNat by omega)
  simp only [exec, execReadbits, whenIdleR_idle hi, if_neg (not_le.2 hn), hm, readLoop, hs,
    finishReadbits]

/-! ## Round trip -/

theorem execAll_append_next {is js : List Instr} {s t : State} (h : execAll is s = .next t) :
    execAll (is ++ js) s = execAll js t := by rw [execAll_append, h]

/-- What reading n bits does is the same whatever responses were delivered before. -/
theorem Reads.with_responses {n : Nat} {r r' : ReaderUnit} (h : Reads n r r') (l : List Response) :
    Reads n { r with responses := l } { r' with responses := l } :=
  ⟨h.eos, h.byte, h.stream, h.cur, h.task, h.stale, rfl, h.source, h.after, h.count, h.fetched⟩

/-- The response of a READBIT that read a bit. -/
def bitResponse (b : Bool) : Response := ⟨0, BitVec.ofBool b, 0, none, []⟩

/-- READBITs read the available bits one by one, and answer them. -/
theorem execAll_readbits_available {n : Nat} : ∀ {s : State}, s.r.task = none → s.r.eos = false →
    (s.r.cur ≠ 0 → s.r.byte.isSome) → n ≤ s.r.availableBits.length →
    ∃ r, execAll (List.replicate n .readbit) s = .next { s with r := r } ∧
      Reads n { s.r with responses := s.r.responses ++ (s.r.availableBits.take n).map bitResponse } r := by
  induction n with
  | zero =>
    intro s _ he hb _
    exact ⟨s.r, rfl, by simpa using Reads.zero he hb⟩
  | succ n ih =>
    intro s hi he hb hn
    obtain ⟨b, bits, hav⟩ := List.exists_cons_of_length_pos (Nat.lt_of_lt_of_le n.succ_pos hn)
    obtain ⟨r₁, hs, h₁⟩ := rbStep_available he hb hav
    have hrest : r₁.availableBits = bits := by rw [h₁.stream, hav]; rfl
    have hresp : s.r.responses ++ [bitResponse b] ++ (r₁.availableBits.take n).map bitResponse =
        s.r.responses ++ (s.r.availableBits.take (n + 1)).map bitResponse := by simp [hrest, hav]
    obtain ⟨r, hexec, h₂⟩ := ih
      (s := { s with r := { r₁ with responses := s.r.responses ++ [bitResponse b] } })
      (h₁.task.trans hi) h₁.eos h₁.byte
      (by change n ≤ r₁.availableBits.length; rw [hrest]; simpa [hav] using hn)
    refine ⟨r, ?_, (h₁.with_responses _).succ (hresp ▸ h₂)⟩
    rw [List.replicate_succ, execAll_cons_next (exec_readbit_bit hi hs)]
    exact hexec

/-- Unit R that has read every available bit stands at the answer after the leading bytes. -/
theorem Reads.drained {n : Nat} {r r' : ReaderUnit} (h : Reads n r r')
    (hn : r.availableBits.length ≤ n) : r'.cur = 0 ∧ r'.answers = afterLeadingBytes r.answers := by
  obtain ⟨hcur, hlead⟩ :=
    availableBits_nil h.byte (by rw [h.stream, List.drop_eq_nil_of_le hn])
  exact ⟨hcur, by rw [← h.after, afterLeadingBytes_of_none hlead]⟩

theorem leadingBytes_bytes (bs : List Byte) (a : List SourceAnswer) :
    leadingBytes (bs.map .byte ++ a) = bs ++ leadingBytes a := by
  induction bs with
  | nil => rfl
  | cons v bs ih => simp [leadingBytes, ih]

theorem afterLeadingBytes_bytes (bs : List Byte) (a : List SourceAnswer) :
    afterLeadingBytes (bs.map .byte ++ a) = afterLeadingBytes a := by
  induction bs with
  | nil => rfl
  | cons v bs ih => exact ih

/-- A log that holds a byte list's answers and then answers without a byte has consumed that list. -/
theorem consumed_of_bytes {r : ReaderUnit} {bs : List Byte} {a : List SourceAnswer}
    (hlog : r.log = bs.map .byte ++ a) (ha : a.filterMap SourceAnswer.delivered = []) :
    r.consumed = bs := by
  simp [ReaderUnit.consumed, hlog, ha, List.filterMap_map, Function.comp_def]

/-- A just-reset unit R whose source answers a byte list and then EOS. -/
def ReaderUnit.replaying (bs : List Byte) : ReaderUnit :=
  { ReaderUnit.reset with answers := bs.map .byte ++ [.eos] }

theorem ReaderUnit.replaying_inv (bs : List Byte) : (ReaderUnit.replaying bs).Inv :=
  ⟨nofun, nofun, trivial, nofun⟩

@[simp] theorem ReaderUnit.replaying_availableBits (bs : List Byte) :
    (ReaderUnit.replaying bs).availableBits = bitsOf bs := by
  simp [availableBits, replaying, pendingBits, reset, leadingBytes_bytes, leadingBytes]

/-- A replaying unit R that has read every bit has logged the bytes, and its next answer is EOS. -/
theorem Reads.replayed {bs : List Byte} {r : ReaderUnit} {l : List Response}
    (h : Reads (8 * bs.length) { ReaderUnit.replaying bs with responses := l } r) :
    r.cur = 0 ∧ r.answers = [.eos] ∧ r.log = bs.map .byte := by
  have hbits : (ReaderUnit.replaying bs).availableBits.length ≤ 8 * bs.length := by simp
  obtain ⟨hcur, hans⟩ := h.drained hbits
  rw [ReaderUnit.replaying, afterLeadingBytes_bytes] at hans
  have hsource := h.source
  rw [hans] at hsource
  exact ⟨hcur, hans, List.append_cancel_right hsource⟩

/-- READBITs of every bit of a replayed list, and one more. -/
theorem execAll_readbits_replaying {bs : List Byte} {s : State} (hr : s.r = .replaying bs) :
    ∃ t, execAll (List.replicate (8 * bs.length) .readbit ++ [.readbit]) s = .next t ∧
      t.r.responses = (List.range (8 * bs.length)).map (fun k => bitResponse (bufBit bs k)) ++
        [⟨1, 0, 0, none, []⟩] ∧ t.r.consumed = bs := by
  obtain ⟨r, hexec, hreads⟩ := execAll_readbits_available (s := s) (n := 8 * bs.length)
    (by rw [hr]; rfl) (by rw [hr]; rfl) (by rw [hr]; nofun) (by simp [hr])
  have hbits : (bitsOf bs).take (8 * bs.length) =
      (List.range (8 * bs.length)).map fun k => bufBit bs k := by
    simpa [bufBits] using (bufBits_zero_eq_take (le_refl (8 * bs.length))).symm
  rw [hr, ReaderUnit.replaying_availableBits, hbits] at hreads
  obtain ⟨hcur, hans, hlog⟩ := hreads.replayed
  have heos := exec_readbit_stop (s := { s with r := r }) hreads.task
    (rbStep_eos hreads.eos hcur hans)
  refine ⟨_, (execAll_append_next hexec).trans (execAll_cons_next heos), ?_, ?_⟩
  · change r.responses ++ _ = _
    rw [hreads.responses, List.map_map]
    rfl
  · exact consumed_of_bytes (a := [.eos]) (congrArg (· ++ [.eos]) hlog) rfl

/-- One READBITS of every bit of a replayed list. -/
theorem exec_readbits_replaying {bs : List Byte} {s : State} (hlen : 8 * bs.length < 2 ^ 63)
    (hr : s.r = .replaying bs) :
    ∃ t, exec (.readbits (BitVec.ofNat 64 (8 * bs.length))) s = .next t ∧
      t.r.responses = [⟨0, 0, BitVec.ofNat 64 (8 * bs.length), none, bs⟩] ∧ t.r.consumed = bs := by
  by_cases h₀ : bs = []
  · subst h₀
    refine ⟨_, readbitsNonPositiveIsNoOp _ s (by decide) (by rw [hr]; rfl), ?_, ?_⟩
    · rw [hr]; rfl
    · rw [hr]; rfl
  · have hpos : 0 < bs.length := List.length_pos_iff.2 h₀
    have hn : (BitVec.ofNat 64 (8 * bs.length)).toNat = 8 * bs.length := by
      rw [BitVec.toNat_ofNat, Nat.mod_eq_of_lt (by omega)]
    obtain ⟨r, hreads, hexec⟩ := exec_readbits_available (n := BitVec.ofNat 64 (8 * bs.length))
      (s := s) (by rw [hr]; rfl) (by rw [hr]; exact ReaderUnit.replaying_inv bs) (by rw [hr]; rfl)
      (by rw [sint, BitVec.toInt_eq_toNat_of_lt (by omega), hn]; omega) (by simp [hr, hn])
    rw [hn, hr] at hreads
    obtain ⟨-, -, hlog⟩ := hreads.replayed (l := [])
    have hbits : (bitsOf bs).take (8 * bs.length) = bitsOf bs := List.take_of_length_le (by simp)
    refine ⟨_, hexec, ?_, consumed_of_bytes (a := []) (by simpa using hlog) rfl⟩
    simp only [hr, hn, ReaderUnit.replaying_availableBits, hbits, packBits_bitsOf]
    rfl

/-- Settles O28: the READBITs one by one, and READBITS as O21 says, from a replaying unit R. -/
theorem readerRoundTrip : Obligations.ReaderRoundTrip := by
  unfold Obligations.ReaderRoundTrip
  intro bs s hlen hr
  exact ⟨execAll_readbits_replaying hr, exec_readbits_replaying hlen hr⟩

end Sys2Proof.Machine

/-!
PROOFS. The statements of 41_writer.md about WRITEBITS by its bits (R144 to R147): every bit written while
the sink accepts, and the bit that completes a byte the sink rejects or does not answer.
-/

namespace Sys2Proof.Machine

/-! ## WRITEBITS while the sink accepts -/

/-- What the accepted bits leave of the answers. -/
theorem Writes.answers_eq {bits : List Bool} {w w' : WriterUnit} {rest : List SinkAnswer}
    (h : Writes bits w w')
    (ha : w.answers = List.replicate ((w.cur.val + bits.length) / 8) .ack ++ rest) :
    w'.answers = rest := List.append_cancel_left (h.answers.symm.trans ha)

/-- Settles O33: the loop writes all its bits, and what it leaves is what `Writes` says. -/
theorem writebitsAppendsTheBufferBits : Obligations.WritebitsAppendsTheBufferBits := by
  unfold Obligations.WritebitsAppendsTheBufferBits
  intro n buf s rest hi hclean hn m ha
  obtain ⟨w, hl, hw⟩ := writeLoop_writes (n := n.toNat) (b := 0) (j := 0) (buf := buf) hclean ⟨rest, ha⟩
  rw [Nat.zero_add, writeLoop] at hl
  have hbits : bufBits buf 0 m = (bitsOf buf).take m := bufBits_zero_eq_take (Nat.min_le_right _ _)
  have hlen : (bufBits buf 0 m).length = m := bufBits_length _ _ _
  have hcur := hw.cur
  have hcount := hw.count
  rw [hlen] at hcur hcount
  refine ⟨_, exec_writebits_done hi hn hl (hw.task.trans hi), ?_, hbits ▸ hw.written, hcur, hw.clean,
    hw.answers_eq (by rw [hlen]; exact ha), hcount, hw.log, hw.task.trans hi, hw.stale, hw.policy,
    rfl, rfl⟩
  change w.responses ++ _ = _
  rw [hw.responses]
  exact congrArg (s.w.responses ++ [·]) (exhaustion_response n buf)

/-! ## WRITEBITS at a byte the sink does not accept -/

/-- WRITEBITS' loop writes the bits of k accepted bytes and seven of the next, and comes to the bit that
completes it. -/
theorem writeLoop_to_completion {n k m : Nat} {buf : List Byte} {w : WriterUnit}
    {rest : List SinkAnswer} (hclean : w.Clean) (ha : w.answers = List.replicate k .ack ++ rest)
    (hm : 8 * k + 8 ≤ w.cur.val + m) :
    ∃ w' d, Writes (bufBits buf 0 (8 * k + 7 - w.cur.val)) w w' ∧ w'.cur = 7 ∧ w'.answers = rest ∧
      w'.log.length = w.log.length + k ∧
      writeLoop n buf m 0 w = writeLoop n buf (d + 1) (8 * k + 7 - w.cur.val) w' := by
  have hlt := w.cur.isLt
  obtain ⟨j, hj⟩ : ∃ j, j = 8 * k + 7 - w.cur.val := ⟨_, rfl⟩
  have hk : (w.cur.val + j) / 8 = k := by omega
  obtain ⟨d, rfl⟩ : ∃ d, m = j + (d + 1) := ⟨m - (j + 1), by omega⟩
  obtain ⟨w', hl, hw⟩ := writeLoop_writes (a := j) (n := n) (b := d + 1) (j := 0) (buf := buf) hclean
    ⟨rest, by rw [hk]; exact ha⟩
  have hcur := hw.cur
  have hcount := hw.count
  rw [bufBits_length] at hcur hcount
  rw [Nat.zero_add] at hl
  rw [← hj]
  refine ⟨w', d, hw, Fin.ext ?_, hw.answers_eq (by rw [bufBits_length, hk]; exact ha), ?_, hl⟩
  · rw [hcur]; change _ = 7; omega
  · rw [hcount, hk]

/-- The completed byte holds the pending bits and the bit that completes it. -/
theorem Writes.completed {buf : List Byte} {j : Nat} {w w' : WriterUnit}
    (h : Writes (bufBits buf 0 j) w w') (h7 : w'.cur = 7) (hj : j + 1 ≤ 8 * buf.length) :
    bitsOf w'.sinkOutput ++ byteBits (setBit w'.acc 7 (bufBit buf j)) =
      w.writtenBits ++ (bitsOf buf).take (j + 1) := by
  have hbits : bufBits buf 0 j ++ [bufBit buf j] = (bitsOf buf).take (j + 1) := by
    rw [← bufBits_zero_eq_take hj]
    simp [bufBits, List.range_succ]
  calc bitsOf w'.sinkOutput ++ byteBits (setBit w'.acc 7 (bufBit buf j))
      = w'.writtenBits ++ [bufBit buf j] := by
        rw [byteBits_completed h.clean h7, ← List.append_assoc, WriterUnit.writtenBits]
    _ = w.writtenBits ++ (bitsOf buf).take (j + 1) := by
        rw [h.written, List.append_assoc, hbits]

/-- A completing bit whose byte the sink rejects. -/
theorem writeBitAt_fail {b : Bool} {w : WriterUnit} {e : ErrT} {rest : List SinkAnswer}
    (h7 : w.cur = 7) (ha : w.answers = .fail e :: rest) :
    writeBitAt b w = .done (.iofail e) { w with
      acc := if w.policy = .hold then setBit w.acc 7 b else 0x00
      cur := if w.policy = .hold then 7 else 0
      answers := rest, log := w.log ++ [(setBit w.acc 7 b, .fail e)] } := by
  rw [writeBitAt_completes h7, emitStep_fail (by simpa using ha)]
  simp only [h7]

/-- Settles O34: the loop comes to the completing bit, whose byte is rejected. -/
theorem writebitsStopsAtTheFirstFailure : Obligations.WritebitsStopsAtTheFirstFailure := by
  unfold Obligations.WritebitsStopsAtTheFirstFailure
  intro n buf s k e rest hi hclean hn ha hm j
  obtain ⟨w, d, hw, h7, hans, hcount, hl⟩ :=
    writeLoop_to_completion (n := n.toNat) (buf := buf) hclean ha hm
  have hs := writeBitAt_fail (b := bufBit buf j) h7 hans
  have hlog := hw.log
  have hbits := hw.completed h7 (show j + 1 ≤ 8 * buf.length by have := s.w.cur.isLt; omega)
  rw [writeLoop_stops hs nofun] at hl
  refine ⟨_, exec_writebits_done hi hn hl (hw.task.trans hi),
    by rw [hw.responses]; rfl, ⟨setBit w.acc 7 (bufBit buf j), ?_, ?_, ?_, ?_⟩, rfl, ?_,
    hlog.trans (List.prefix_append _ _), hw.task.trans hi, hw.stale, hw.policy, rfl, rfl⟩
  · exact List.getLast?_concat
  · refine Eq.trans (congrArg (bitsOf · ++ _) ?_) hbits
    simp [WriterUnit.sinkOutput, List.filterMap_cons]
  · intro hp
    rw [← hw.policy] at hp
    exact ⟨if_pos hp, if_pos hp⟩
  · intro hp
    rw [← hw.policy] at hp
    simp [hp]
  · simp [hcount]

/-- WRITEBITS stays in flight where its loop waits. -/
theorem exec_writebits_wait {s : State} {n : Word} {buf : List Byte} {j : Nat} {w : WriterUnit}
    (hi : s.w.task = none) (hn : 0 < sint n)
    (hl : writeLoop n.toNat buf (bitsToWrite n.toNat buf) 0 s.w = .wait j w) :
    exec (.writebits n buf) s = .next { s with
      w := { w with task := some (.writebits n.toNat buf j) } } := by
  rw [exec, execWritebits, whenIdleW_idle hi, if_neg (not_le.2 hn), sint_toNat hn, hl, finishWritebits]

/-- WRITEBITS whose byte the sink does not answer stays in flight at the completing bit. -/
theorem exec_writebits_silent {n : Word} {buf : List Byte} {s : State} {k : Nat}
    (hi : s.w.task = none) (hclean : s.w.Clean) (hn : 0 < sint n)
    (ha : s.w.answers = List.replicate k .ack)
    (hm : 8 * k + 8 ≤ s.w.cur.val + bitsToWrite n.toNat buf) :
    ∃ w, Writes (bufBits buf 0 (8 * k + 7 - s.w.cur.val)) s.w w ∧ w.cur = 7 ∧ w.answers = [] ∧
      exec (.writebits n buf) s = .next { s with
        w := { w with acc := setBit w.acc 7 (bufBit buf (8 * k + 7 - s.w.cur.val))
                      task := some (.writebits n.toNat buf (8 * k + 7 - s.w.cur.val)) } } := by
  obtain ⟨w, d, hw, h7, hans, -, hl⟩ := writeLoop_to_completion (n := n.toNat) (buf := buf)
    (rest := []) hclean (by rw [List.append_nil]; exact ha) hm
  have hs := writeBitAt_completes (b := bufBit buf (8 * k + 7 - s.w.cur.val)) h7
  rw [emitStep_silent (by exact hans)] at hs
  rw [writeLoop, wbStep_bitInt, hs] at hl
  exact ⟨w, hw, h7, hans, exec_writebits_wait hi hn hl⟩

/-- Settles O35: the loop comes to the completing bit, whose byte is not answered. -/
theorem writebitsWaitsForTheSink : Obligations.WritebitsWaitsForTheSink := by
  unfold Obligations.WritebitsWaitsForTheSink
  intro n buf s k hi hclean hn ha hm j
  obtain ⟨w, hw, h7, hans, hexec⟩ := exec_writebits_silent hi hclean hn ha hm
  have hbits := hw.completed h7 (show j + 1 ≤ 8 * buf.length by have := s.w.cur.isLt; omega)
  exact ⟨_, hexec, rfl, hw.responses, h7, hans, hbits, rfl, rfl⟩

end Sys2Proof.Machine

/-!
PROOFS. The statements of 41_writer.md about the flushes and about streams of WRITEBITs (R148 to R153), and
the interchange contract of 20_memory.md section 6 (R66): what unit W wrote, unit R reads back.
-/

namespace Sys2Proof.Machine

/-! ## Repeated flushes -/

/-- A FLUSH that answered OK has left nothing pending. -/
theorem exec_flush_ok {s t : State} (h : exec .flush s = .next t)
    (hp : t.w.responses = s.w.responses ++ [⟨0, 0, 0, none, []⟩]) :
    t.w.task = none ∧ t.w.cur = 0 := by
  have hi : s.w.task = none := (exec_writer_end rfl h).1
  by_cases h₀ : s.w.cur = 0
  · rw [exec_flush_empty hi h₀] at h
    cases h
    exact ⟨hi, h₀⟩
  · rw [exec_flush_pending hi h₀] at h
    have hc := emitStep_cases s.w
    generalize emitStep s.w = res at h hc
    cases hc with
    | silent ha => cases h; simp at hp
    | ack rest ha => cases h; exact ⟨rfl, rfl⟩
    | fail e rest ha =>
      cases h
      have hst := congrArg Response.status (List.singleton_inj.1 (List.append_cancel_left hp))
      exact absurd hst (by simp [Status.code])

/-- With nothing pending, FLUSHes only answer OK. -/
theorem execAll_flushes_empty (k : Nat) : ∀ {s : State}, s.w.task = none → s.w.cur = 0 →
    execAll (List.replicate k .flush) s = .next { s with
      w := { s.w with responses := s.w.responses ++ List.replicate k ⟨0, 0, 0, none, []⟩ } } := by
  induction k with
  | zero =>
    intro s _ _
    simp [execAll]
  | succ k ih =>
    intro s hi h₀
    have hrest := ih (s := { s with
      w := { s.w with responses := s.w.responses ++ [⟨0, 0, 0, none, []⟩] } }) hi h₀
    rw [List.replicate_succ, execAll_cons_next (exec_flush_empty hi h₀), hrest, List.append_assoc]
    rfl

/-- Settles O40: the answered FLUSH leaves nothing pending, and then every FLUSH finds that. -/
theorem flushIsIdempotent : Obligations.FlushIsIdempotent := by
  unfold Obligations.FlushIsIdempotent
  intro s t k h hp
  obtain ⟨hi, h₀⟩ := exec_flush_ok h hp
  exact execAll_flushes_empty k hi h₀

/-! ## FLUSHONES as repeated WRITEBITs of 1 -/

/-- Setting the positions from the cursor on, one after another (R150). -/
theorem setBit_or_ones (v : Byte) {p : Position} (h : p ≠ 7) :
    setBit v p true ||| (0xFF#8 >>> (p + 1).val) = v ||| (0xFF#8 >>> p.val) := by
  apply byte_ext
  intro q
  have hle : (decide (p = q) || decide (p + 1 ≤ q)) = decide (p ≤ q) := by
    revert p q
    decide
  rw [bitAt_or, bitAt_setBit, bitAt_or, bitAt_ones, bitAt_ones, Bool.true_and, Bool.or_assoc, hle]

/-- The bit at position 7 is the last one that FLUSHONES sets. -/
theorem padWithOnes_last {w : WriterUnit} (h7 : w.cur = 7) :
    padWithOnes w = { w with acc := setBit w.acc w.cur true } := by
  simp only [padWithOnes, h7]
  rfl

/-- A 1 written before position 7 is one of those that FLUSHONES sets. -/
theorem padWithOnes_setBit {w : WriterUnit} (h7 : w.cur ≠ 7) :
    padWithOnes { w with acc := setBit w.acc w.cur true, cur := w.cur + 1 } = padWithOnes w := by
  simp only [padWithOnes, setBit_or_ones w.acc h7]

theorem execAll_singleton (i : Instr) (s : State) : execAll [i] s = exec i s := by
  rw [execAll]
  cases exec i s <;> rfl

/-- A WRITEBIT before position 7 moves the cursor and answers OK. -/
theorem exec_writebit_inside {s : State} (hi : s.w.task = none) (h7 : s.w.cur ≠ 7) (b : Bool) :
    exec (.writebit (bitWord b)) s = .next { s with
      w := { s.w with acc := setBit s.w.acc s.w.cur b, cur := s.w.cur + 1
                      responses := s.w.responses ++ [⟨0, 0, 0, none, []⟩] } } := by
  simp only [exec_writebit_idle hi, writeBitAt_inside h7, finishWrite, respondW, hi]
  rfl

/-- The end of a command of unit W replaces that unit, whatever it was. -/
theorem finishWrite_replaces (k : WriterTask) (res : WriteResult) (s : State) (w : WriterUnit) :
    finishWrite k res { s with w := w } = finishWrite k res s := by cases res <;> rfl

/-- WRITEBITs of 1 up to position 7 end in the offer that FLUSHONES makes. -/
theorem execAll_writebit_ones (d : Nat) : ∀ {s : State}, s.w.task = none → s.w.cur.val + d = 7 →
    ∃ l, execAll (List.replicate (d + 1) (.writebit 1)) s =
      finishWrite .writebit (emitStep (padWithOnes { s.w with responses := l })) s := by
  induction d with
  | zero =>
    intro s hi h7
    replace h7 : s.w.cur = 7 := Fin.ext h7
    refine ⟨s.w.responses, (execAll_singleton _ s).trans ?_⟩
    rw [padWithOnes_last h7]
    exact exec_writebit_completes hi h7 true
  | succ d ih =>
    intro s hi hd
    have h7 : s.w.cur ≠ 7 := fun h => by rw [h] at hd; change 7 + _ = 7 at hd; omega
    obtain ⟨l, hl⟩ := ih
      (s := { s with
        w := { s.w with acc := setBit s.w.acc s.w.cur true, cur := s.w.cur + 1
                        responses := s.w.responses ++ [⟨0, 0, 0, none, []⟩] } })
      hi (by change (s.w.cur + 1).val + d = 7; rw [position_succ_val h7]; omega)
    refine ⟨l, ?_⟩
    rw [List.replicate_succ]
    refine (execAll_cons_next (exec_writebit_inside hi h7 true)).trans (hl.trans ?_)
    rw [finishWrite_replaces]
    exact congrArg (fun w => finishWrite .writebit (emitStep w) s)
      (padWithOnes_setBit (w := { s.w with responses := l }) h7)

/-- Two commands that end in the offer of the same byte, with other responses before it. -/
theorem finishWrite_emitStep_agree (k k' : WriterTask) (w : WriterUnit) (l : List Response)
    (s : State) :
    ∃ t u, finishWrite k (emitStep w) s = .next t ∧
      finishWrite k' (emitStep { w with responses := l }) s = .next u ∧
      t.w.cur = u.w.cur ∧ t.w.acc = u.w.acc ∧ t.w.answers = u.w.answers ∧ t.w.log = u.w.log ∧
      t.w.task.isSome = u.w.task.isSome ∧
      (t.w.task = none → t.w.responses.getLast? = u.w.responses.getLast?) := by
  obtain ⟨answers, ha⟩ : ∃ answers, w.answers = answers := ⟨_, rfl⟩
  cases answers with
  | nil =>
    rw [emitStep_silent ha, emitStep_silent (w := { w with responses := l }) ha]
    exact ⟨_, _, rfl, rfl, rfl, rfl, rfl, rfl, rfl, nofun⟩
  | cons a rest =>
    cases a with
    | ack =>
      rw [emitStep_ack ha, emitStep_ack (w := { w with responses := l }) ha]
      exact ⟨_, _, rfl, rfl, rfl, rfl, rfl, rfl, rfl, fun _ => by simp⟩
    | fail e =>
      rw [emitStep_fail ha, emitStep_fail (w := { w with responses := l }) ha]
      exact ⟨_, _, rfl, rfl, rfl, rfl, rfl, rfl, rfl, fun _ => by simp⟩

/-- Settles O41: both end in the offer of the padded accumulator. -/
theorem flushonesIsRepeatedWritebitOne : Obligations.FlushonesIsRepeatedWritebitOne := by
  unfold Obligations.FlushonesIsRepeatedWritebitOne
  intro s hi h₀
  have hlt := s.w.cur.isLt
  obtain ⟨l, hl⟩ := execAll_writebit_ones (7 - s.w.cur.val) hi (by omega)
  rw [show 8 - s.w.cur.val = 7 - s.w.cur.val + 1 by omega, hl, exec_flushones_pending hi h₀]
  exact finishWrite_emitStep_agree .flushones .writebit (padWithOnes s.w) l s

/-! ## Streams of WRITEBITs -/

/-- What writing bits does is the same whatever responses were delivered before. -/
theorem Writes.with_responses {bits : List Bool} {w w' : WriterUnit} (h : Writes bits w w')
    (l : List Response) : Writes bits { w with responses := l } { w' with responses := l } :=
  ⟨h.clean, h.written, h.cur, h.answers, h.count, h.log, h.task, h.stale, rfl, h.policy⟩

/-- A WRITEBIT whose bit step returned OK. -/
theorem exec_writebit_ok {s : State} {b : Bool} {w : WriterUnit} (hi : s.w.task = none)
    (hs : writeBitAt b s.w = .done .ok w) :
    exec (.writebit (bitWord b)) s = .next { s with
      w := { w with responses := s.w.responses ++ [⟨0, 0, 0, none, []⟩] } } := by
  obtain ⟨htask, hresp⟩ := writeBitAt_keeps_port hs
  rw [exec_writebit_idle hi, hs, finishWrite, respondW_eq (htask.trans hi), hresp]
  rfl

/-- After the first bit, the answers left are those for the bytes the others complete. -/
theorem Writes.answers_rest {b : Bool} {bits : List Bool} {w w₁ : WriterUnit}
    {rest : List SinkAnswer} (h : Writes [b] w w₁)
    (ha : w.answers = List.replicate ((w.cur.val + (b :: bits).length) / 8) .ack ++ rest) :
    w₁.answers = List.replicate ((w₁.cur.val + bits.length) / 8) .ack ++ rest := by
  have hsplit : (w.cur.val + (b :: bits).length) / 8 =
      (w.cur.val + [b].length) / 8 + (w₁.cur.val + bits.length) / 8 := by
    rw [h.cur]; simp only [List.length_cons, List.length_nil]; omega
  exact h.answers_eq (by rw [ha, hsplit, ← List.replicate_append_replicate, List.append_assoc])

/-- Whatever the first bit completes is accepted. -/
theorem answers_ack_of_completes {n : Nat} {w : WriterUnit} {rest : List SinkAnswer}
    (ha : w.answers = List.replicate ((w.cur.val + (n + 1)) / 8) .ack ++ rest) (h7 : w.cur = 7) :
    ∃ rest', w.answers = .ack :: rest' := by
  have hpos : (w.cur.val + (n + 1)) / 8 = n / 8 + 1 := by
    rw [h7]; change (7 + (n + 1)) / 8 = _; omega
  exact ⟨_, by rw [ha, hpos, List.replicate_succ, List.cons_append]⟩

/-- WRITEBITs whose completed bytes are all accepted write their bits, and answer OK. -/
theorem execAll_writebits_accepted {bits : List Bool} : ∀ {s : State} {rest : List SinkAnswer},
    s.w.task = none → s.w.Clean →
    s.w.answers = List.replicate ((s.w.cur.val + bits.length) / 8) .ack ++ rest →
    ∃ w, execAll (bits.map fun b => .writebit (bitWord b)) s = .next { s with w := w } ∧
      Writes bits { s.w with responses := (s.w.responses ++
        List.replicate bits.length ⟨0, 0, 0, none, []⟩) } w := by
  induction bits with
  | nil =>
    intro s rest _ hclean _
    exact ⟨s.w, rfl, by simpa using Writes.nil hclean⟩
  | cons b bits ih =>
    intro s rest hi hclean ha
    obtain ⟨w₁, hs, h₁⟩ := writeBitAt_writes (b := b) hclean (answers_ack_of_completes ha)
    obtain ⟨w, hexec, h₂⟩ := ih
      (s := { s with w := { w₁ with responses := s.w.responses ++ [⟨0, 0, 0, none, []⟩] } })
      (h₁.task.trans hi) h₁.clean (h₁.answers_rest ha)
    refine ⟨w, (execAll_cons_next (exec_writebit_ok hi hs)).trans hexec, ?_⟩
    simp only [List.append_assoc] at h₂
    exact (h₁.with_responses _).append h₂

/-! ## The flush that ends a stream -/

theorem WriterUnit.pendingBits_length (w : WriterUnit) : w.pendingBits.length = w.cur.val := by
  simp [pendingBits]

/-- Bit i of the pending bits. -/
theorem WriterUnit.pendingBits_getElem (w : WriterUnit) (i : Nat) (h : i < w.pendingBits.length) :
    w.pendingBits[i] =
      bitAt w.acc ⟨i, (pendingBits_length w ▸ h : i < w.cur.val).trans w.cur.isLt⟩ := by
  simp only [pendingBits, List.getElem_take, byteBits_getElem]

/-- The pending bits of a clean accumulator make it up, padded with zeros. -/
theorem WriterUnit.Clean.packBits_pendingBits {w : WriterUnit} (h : w.Clean) (h₀ : w.cur ≠ 0) :
    packBits w.pendingBits = [w.acc] := by
  have hlen := w.pendingBits_length
  have hne : w.pendingBits ≠ [] := by
    intro hnil
    rw [hnil] at hlen
    exact h₀ (Fin.ext hlen.symm)
  rw [packBits_short hne (hlen ▸ w.cur.isLt), List.singleton_inj]
  apply byte_ext
  intro q
  rw [bitAt_byteOf]
  by_cases hq : q.val < w.pendingBits.length
  · rw [List.getD_eq_getElem _ _ hq, WriterUnit.pendingBits_getElem]
  · rw [List.getD_eq_default _ _ (not_lt.1 hq)]
    rw [hlen] at hq
    exact (h q (not_lt.1 hq)).symm

theorem bitAt_padWithOnes (w : WriterUnit) (q : Position) :
    bitAt (padWithOnes w).acc q = (bitAt w.acc q || decide (w.cur ≤ q)) := by
  rw [padWithOnes_acc, bitAt_or, bitAt_ones]

/-- With FLUSHONES' pad the accumulator is the pending bits and then ones. -/
theorem byteBits_padWithOnes (w : WriterUnit) :
    byteBits (padWithOnes w).acc = w.pendingBits ++ List.replicate (8 - w.cur.val) true := by
  have hlt := w.cur.isLt
  have hlen := w.pendingBits_length
  apply List.ext_getElem
  · rw [byteBits_length, List.length_append, List.length_replicate]
    omega
  · intro i h₁ h₂
    rw [byteBits_getElem, bitAt_padWithOnes, List.getElem_append]
    split
    · rename_i hi
      have hbefore : ¬ w.cur.val ≤ i := by omega
      simp [WriterUnit.pendingBits_getElem, Fin.le_def, hbefore]
    · rename_i hi
      have hfrom : w.cur.val ≤ i := by omega
      simp [Fin.le_def, hfrom]

/-- A unit W that is clean at a byte boundary holds 0x00. -/
theorem WriterUnit.Clean.acc_eq_zero {w : WriterUnit} (h : w.Clean) (h₀ : w.cur = 0) : w.acc = 0x00 := by
  apply byte_ext
  intro q
  exact (h q (h₀ ▸ Fin.zero_le q)).trans (bitAt_zero q).symm

/-- With nothing pending, the bits written are those of the sink output. -/
theorem packBits_writtenBits {w : WriterUnit} (h₀ : w.cur = 0) :
    packBits w.writtenBits = w.sinkOutput := by
  rw [WriterUnit.writtenBits, WriterUnit.pendingBits_boundary h₀, List.append_nil, packBits_bitsOf]

/-- FLUSH of a clean unit W whose byte, if one is pending, is accepted: the sink output is the packing of
the bits written (R148). -/
theorem exec_flush_accepted {s : State} (hi : s.w.task = none) (hclean : s.w.Clean)
    (ha : s.w.answers = if s.w.cur = 0 then [] else [.ack]) :
    ∃ w, exec .flush s = .next { s with w := w } ∧ w.sinkOutput = packBits s.w.writtenBits ∧
      w.cur = 0 ∧ w.acc = 0x00 ∧ w.answers = [] := by
  by_cases h₀ : s.w.cur = 0
  · rw [if_pos h₀] at ha
    exact ⟨_, exec_flush_empty hi h₀, (packBits_writtenBits h₀).symm, h₀, hclean.acc_eq_zero h₀, ha⟩
  · rw [if_neg h₀] at ha
    have hexec := (exec_flush_pending hi h₀).trans (finishWrite_ack s hi ha)
    refine ⟨_, hexec, ?_, rfl, rfl, rfl⟩
    rw [WriterUnit.writtenBits, packBits_bitsOf_append, hclean.packBits_pendingBits h₀]
    exact sinkOutput_of_log (w := s.w) (l := [(s.w.acc, .ack)]) rfl

/-- FLUSHONES of a clean unit W whose byte, if one is pending, is accepted: the sink output is the packing
of the bits written and ones up to a whole byte (R150). -/
theorem exec_flushones_accepted {s : State} (hi : s.w.task = none) (hclean : s.w.Clean)
    (ha : s.w.answers = if s.w.cur = 0 then [] else [.ack]) :
    ∃ w, exec .flushones s = .next { s with w := w } ∧
      w.sinkOutput = packBits (s.w.writtenBits ++ List.replicate ((8 - s.w.cur.val) % 8) true) ∧
      w.cur = 0 ∧ w.acc = 0x00 ∧ w.answers = [] := by
  by_cases h₀ : s.w.cur = 0
  · rw [if_pos h₀] at ha
    have hpad : (8 - s.w.cur.val) % 8 = 0 := by rw [h₀]; rfl
    rw [hpad, List.replicate_zero, List.append_nil]
    exact ⟨_, exec_flushones_empty hi h₀, (packBits_writtenBits h₀).symm, h₀,
      hclean.acc_eq_zero h₀, ha⟩
  · rw [if_neg h₀] at ha
    have hpos : 0 < s.w.cur.val := Nat.pos_of_ne_zero fun e => h₀ (Fin.ext e)
    have hexec := (exec_flushones_pending hi h₀).trans
      (finishWrite_ack (w := padWithOnes s.w) s hi ha)
    refine ⟨_, hexec, ?_, rfl, rfl, rfl⟩
    rw [Nat.mod_eq_of_lt (by omega), WriterUnit.writtenBits, List.append_assoc,
      ← byteBits_padWithOnes, packBits_bitsOf_append, ← List.append_nil (byteBits _),
      packBits_byteBits_append]
    exact sinkOutput_of_log (w := s.w) (l := [((padWithOnes s.w).acc, .ack)]) rfl

/-! ## Round trip of unit W -/

/-- The WRITEBITs of a list of bits. -/
def writeEach (bits : List Bool) : List Instr := bits.map fun b => .writebit (bitWord b)

section
variable {bits : List Bool} {s : State} (hi : s.w.task = none) (h₀ : s.w.cur = 0)
  (hacc : s.w.acc = 0x00) (hlog : s.w.log = [])
  (ha : s.w.answers = List.replicate ((bits.length + 7) / 8) .ack)
include hi h₀ hacc hlog ha

/-- The bits written from a clean unit W with nothing logged, and the ACK left for a last partial byte. -/
theorem execAll_writeEach_from_clean :
    ∃ w, execAll (writeEach bits) s = .next { s with w := w } ∧ w.task = none ∧ w.Clean ∧
      w.writtenBits = bits ∧ w.cur.val = bits.length % 8 ∧
      w.answers = if w.cur = 0 then [] else [.ack] := by
  have hclean : s.w.Clean := fun q _ => by rw [hacc]; exact bitAt_zero q
  have hsplit : s.w.answers = List.replicate ((s.w.cur.val + bits.length) / 8) .ack ++
      List.replicate ((bits.length + 7) / 8 - bits.length / 8) .ack := by
    rw [ha, h₀, List.replicate_append_replicate]
    congr 1
    change _ = (0 + bits.length) / 8 + _
    omega
  obtain ⟨w, hexec, hw⟩ := execAll_writebits_accepted hi hclean hsplit
  have hans := hw.answers_eq hsplit
  have hcur : w.cur.val = bits.length % 8 := by
    rw [hw.cur, h₀]
    exact congrArg (· % 8) (Nat.zero_add _)
  have hnothing : s.w.writtenBits = [] := by
    rw [WriterUnit.writtenBits, WriterUnit.pendingBits_boundary h₀, WriterUnit.sinkOutput, hlog]
    rfl
  refine ⟨w, hexec, hw.task.trans hi, hw.clean, hw.written.trans (congrArg (· ++ bits) hnothing),
    hcur, ?_⟩
  rw [hans]
  by_cases hc : w.cur = 0
  · have hwhole : (bits.length + 7) / 8 - bits.length / 8 = 0 := by
      rw [hc] at hcur; change 0 = _ at hcur; omega
    rw [if_pos hc, hwhole, List.replicate_zero]
  · have hpart : (bits.length + 7) / 8 - bits.length / 8 = 1 := by
      have : w.cur.val ≠ 0 := fun e => hc (Fin.ext e)
      omega
    rw [if_neg hc, hpart, List.replicate_one]

/-- The stream ended by FLUSH, its last byte padded with zeros. -/
theorem execAll_writeEach_flush :
    ∃ w, execAll (writeEach bits ++ [.flush]) s = .next { s with w := w } ∧
      w.sinkOutput = packBits bits ∧ w.cur = 0 ∧ w.acc = 0x00 ∧ w.answers = [] := by
  obtain ⟨w, hexec, hi', hclean, hwritten, -, hans⟩ :=
    execAll_writeEach_from_clean hi h₀ hacc hlog ha
  obtain ⟨w', hflush, hout, hend⟩ := exec_flush_accepted (s := { s with w := w }) hi' hclean hans
  rw [hwritten] at hout
  refine ⟨w', ?_, hout, hend⟩
  rw [execAll_append_next hexec, execAll_singleton, hflush]

/-- The stream ended by FLUSHONES, its last byte padded with ones. -/
theorem execAll_writeEach_flushones :
    ∃ w, execAll (writeEach bits ++ [.flushones]) s = .next { s with w := w } ∧
      w.sinkOutput = packBits (bits ++ List.replicate ((8 - bits.length % 8) % 8) true) ∧
      w.cur = 0 ∧ w.acc = 0x00 ∧ w.answers = [] := by
  obtain ⟨w, hexec, hi', hclean, hwritten, hcur, hans⟩ :=
    execAll_writeEach_from_clean hi h₀ hacc hlog ha
  obtain ⟨w', hflush, hout, hend⟩ := exec_flushones_accepted (s := { s with w := w }) hi' hclean hans
  rw [hwritten, hcur] at hout
  refine ⟨w', ?_, hout, hend⟩
  rw [execAll_append_next hexec, execAll_singleton, hflush]

end

/-- Settles O42: the WRITEBITs leave the bits written, and the flush sends the last of them. -/
theorem writerRoundTrip : Obligations.WriterRoundTrip := by
  unfold Obligations.WriterRoundTrip
  intro bits s hi h₀ hacc hlog ha writes pad
  obtain ⟨w, hexec, hend⟩ := execAll_writeEach_flush hi h₀ hacc hlog ha
  obtain ⟨w', hexec', hend'⟩ := execAll_writeEach_flushones hi h₀ hacc hlog ha
  exact ⟨⟨_, hexec, hend⟩, ⟨_, hexec', hend'⟩⟩

/-! ## Reading back -/

/-- A packed list's bits are the list and the zeros that pad it to a whole byte (R55). -/
theorem bitsOf_packBits (bits : List Bool) :
    bitsOf (packBits bits) = bits ++ List.replicate ((8 - bits.length % 8) % 8) false := by
  apply List.ext_getElem
  · simp
    omega
  · intro k h₁ h₂
    rw [bitsOf_length] at h₁
    have hk : 8 * (k / 8) + (Fin.ofNat 8 k).val = k := Nat.div_add_mod k 8
    rw [bitsOf_getElem, bufBit, List.getD_eq_getElem _ _ (by omega), packBits_getElem, bitAt_byteOf,
      hk, List.getElem_append]
    split
    · rw [List.getD_eq_getElem]
    · rw [List.getD_eq_default _ _ (not_lt.1 ‹_›), List.getElem_replicate]

/-- A list that is already padded to a whole byte is all of its packing's bits. -/
theorem bitsOf_packBits_padded (bits : List Bool) (b : Bool) :
    bitsOf (packBits (bits ++ List.replicate ((8 - bits.length % 8) % 8) b)) =
      bits ++ List.replicate ((8 - bits.length % 8) % 8) b := by
  rw [bitsOf_packBits]
  have hwhole : (8 - (bits ++ List.replicate ((8 - bits.length % 8) % 8) b).length % 8) % 8 = 0 := by
    rw [List.length_append, List.length_replicate]
    omega
  rw [hwhole, List.replicate_zero, List.append_nil]

/-- The sink output of a stream ended by a flush: the bits written and the flush's padding. -/
theorem execAll_writeEach_then {bits : List Bool} {s t : State} {fl : Instr} {padding : Bool}
    (hfl : (fl = .flush ∧ padding = false) ∨ (fl = .flushones ∧ padding = true))
    (hi : s.w.task = none) (h₀ : s.w.cur = 0) (hacc : s.w.acc = 0x00) (hlog : s.w.log = [])
    (ha : s.w.answers = List.replicate ((bits.length + 7) / 8) .ack)
    (h : execAll (writeEach bits ++ [fl]) s = .next t) :
    t.r = s.r ∧
      bitsOf t.w.sinkOutput = bits ++ List.replicate ((8 - bits.length % 8) % 8) padding := by
  obtain ⟨rfl, rfl⟩ | ⟨rfl, rfl⟩ := hfl
  · obtain ⟨w, hexec, hout, -⟩ := execAll_writeEach_flush hi h₀ hacc hlog ha
    cases hexec.symm.trans h
    exact ⟨rfl, by rw [hout, bitsOf_packBits]⟩
  · obtain ⟨w, hexec, hout, -⟩ := execAll_writeEach_flushones hi h₀ hacc hlog ha
    cases hexec.symm.trans h
    exact ⟨rfl, by rw [hout, bitsOf_packBits_padded]⟩

/-- Reading leaves unit R's invariant. -/
theorem Reads.inv {n : Nat} {r r' : ReaderUnit} (h : Reads n r r') (hi : r.task = none)
    (hst : r.stale = false) : r'.Inv := by
  have htask : r'.task = none := h.task.trans hi
  refine ⟨h.byte, fun he => ?_, ?_, fun hs => ?_⟩
  · rw [h.eos] at he; cases he
  · rw [ReaderUnit.TaskInv, htask]; trivial
  · rw [h.stale, hst] at hs; cases hs

/-- A replaying unit R, asked for n bits and then for more than are left: it answers the n bits and OK,
then what is left and EOS. -/
theorem execAll_readbits_past_end {bs : List Byte} {s : State} {n m : Word} {bits pad : List Bool}
    (hr : s.r = .replaying bs) (hn : 0 < sint n) (hm : 0 < sint m)
    (hbs : bitsOf bs = bits ++ pad) (hbits : bits.length = n.toNat) (hpad : pad.length < m.toNat) :
    ∃ u, execAll [.readbits n, .readbits m] s = .next u ∧
      u.r.responses = [⟨0, 0, n, none, packBits bits⟩,
        ⟨1, 0, BitVec.ofNat 64 pad.length, none, packBits pad⟩] ∧ u.r.eos = true := by
  have hav : s.r.availableBits = bits ++ pad := by
    rw [hr, ReaderUnit.replaying_availableBits, hbs]
  have hi : s.r.task = none := by rw [hr]; rfl
  obtain ⟨r, hreads, hexec⟩ := exec_readbits_available hi (hr ▸ ReaderUnit.replaying_inv bs)
    (by rw [hr]; rfl) hn (by simp [hav, hbits])
  have hrest : r.availableBits = pad := by
    rw [hreads.stream, hav, ← hbits, List.drop_left]
  have hafter : afterLeadingBytes r.answers = [.eos] := by
    rw [hreads.after, hr, ReaderUnit.replaying, afterLeadingBytes_bytes]
    rfl
  rw [hav, ← hbits, List.take_left, hr] at hexec
  obtain ⟨u, hu, ⟨st, err, hst, hresp⟩, -, heos, -⟩ := readbitsPartialResult m
    { s with r := { r with responses := [⟨0, 0, n, none, packBits bits⟩] } } .eos []
    (hreads.task.trans hi) (hreads.inv hi (by rw [hr]; rfl)) hreads.eos hm
    (by change r.availableBits.length < _; rw [hrest]; exact hpad) hafter
  change u.r.responses = [_] ++ [⟨st, 0, BitVec.ofNat 64 r.availableBits.length, err,
    packBits r.availableBits⟩] at hresp
  obtain ⟨-, rfl, rfl⟩ | ⟨e, he, -⟩ := hst
  · refine ⟨u, ?_, by rw [hresp, hrest]; rfl, heos.2 rfl⟩
    rw [execAll_cons_next hexec, execAll_singleton]
    exact hu
  · cases he

/-- Settles O43: the stream's bits and padding, read back by a replaying unit R. -/
theorem writtenStreamReadsBack : Obligations.WrittenStreamReadsBack := by
  unfold Obligations.WrittenStreamReadsBack
  intro bits n s t fl padding hfl hn hlen hr hi h₀ hacc hlog ha h pad
  obtain ⟨htr, hout⟩ := execAll_writeEach_then hfl hi h₀ hacc hlog ha h
  rw [hlen] at hout
  have hreplay : ({ t.r with answers := t.w.sinkOutput.map .byte ++ [.eos] } : ReaderUnit) =
      .replaying t.w.sinkOutput := by
    rw [htr, hr]
    rfl
  have hpad : (List.replicate pad padding).length < (8 : Word).toNat := by
    rw [List.length_replicate]
    exact Nat.mod_lt _ (by decide)
  obtain ⟨u, hexec, hresp, heos⟩ := execAll_readbits_past_end
    (s := { t with r := { t.r with answers := t.w.sinkOutput.map .byte ++ [.eos] } })
    hreplay hn (by decide) hout hlen hpad
  rw [List.length_replicate] at hresp
  exact ⟨u, hexec, hresp, heos⟩

end Sys2Proof.Machine

/-!
PROOFS. A command in flight, task by task: the equation of what goes on when an answer comes (R240), and of
the answer's arrival (R51, R52, R233).
-/

namespace Sys2Proof.Machine

section
variable {s : State}

theorem resumeReader_idle (h : s.r.task = none) : resumeReader s = .next s := by
  rw [resumeReader, h]

theorem resumeReader_readbit (h : s.r.task = some .readbit) :
    resumeReader s = finishReadbit (rbStep s.r) s := by
  rw [resumeReader, h]

theorem resumeReader_readbits {n k : Nat} {pk : Pack} (h : s.r.task = some (.readbits n k pk)) :
    resumeReader s = finishReadbits (readLoop n k pk s.r) s := by
  rw [resumeReader, h]

theorem resumeWriter_idle (h : s.w.task = none) : resumeWriter s = .next s := by
  rw [resumeWriter, h]

/-- A command of unit W in flight but WRITEBITS takes up its offer and ends with it. -/
theorem resumeWriter_offer {k : WriterTask} (h : s.w.task = some k)
    (hk : ∀ n buf j, k ≠ .writebits n buf j) :
    resumeWriter s = finishWrite k (emitStep s.w) s := by
  rw [resumeWriter, h]
  cases k with
  | writebit => rfl
  | writebits n buf j => exact absurd rfl (hk n buf j)
  | flush => rfl
  | flushones => rfl

theorem resumeWriter_writebits {n j : Nat} {buf : List Byte}
    (h : s.w.task = some (.writebits n buf j)) :
    resumeWriter s = finishWritebits n buf (writeLoopFrom n buf j s.w) s := by
  rw [resumeWriter, h]

theorem sourceAnswered_stale (h : s.r.stale = true) (a : SourceAnswer) :
    sourceAnswered a s = .next { s with r := { s.r with stale := false } } := by
  rw [sourceAnswered, if_pos h]

theorem sourceAnswered_ready (h : s.r.stale = false) (a : SourceAnswer) :
    sourceAnswered a s =
      resumeReader { s with r := { s.r with answers := s.r.answers ++ [a] } } := by
  rw [sourceAnswered, if_neg (by simp [h])]

theorem sinkAnswered_stale (h : s.w.stale = true) (a : SinkAnswer) :
    sinkAnswered a s = .next { s with w := { s.w with stale := false } } := by
  rw [sinkAnswered, if_pos h]

theorem sinkAnswered_ready (h : s.w.stale = false) (a : SinkAnswer) :
    sinkAnswered a s =
      resumeWriter { s with w := { s.w with answers := s.w.answers ++ [a] } } := by
  rw [sinkAnswered, if_neg (by simp [h])]

end

section
variable {w : WriterUnit} (n : Nat) (buf : List Byte) (j : Nat)

theorem writeLoopFrom_silent (h : w.answers = []) : writeLoopFrom n buf j w = .wait j w := by
  rw [writeLoopFrom, emit_silent h]

theorem writeLoopFrom_ack {rest : List SinkAnswer} (h : w.answers = .ack :: rest) :
    writeLoopFrom n buf j w = writeLoop n buf (bitsToWrite n buf - (j + 1)) (j + 1)
      { w with acc := 0x00, cur := 0, answers := rest, log := w.log ++ [(w.acc, .ack)] } := by
  rw [writeLoopFrom, emit_ack h]

theorem writeLoopFrom_fail {e : ErrT} {rest : List SinkAnswer} (h : w.answers = .fail e :: rest) :
    writeLoopFrom n buf j w = .done (.iofail e) j { w with
      acc := if w.policy = .hold then w.acc else 0x00
      cur := if w.policy = .hold then w.cur else 0
      answers := rest, log := w.log ++ [(w.acc, .fail e)] } := by
  rw [writeLoopFrom, emit_fail h]

end

end Sys2Proof.Machine

/-!
PROOFS. The statement of 00_scope.md section 4 about error payloads (R10): each operation commutes with a
renaming of them, from one bit step up to one step of the block.
-/

namespace Sys2Proof.Machine

/-! ## Renaming in the outcomes of the shared operations -/

def Status.mapErr (f : ErrT → ErrT) : Status → Status
  | .iofail e => .iofail (f e)
  | .ok => .ok
  | .eos => .eos
  | .invalidBit => .invalidBit
  | .illegalCmd => .illegalCmd

def BitResult.mapErr (f : ErrT → ErrT) : BitResult → BitResult
  | .bit b r => .bit b (r.mapErr f)
  | .stop st r => .stop (st.mapErr f) (r.mapErr f)
  | .wait => .wait
  | .fault x => .fault x

def ReadLoop.mapErr (f : ErrT → ErrT) : ReadLoop → ReadLoop
  | .done st k pk r => .done (st.mapErr f) k pk (r.mapErr f)
  | .wait n k pk r => .wait n k pk (r.mapErr f)
  | .fault x => .fault x

def EmitResult.mapErr (f : ErrT → ErrT) : EmitResult → EmitResult
  | .done st w => .done (st.mapErr f) (w.mapErr f)
  | .wait => .wait

def WriteResult.mapErr (f : ErrT → ErrT) : WriteResult → WriteResult
  | .done st w => .done (st.mapErr f) (w.mapErr f)
  | .wait w => .wait (w.mapErr f)

def WriteLoop.mapErr (f : ErrT → ErrT) : WriteLoop → WriteLoop
  | .done st k w => .done (st.mapErr f) k (w.mapErr f)
  | .wait j w => .wait j (w.mapErr f)

section
variable (f : ErrT → ErrT)

/-! ## Responses -/

theorem mkResponse_mapErr (st : Status) (b : Bool) (k : Nat) (l : List Byte) :
    (mkResponse st b k l).mapErr f = mkResponse (st.mapErr f) b k l := by cases st <;> rfl

theorem respondR_mapErr (p : Response) (r : ReaderUnit) :
    (respondR p r).mapErr f = respondR (p.mapErr f) (r.mapErr f) := by
  simp [respondR, ReaderUnit.mapErr]

theorem respondW_mapErr (p : Response) (w : WriterUnit) :
    (respondW p w).mapErr f = respondW (p.mapErr f) (w.mapErr f) := by
  simp [respondW, WriterUnit.mapErr]

/-- Delivering a response on unit R. -/
theorem deliverR_mapErr (st : Status) (b : Bool) (k : Nat) (l : List Byte) (r : ReaderUnit) (s : State) :
    (⟨respondR (mkResponse st b k l) r, s.w, s.inputs⟩ : State).mapErr f =
      ⟨respondR (mkResponse (st.mapErr f) b k l) (r.mapErr f), (s.mapErr f).w, (s.mapErr f).inputs⟩ := by
  rw [State.mapErr, respondR_mapErr, mkResponse_mapErr]
  rfl

/-- Delivering a response on unit W. -/
theorem deliverW_mapErr (st : Status) (b : Bool) (k : Nat) (l : List Byte) (w : WriterUnit) (s : State) :
    (⟨s.r, respondW (mkResponse st b k l) w, s.inputs⟩ : State).mapErr f =
      ⟨(s.mapErr f).r, respondW (mkResponse (st.mapErr f) b k l) (w.mapErr f), (s.mapErr f).inputs⟩ := by
  rw [State.mapErr, respondW_mapErr, mkResponse_mapErr]
  rfl

/-! ## Unit R -/

theorem rbStep_mapErr (r : ReaderUnit) : rbStep (r.mapErr f) = (rbStep r).mapErr f := by
  have hc := rbStep_cases r
  generalize hres : rbStep r = res at hc
  cases hc with
  | exhausted he => exact rbStep_exhausted he
  | inside v he hc hv => exact rbStep_inside he hc hv
  | absent he hc hv => exact rbStep_absent he hc hv
  | silent he hc ha => exact rbStep_silent he hc (by simp [ReaderUnit.mapErr, ha])
  | byte v rest he hc ha =>
    refine (rbStep_byte (r := r.mapErr f) (v := v) (rest := rest.map (·.mapErr f)) he hc
      (by simp [ReaderUnit.mapErr, ha, SourceAnswer.mapErr])).trans ?_
    simp [BitResult.mapErr, ReaderUnit.mapErr, SourceAnswer.mapErr]
  | eos rest he hc ha =>
    refine (rbStep_eos (r := r.mapErr f) (rest := rest.map (·.mapErr f)) he hc
      (by simp [ReaderUnit.mapErr, ha, SourceAnswer.mapErr])).trans ?_
    simp [BitResult.mapErr, ReaderUnit.mapErr, SourceAnswer.mapErr, Status.mapErr]
  | fail e rest he hc ha =>
    refine (rbStep_fail (r := r.mapErr f) (e := f e) (rest := rest.map (·.mapErr f)) he hc
      (by simp [ReaderUnit.mapErr, ha, SourceAnswer.mapErr])).trans ?_
    simp [BitResult.mapErr, ReaderUnit.mapErr, SourceAnswer.mapErr, Status.mapErr]

theorem readLoop_mapErr (n : Nat) : ∀ (k : Nat) (pk : Pack) (r : ReaderUnit),
    readLoop n k pk (r.mapErr f) = (readLoop n k pk r).mapErr f := by
  induction n with
  | zero => intro k pk r; rfl
  | succ n ih =>
    intro k pk r
    rw [readLoop, readLoop, rbStep_mapErr]
    cases rbStep r with
    | bit b r' => exact ih _ _ _
    | stop st r' => rfl
    | wait => rfl
    | fault x => rfl

theorem finishReadbit_mapErr (res : BitResult) (s : State) :
    finishReadbit (res.mapErr f) (s.mapErr f) = mapOutcome (State.mapErr f) (finishReadbit res s) := by
  cases res with
  | bit b r => exact congrArg _ (deliverR_mapErr f .ok b 0 [] r s).symm
  | stop st r => exact congrArg _ (deliverR_mapErr f st false 0 [] r s).symm
  | wait => rfl
  | fault x => rfl

theorem finishReadbits_mapErr (res : ReadLoop) (s : State) :
    finishReadbits (res.mapErr f) (s.mapErr f) =
      mapOutcome (State.mapErr f) (finishReadbits res s) := by
  cases res with
  | done st k pk r => exact congrArg _ (deliverR_mapErr f st false k pk.finish r s).symm
  | wait n k pk r => rfl
  | fault x => rfl

theorem whenIdleR_mapErr {s : State} {act act' : Host.Outcome State Fault Refusal}
    (h : act' = mapOutcome (State.mapErr f) act) :
    whenIdleR (s.mapErr f) act' = mapOutcome (State.mapErr f) (whenIdleR s act) := by
  subst h
  unfold whenIdleR
  change (if s.r.task.isSome then _ else _) = _
  split <;> rfl

theorem execReadbit_mapErr (s : State) :
    execReadbit (s.mapErr f) = mapOutcome (State.mapErr f) (execReadbit s) :=
  whenIdleR_mapErr f ((congrArg (finishReadbit · _) (rbStep_mapErr f s.r)).trans
    (finishReadbit_mapErr f _ s))

theorem execReadbits_mapErr (n : Word) (s : State) :
    execReadbits n (s.mapErr f) = mapOutcome (State.mapErr f) (execReadbits n s) := by
  apply whenIdleR_mapErr
  split
  · exact congrArg _ (deliverR_mapErr f .ok false 0 [] s.r s).symm
  · exact (congrArg (finishReadbits · _) (readLoop_mapErr f _ 0 Pack.empty s.r)).trans
      (finishReadbits_mapErr f _ s)

theorem resumeReader_mapErr (s : State) :
    resumeReader (s.mapErr f) = mapOutcome (State.mapErr f) (resumeReader s) := by
  obtain ⟨task, ht⟩ : ∃ task, s.r.task = task := ⟨_, rfl⟩
  have ht' : (s.mapErr f).r.task = task := ht
  cases task with
  | none => rw [resumeReader_idle ht, resumeReader_idle ht']; rfl
  | some task =>
    cases task with
    | readbit =>
      rw [resumeReader_readbit ht, resumeReader_readbit ht', ← finishReadbit_mapErr, ← rbStep_mapErr]
      rfl
    | readbits n k pk =>
      rw [resumeReader_readbits ht, resumeReader_readbits ht', ← finishReadbits_mapErr,
        ← readLoop_mapErr]
      rfl

theorem sourceAnswered_mapErr (a : SourceAnswer) (s : State) :
    sourceAnswered (a.mapErr f) (s.mapErr f) =
      mapOutcome (State.mapErr f) (sourceAnswered a s) := by
  cases hst : s.r.stale with
  | true => rw [sourceAnswered_stale hst, sourceAnswered_stale (s := s.mapErr f) hst]; rfl
  | false =>
    rw [sourceAnswered_ready hst, sourceAnswered_ready (s := s.mapErr f) hst, ← resumeReader_mapErr]
    simp [State.mapErr, ReaderUnit.mapErr]

/-! ## Unit W -/

theorem emitStep_mapErr (w : WriterUnit) : emitStep (w.mapErr f) = (emitStep w).mapErr f := by
  have hc := emitStep_cases w
  generalize hres : emitStep w = res at hc
  cases hc with
  | silent ha => exact emitStep_silent (by simp [WriterUnit.mapErr, ha])
  | ack rest ha =>
    refine (emitStep_ack (w := w.mapErr f) (rest := rest.map (·.mapErr f))
      (by simp [WriterUnit.mapErr, ha, SinkAnswer.mapErr])).trans ?_
    simp [WriteResult.mapErr, WriterUnit.mapErr, SinkAnswer.mapErr, Status.mapErr]
  | fail e rest ha =>
    refine (emitStep_fail (w := w.mapErr f) (e := f e) (rest := rest.map (·.mapErr f))
      (by simp [WriterUnit.mapErr, ha, SinkAnswer.mapErr])).trans ?_
    simp only [WriteResult.mapErr, WriterUnit.mapErr, List.map_append]
    rfl

theorem writeBitAt_mapErr (b : Bool) (w : WriterUnit) :
    writeBitAt b (w.mapErr f) = (writeBitAt b w).mapErr f := by
  by_cases h7 : w.cur = 7
  · rw [writeBitAt_completes h7, writeBitAt_completes (w := w.mapErr f) h7, ← emitStep_mapErr]
    rfl
  · rw [writeBitAt_inside h7, writeBitAt_inside (w := w.mapErr f) h7]
    rfl

theorem wbStep_mapErr (x : Int) (w : WriterUnit) :
    wbStep x (w.mapErr f) = (wbStep x w).mapErr f := by
  unfold wbStep
  split
  · rfl
  · exact writeBitAt_mapErr f _ w

theorem writeLoop_mapErr (n : Nat) (buf : List Byte) (m : Nat) : ∀ (j : Nat) (w : WriterUnit),
    writeLoop n buf m j (w.mapErr f) = (writeLoop n buf m j w).mapErr f := by
  induction m with
  | zero =>
    intro j w
    rw [writeLoop, writeLoop, exhaustion]
    split <;> rfl
  | succ m ih =>
    intro j w
    rw [writeLoop, writeLoop, wbStep_mapErr]
    cases wbStep (bitInt (bufBit buf j)) w with
    | wait w' => rfl
    | done st w' =>
      cases st with
      | ok => exact ih _ _
      | eos => rfl
      | invalidBit => rfl
      | iofail e => rfl
      | illegalCmd => rfl

theorem writeLoopFrom_mapErr (n : Nat) (buf : List Byte) (j : Nat) (w : WriterUnit) :
    writeLoopFrom n buf j (w.mapErr f) = (writeLoopFrom n buf j w).mapErr f := by
  obtain ⟨answers, ha⟩ : ∃ answers, w.answers = answers := ⟨_, rfl⟩
  cases answers with
  | nil =>
    rw [writeLoopFrom_silent n buf j ha,
      writeLoopFrom_silent (w := w.mapErr f) n buf j (by simp [WriterUnit.mapErr, ha])]
    rfl
  | cons a rest =>
    cases a with
    | ack =>
      rw [writeLoopFrom_ack n buf j ha, writeLoopFrom_ack (w := w.mapErr f)
        (rest := rest.map (·.mapErr f)) n buf j
        (by simp [WriterUnit.mapErr, ha, SinkAnswer.mapErr]), ← writeLoop_mapErr]
      simp [WriterUnit.mapErr, SinkAnswer.mapErr]
    | fail e =>
      rw [writeLoopFrom_fail n buf j ha, writeLoopFrom_fail (w := w.mapErr f) (e := f e)
        (rest := rest.map (·.mapErr f)) n buf j
        (by simp [WriterUnit.mapErr, ha, SinkAnswer.mapErr])]
      simp only [WriteLoop.mapErr, WriterUnit.mapErr, List.map_append]
      rfl

theorem finishWrite_mapErr (k : WriterTask) (res : WriteResult) (s : State) :
    finishWrite k (res.mapErr f) (s.mapErr f) =
      mapOutcome (State.mapErr f) (finishWrite k res s) := by
  cases res with
  | done st w => exact congrArg _ (deliverW_mapErr f st false 0 [] w s).symm
  | wait w => rfl

theorem finishWritebits_mapErr (n : Nat) (buf : List Byte) (res : WriteLoop) (s : State) :
    finishWritebits n buf (res.mapErr f) (s.mapErr f) =
      mapOutcome (State.mapErr f) (finishWritebits n buf res s) := by
  cases res with
  | done st k w => exact congrArg _ (deliverW_mapErr f st false k [] w s).symm
  | wait j w => rfl

theorem whenIdleW_mapErr {s : State} {act act' : Host.Outcome State Fault Refusal}
    (h : act' = mapOutcome (State.mapErr f) act) :
    whenIdleW (s.mapErr f) act' = mapOutcome (State.mapErr f) (whenIdleW s act) := by
  subst h
  unfold whenIdleW
  change (if s.w.task.isSome then _ else _) = _
  split <;> rfl

theorem execWritebit_mapErr (x : Word) (s : State) :
    execWritebit x (s.mapErr f) = mapOutcome (State.mapErr f) (execWritebit x s) :=
  whenIdleW_mapErr f ((congrArg (finishWrite _ · _) (wbStep_mapErr f _ s.w)).trans
    (finishWrite_mapErr f _ _ s))

theorem execWritebits_mapErr (n : Word) (buf : List Byte) (s : State) :
    execWritebits n buf (s.mapErr f) = mapOutcome (State.mapErr f) (execWritebits n buf s) := by
  apply whenIdleW_mapErr
  split
  · exact congrArg _ (deliverW_mapErr f .ok false 0 [] s.w s).symm
  · exact (congrArg (finishWritebits _ buf · _) (writeLoop_mapErr f _ buf _ 0 s.w)).trans
      (finishWritebits_mapErr f _ buf _ s)

theorem execFlush_mapErr (s : State) :
    execFlush (s.mapErr f) = mapOutcome (State.mapErr f) (execFlush s) := by
  apply whenIdleW_mapErr
  change (if s.w.cur = 0 then _ else _) = _
  split
  · exact congrArg _ (deliverW_mapErr f .ok false 0 [] s.w s).symm
  · exact (congrArg (finishWrite _ · _) (emitStep_mapErr f s.w)).trans (finishWrite_mapErr f _ _ s)

theorem execFlushones_mapErr (s : State) :
    execFlushones (s.mapErr f) = mapOutcome (State.mapErr f) (execFlushones s) := by
  apply whenIdleW_mapErr
  change (if s.w.cur = 0 then _ else _) = _
  split
  · exact congrArg _ (deliverW_mapErr f .ok false 0 [] s.w s).symm
  · exact (congrArg (finishWrite _ · _) (emitStep_mapErr f (padWithOnes s.w))).trans
      (finishWrite_mapErr f _ _ s)

theorem resumeWriter_mapErr (s : State) :
    resumeWriter (s.mapErr f) = mapOutcome (State.mapErr f) (resumeWriter s) := by
  have hoffer (k : WriterTask) : finishWrite k (emitStep (s.mapErr f).w) (s.mapErr f) =
      mapOutcome (State.mapErr f) (finishWrite k (emitStep s.w) s) :=
    (congrArg (finishWrite k · _) (emitStep_mapErr f s.w)).trans (finishWrite_mapErr f k _ s)
  obtain ⟨task, ht⟩ : ∃ task, s.w.task = task := ⟨_, rfl⟩
  have ht' : (s.mapErr f).w.task = task := ht
  cases task with
  | none => rw [resumeWriter_idle ht, resumeWriter_idle ht']; rfl
  | some task =>
    cases task with
    | writebit => rw [resumeWriter_offer ht nofun, resumeWriter_offer ht' nofun, hoffer]
    | writebits n buf j =>
      rw [resumeWriter_writebits ht, resumeWriter_writebits ht', ← finishWritebits_mapErr,
        ← writeLoopFrom_mapErr]
      rfl
    | flush => rw [resumeWriter_offer ht nofun, resumeWriter_offer ht' nofun, hoffer]
    | flushones => rw [resumeWriter_offer ht nofun, resumeWriter_offer ht' nofun, hoffer]

theorem sinkAnswered_mapErr (a : SinkAnswer) (s : State) :
    sinkAnswered (a.mapErr f) (s.mapErr f) = mapOutcome (State.mapErr f) (sinkAnswered a s) := by
  cases hst : s.w.stale with
  | true => rw [sinkAnswered_stale hst, sinkAnswered_stale (s := s.mapErr f) hst]; rfl
  | false =>
    rw [sinkAnswered_ready hst, sinkAnswered_ready (s := s.mapErr f) hst, ← resumeWriter_mapErr]
    simp [State.mapErr, WriterUnit.mapErr]

/-! ## The block -/

theorem exec_mapErr (i : Instr) (s : State) :
    exec i (s.mapErr f) = mapOutcome (State.mapErr f) (exec i s) := by
  cases i with
  | readbit => exact execReadbit_mapErr f s
  | readbits n => exact execReadbits_mapErr f n s
  | writebit x => exact execWritebit_mapErr f x s
  | writebits n buf => exact execWritebits_mapErr f n buf s
  | flush => exact execFlush_mapErr f s
  | flushones => exact execFlushones_mapErr f s

theorem execIllegal_mapErr (port : UnitId) (s : State) :
    execIllegal port (s.mapErr f) = mapOutcome (State.mapErr f) (execIllegal port s) := by
  cases port with
  | unitR => exact whenIdleR_mapErr f (congrArg _ (deliverR_mapErr f .illegalCmd false 0 [] s.r s).symm)
  | unitW => exact whenIdleW_mapErr f (congrArg _ (deliverW_mapErr f .illegalCmd false 0 [] s.w s).symm)

theorem receive_mapErr (port : UnitId) (c : CommandRecord) (s : State) :
    receive port c (s.mapErr f) = mapOutcome (State.mapErr f) (receive port c s) := by
  unfold receive
  cases decode port c with
  | instr i => exact exec_mapErr f i s
  | reject why =>
    simp only [rejectRecord]
    split
    · exact execIllegal_mapErr f port s
    · rfl

theorem runInput_mapErr (x : Input) (s : State) :
    runInput (x.mapErr f) (s.mapErr f) = mapOutcome (State.mapErr f) (runInput x s) := by
  cases x with
  | command port c => exact receive_mapErr f port c s
  | sourceAnswer a => exact sourceAnswered_mapErr f a s
  | sinkAnswer a => exact sinkAnswered_mapErr f a s
  | resetR => rfl
  | resetW => rfl
  | resetBlock => rfl

end

/-- Settles O51: the step takes the renamed input, which commutes with the renaming. -/
theorem errorPayloadsAreOpaque : Obligations.ErrorPayloadsAreOpaque := by
  unfold Obligations.ErrorPayloadsAreOpaque
  intro f s
  cases hin : s.inputs with
  | nil => rw [step_nil hin, step_nil (by simp [State.mapErr, hin])]; rfl
  | cons x rest =>
    rw [step_cons hin, step_cons (s := s.mapErr f) (x := x.mapErr f) (rest := rest.map (·.mapErr f))
      (by simp [State.mapErr, hin]), ← runInput_mapErr]
    rfl

end Sys2Proof.Machine

/-!
PROOFS. A command of one unit as a function of that unit alone (R31): what each command, and each command
that goes on after an answer, makes of its unit, said once, and how the block takes that up. From it
the statements of 10_state.md section 5 and 60_exceptions.md section 6.
-/

namespace Sys2Proof.Machine

/-! ## Unit R -/

/-- What a command of unit R makes of the unit: a response to deliver, a command in flight, or a fault. -/
inductive ReaderResult where
  | responds (p : Response) (r : ReaderUnit)
  | waits (k : ReaderTask) (r : ReaderUnit)
  | faults (x : Fault)

/-- The block with a unit R that has ended so. -/
def ReaderResult.apply (s : State) : ReaderResult → Host.Outcome State Fault Refusal
  | .responds p r => .next { s with r := respondR p r }
  | .waits k r => .next { s with r := { r with task := some k } }
  | .faults x => .fault x

/-- READBIT's end, from its bit step (R101). -/
def BitResult.ends (r : ReaderUnit) : BitResult → ReaderResult
  | .bit b r' => .responds (mkResponse .ok b 0 []) r'
  | .stop st r' => .responds (mkResponse st false 0 []) r'
  | .wait => .waits .readbit r
  | .fault x => .faults x

/-- READBITS' end, from its loop (R105, R107). -/
def ReadLoop.ends : ReadLoop → ReaderResult
  | .done st k pk r => .responds (mkResponse st false k pk.finish) r
  | .wait n k pk r => .waits (.readbits n k pk) r
  | .fault x => .faults x

theorem finishReadbit_eq (res : BitResult) (s : State) :
    finishReadbit res s = (res.ends s.r).apply s := by cases res <;> rfl

theorem finishReadbits_eq (res : ReadLoop) (s : State) :
    finishReadbits res s = res.ends.apply s := by cases res <;> rfl

/-- What each command of unit R makes of an idle unit. -/
inductive ReaderCommand (r : ReaderUnit) : Instr → ReaderResult → Prop where
  | readbit : ReaderCommand r .readbit ((rbStep r).ends r)
  | noBits (n : Word) (hn : sint n ≤ 0) :
      ReaderCommand r (.readbits n) (.responds (mkResponse .ok false 0 []) r)
  | readbits (n : Word) (hn : 0 < sint n) :
      ReaderCommand r (.readbits n) (readLoop n.toNat 0 Pack.empty r).ends

theorem ReaderCommand.exists_of_unit {i : Instr} (hu : i.unit = .unitR) (r : ReaderUnit) :
    ∃ res, ReaderCommand r i res := by
  cases i with
  | readbit => exact ⟨_, .readbit⟩
  | readbits n =>
    obtain hn | hn := le_or_gt (sint n) 0
    · exact ⟨_, .noBits n hn⟩
    · exact ⟨_, .readbits n hn⟩
  | writebit x => cases hu
  | writebits n buf => cases hu
  | flush => cases hu
  | flushones => cases hu

/-- A command of unit R does to the block what it makes of the idle unit. -/
theorem ReaderCommand.exec_eq {i : Instr} {s : State} {res : ReaderResult}
    (hc : ReaderCommand s.r i res) (hi : s.r.task = none) : exec i s = res.apply s := by
  cases hc with
  | readbit => rw [exec_readbit_idle hi, finishReadbit_eq]
  | noBits n hn =>
    rw [exec, execReadbits, whenIdleR_idle hi, if_pos hn]
    rfl
  | readbits n hn =>
    rw [exec, execReadbits, whenIdleR_idle hi, if_neg (not_le.2 hn), finishReadbits_eq, sint_toNat hn]

/-- What a command of unit R in flight makes of the unit when it goes on. -/
inductive ReaderResume (r : ReaderUnit) : ReaderTask → ReaderResult → Prop where
  | readbit : ReaderResume r .readbit ((rbStep r).ends r)
  | readbits (n k : Nat) (pk : Pack) : ReaderResume r (.readbits n k pk) (readLoop n k pk r).ends

theorem ReaderResume.exists_of_task (r : ReaderUnit) (k : ReaderTask) :
    ∃ res, ReaderResume r k res := by
  cases k with
  | readbit => exact ⟨_, .readbit⟩
  | readbits n k pk => exact ⟨_, .readbits n k pk⟩

theorem ReaderResume.resume_eq {s : State} {k : ReaderTask} {res : ReaderResult}
    (hc : ReaderResume s.r k res) (hk : s.r.task = some k) : resumeReader s = res.apply s := by
  cases hc with
  | readbit => rw [resumeReader_readbit hk, finishReadbit_eq]
  | readbits n k pk => rw [resumeReader_readbits hk, finishReadbits_eq]

/-! ## Unit W -/

/-- What a command of unit W makes of the unit: a status and a count to respond with, or a command in
flight. -/
inductive WriterResult where
  | responds (st : Status) (count : Nat) (w : WriterUnit)
  | waits (k : WriterTask) (w : WriterUnit)

/-- The unit that a result holds. -/
def WriterResult.unit : WriterResult → WriterUnit
  | .responds _ _ w => w
  | .waits _ w => w

/-- The block with a unit W that has ended so. -/
def WriterResult.apply (s : State) : WriterResult → State
  | .responds st n w => { s with w := respondW (mkResponse st false n []) w }
  | .waits k w => { s with w := { w with task := some k } }

/-- The end of a WRITEBIT or a flush, from its last step (R140, R148, R150). -/
def WriteResult.ends (k : WriterTask) : WriteResult → WriterResult
  | .done st w => .responds st 0 w
  | .wait w => .waits k w

/-- WRITEBITS' end, from its loop (R144). -/
def WriteLoop.ends (n : Nat) (buf : List Byte) : WriteLoop → WriterResult
  | .done st k w => .responds st k w
  | .wait j w => .waits (.writebits n buf j) w

@[simp] theorem WriteResult.ends_unit (k : WriterTask) (res : WriteResult) :
    (res.ends k).unit = res.unit := by cases res <;> rfl

@[simp] theorem WriteLoop.ends_unit (n : Nat) (buf : List Byte) (res : WriteLoop) :
    (res.ends n buf).unit = res.unit := by cases res <;> rfl

theorem finishWrite_eq (k : WriterTask) (res : WriteResult) (s : State) :
    finishWrite k res s = .next ((res.ends k).apply s) := by cases res <;> rfl

theorem finishWritebits_eq (n : Nat) (buf : List Byte) (res : WriteLoop) (s : State) :
    finishWritebits n buf res s = .next ((res.ends n buf).apply s) := by cases res <;> rfl

/-- What each command of unit W makes of an idle unit. -/
inductive WriterCommand (w : WriterUnit) : Instr → WriterResult → Prop where
  | writebit (x : Word) : WriterCommand w (.writebit x) ((wbStep (sint x) w).ends .writebit)
  | noBits (n : Word) (buf : List Byte) (hn : sint n ≤ 0) :
      WriterCommand w (.writebits n buf) (.responds .ok 0 w)
  | writebits (n : Word) (buf : List Byte) (hn : 0 < sint n) :
      WriterCommand w (.writebits n buf)
        ((writeLoop n.toNat buf (bitsToWrite n.toNat buf) 0 w).ends n.toNat buf)
  | flushEmpty (h₀ : w.cur = 0) : WriterCommand w .flush (.responds .ok 0 w)
  | flush (h₀ : w.cur ≠ 0) : WriterCommand w .flush ((emitStep w).ends .flush)
  | flushonesEmpty (h₀ : w.cur = 0) : WriterCommand w .flushones (.responds .ok 0 w)
  | flushones (h₀ : w.cur ≠ 0) :
      WriterCommand w .flushones ((emitStep (padWithOnes w)).ends .flushones)

theorem WriterCommand.exists_of_unit {i : Instr} (hu : i.unit = .unitW) (w : WriterUnit) :
    ∃ res, WriterCommand w i res := by
  cases i with
  | readbit => cases hu
  | readbits n => cases hu
  | writebit x => exact ⟨_, .writebit x⟩
  | writebits n buf =>
    obtain hn | hn := le_or_gt (sint n) 0
    · exact ⟨_, .noBits n buf hn⟩
    · exact ⟨_, .writebits n buf hn⟩
  | flush =>
    by_cases h₀ : w.cur = 0
    · exact ⟨_, .flushEmpty h₀⟩
    · exact ⟨_, .flush h₀⟩
  | flushones =>
    by_cases h₀ : w.cur = 0
    · exact ⟨_, .flushonesEmpty h₀⟩
    · exact ⟨_, .flushones h₀⟩

/-- A command of unit W does to the block what it makes of the idle unit. -/
theorem WriterCommand.exec_eq {i : Instr} {s : State} {res : WriterResult}
    (hc : WriterCommand s.w i res) (hi : s.w.task = none) : exec i s = .next (res.apply s) := by
  cases hc with
  | writebit x => rw [exec, execWritebit, whenIdleW_idle hi, finishWrite_eq]
  | noBits n buf hn =>
    rw [exec, execWritebits, whenIdleW_idle hi, if_pos hn]
    rfl
  | writebits n buf hn =>
    rw [exec, execWritebits, whenIdleW_idle hi, if_neg (not_le.2 hn), finishWritebits_eq,
      sint_toNat hn]
  | flushEmpty h₀ =>
    rw [exec, execFlush, whenIdleW_idle hi, if_pos h₀]
    rfl
  | flush h₀ => rw [exec_flush_pending hi h₀, finishWrite_eq]
  | flushonesEmpty h₀ =>
    rw [exec, execFlushones, whenIdleW_idle hi, if_pos h₀]
    rfl
  | flushones h₀ => rw [exec_flushones_pending hi h₀, finishWrite_eq]

/-- What a command of unit W in flight makes of the unit when it goes on. -/
inductive WriterResume (w : WriterUnit) : WriterTask → WriterResult → Prop where
  | offer (k : WriterTask) (hk : ∀ n buf j, k ≠ .writebits n buf j) :
      WriterResume w k ((emitStep w).ends k)
  | writebits (n : Nat) (buf : List Byte) (j : Nat) :
      WriterResume w (.writebits n buf j) ((writeLoopFrom n buf j w).ends n buf)

theorem WriterResume.exists_of_task (w : WriterUnit) (k : WriterTask) :
    ∃ res, WriterResume w k res := by
  cases k with
  | writebit => exact ⟨_, .offer .writebit nofun⟩
  | writebits n buf j => exact ⟨_, .writebits n buf j⟩
  | flush => exact ⟨_, .offer .flush nofun⟩
  | flushones => exact ⟨_, .offer .flushones nofun⟩

theorem WriterResume.resume_eq {s : State} {k : WriterTask} {res : WriterResult}
    (hc : WriterResume s.w k res) (hk : s.w.task = some k) : resumeWriter s = .next (res.apply s) := by
  cases hc with
  | offer k hoffer => rw [resumeWriter_offer hk hoffer, finishWrite_eq]
  | writebits n buf j => rw [resumeWriter_writebits hk, finishWritebits_eq]

/-! ## The other unit -/

theorem ReaderResult.apply_frame (res : ReaderResult) (s : State) (w : WriterUnit) (ins : List Input) :
    res.apply { s with w := w, inputs := ins } =
      mapOutcome (fun t => { t with w := w, inputs := ins }) (res.apply s) := by cases res <;> rfl

theorem WriterResult.apply_frame (res : WriterResult) (s : State) (r : ReaderUnit)
    (ins : List Input) :
    res.apply { s with r := r, inputs := ins } = { res.apply s with r := r, inputs := ins } := by
  cases res <;> rfl

/-- A command of unit R neither sees unit W nor the inputs to come. -/
theorem exec_reader_frame {i : Instr} (hu : i.unit = .unitR) (s : State) (w : WriterUnit)
    (ins : List Input) :
    exec i { s with w := w, inputs := ins } =
      mapOutcome (fun t => { t with w := w, inputs := ins }) (exec i s) := by
  cases hb : s.busy i.unit with
  | true =>
    have hb' : ({ s with w := w, inputs := ins } : State).busy i.unit = true := by
      rw [hu] at hb ⊢; exact hb
    rw [exec_busy hb, exec_busy hb']
    rfl
  | false =>
    have hi : s.r.task = none := by rw [hu] at hb; simpa [State.busy] using hb
    obtain ⟨res, hc⟩ := ReaderCommand.exists_of_unit hu s.r
    rw [hc.exec_eq hi, ReaderCommand.exec_eq (s := { s with w := w, inputs := ins }) hc hi,
      res.apply_frame]

/-- A command of unit W neither sees unit R nor the inputs to come. -/
theorem exec_writer_frame {i : Instr} (hu : i.unit = .unitW) (s : State) (r : ReaderUnit)
    (ins : List Input) :
    exec i { s with r := r, inputs := ins } =
      mapOutcome (fun t => { t with r := r, inputs := ins }) (exec i s) := by
  cases hb : s.busy i.unit with
  | true =>
    have hb' : ({ s with r := r, inputs := ins } : State).busy i.unit = true := by
      rw [hu] at hb ⊢; exact hb
    rw [exec_busy hb, exec_busy hb']
    rfl
  | false =>
    have hi : s.w.task = none := by rw [hu] at hb; simpa [State.busy] using hb
    obtain ⟨res, hc⟩ := WriterCommand.exists_of_unit hu s.w
    rw [hc.exec_eq hi, WriterCommand.exec_eq (s := { s with r := r, inputs := ins }) hc hi,
      res.apply_frame]
    rfl

/-- Settles O49: a command is a function of its unit. -/
theorem unitsShareNoState : Obligations.UnitsShareNoState := by
  unfold Obligations.UnitsShareNoState
  refine ⟨fun i s w ins hu => ⟨exec_reader_frame hu s w ins, fun t h => ?_⟩,
    fun i s r ins hu => ⟨exec_writer_frame hu s r ins, fun t h => ?_⟩⟩
  · obtain ⟨-, -, hframe⟩ := exec_reader_end hu h
    exact hframe
  · obtain ⟨-, -, hframe⟩ := exec_writer_end hu h
    exact hframe

/-- Settles O50: the second command finds its unit as it was, and leaves the other as the first made it. -/
theorem commandsOfTwoUnitsCommute : Obligations.CommandsOfTwoUnitsCommute := by
  unfold Obligations.CommandsOfTwoUnitsCommute
  intro i j s t u hui huj ht hu
  obtain ⟨-, -, htw, htin⟩ := exec_reader_end hui ht
  obtain ⟨-, -, hur, huin⟩ := exec_writer_end huj hu
  have ht' : t = { s with r := t.r } := by rw [← htw, ← htin]
  have hu' : u = { s with w := u.w } := by rw [← hur, ← huin]
  constructor
  · rw [execAll_cons_next ht, execAll_singleton, ht']
    refine (exec_writer_frame huj s t.r s.inputs).trans ?_
    rw [hu, hu']
    rfl
  · rw [execAll_cons_next hu, execAll_singleton, hu']
    refine (exec_reader_frame hui s u.w s.inputs).trans ?_
    rw [ht, ht']
    rfl

end Sys2Proof.Machine

/-!
PROOFS. The invariants of 10_state.md section 4 (R28, R29), the shape of the responses (R77, R78), and what
follows for runs: no fault, and a next state for every answer, every reset and every command to an idle unit.
-/

namespace Sys2Proof.Machine

/-! ## The shape of responses -/

/-- The shape of a response of unit R (R77, R78). -/
def Response.ShapedR (p : Response) : Prop :=
  p.report.isSome ∧ p.status.toNat ≤ 4 ∧ (p.err.isSome ↔ p.status = 3) ∧
    (p.bit = 1 → p.status = 0 ∧ p.count = 0) ∧ p.payload.length = (p.count.toNat + 7) / 8

/-- The shape of a response of unit W (R77, R78). -/
def Response.ShapedW (p : Response) : Prop :=
  p.report.isSome ∧ p.status.toNat ≤ 4 ∧ (p.err.isSome ↔ p.status = 3) ∧ p.bit = 0 ∧ p.payload = []

/-- The error payload comes exactly with IOFAIL. -/
theorem Status.err_isSome_iff (st : Status) : st.err.isSome ↔ st.code = 3 := by
  cases st <;> simp [err, code]

theorem mkResponse_shapedR {st : Status} {k : Nat} {l : List Byte} (hk : k < 2 ^ 63)
    (hl : l.length = (k + 7) / 8) : (mkResponse st false k l).ShapedR := by
  refine ⟨by rw [report_mkResponse]; rfl, st.code_le_four, st.err_isSome_iff, nofun, ?_⟩
  rw [mkResponse_payload, mkResponse_count, BitVec.toNat_ofNat, Nat.mod_eq_of_lt (by omega), hl]

theorem mkResponse_bit_shapedR (b : Bool) : (mkResponse .ok b 0 []).ShapedR :=
  ⟨rfl, Status.ok.code_le_four, Status.ok.err_isSome_iff, fun _ => ⟨rfl, rfl⟩, by simp⟩

theorem mkResponse_shapedW (st : Status) (k : Nat) : (mkResponse st false k []).ShapedW :=
  ⟨by rw [report_mkResponse]; rfl, st.code_le_four, st.err_isSome_iff, rfl, rfl⟩

/-! ## Unit R -/

/-- R28: inside a byte the byte is present, and only a unit at the boundary is exhausted. -/
def ReaderUnit.RegInv (r : ReaderUnit) : Prop :=
  (r.cur ≠ 0 → r.byte.isSome) ∧ (r.eos = true → r.cur = 0)

theorem rbStep_bit_regInv {r r' : ReaderUnit} {b : Bool} (hs : rbStep r = .bit b r') : r'.RegInv := by
  have hc := rbStep_cases r
  rw [hs] at hc
  cases hc with
  | inside v he hc hv => exact ⟨fun _ => by simp [hv], fun h => by simp [he] at h⟩
  | byte v rest he hc ha => exact ⟨fun _ => rfl, fun h => by simp [he] at h⟩

theorem rbStep_stop_regInv {r r' : ReaderUnit} {st : Status} (h : r.RegInv)
    (hs : rbStep r = .stop st r') : r'.RegInv := by
  have hc := rbStep_cases r
  rw [hs] at hc
  obtain ⟨hbyte, heos⟩ := h
  cases hc with
  | exhausted he => exact ⟨hbyte, heos⟩
  | eos rest he hc ha => exact ⟨hbyte, fun _ => hc⟩
  | fail e rest he hc ha => exact ⟨hbyte, heos⟩

/-- A bit step waits only at the boundary, not exhausted, with no answer ready (R100, R240). -/
theorem rbStep_wait {r : ReaderUnit} (hs : rbStep r = .wait) :
    r.cur = 0 ∧ r.eos = false ∧ r.answers = [] := by
  have hc := rbStep_cases r
  rw [hs] at hc
  cases hc with
  | silent he hc ha => exact ⟨hc, he, ha⟩

/-- With the invariant no bit step reads an absent byte (R22). -/
theorem rbStep_ne_fault {r : ReaderUnit} (h : r.RegInv) (x : Fault) : rbStep r ≠ .fault x := by
  intro hs
  have hc := rbStep_cases r
  rw [hs] at hc
  cases hc with
  | absent he hc hv =>
    have hpresent := h.1 hc
    rw [hv] at hpresent
    cases hpresent

/-- A command of unit R that started with these responses ended well: with the registers' invariant and a
well-shaped response, or with what a command in flight holds. -/
def ReaderResult.Good (l : List Response) : ReaderResult → Prop
  | .responds p r => r.RegInv ∧ r.responses = l ∧ p.ShapedR
  | .waits k r => r.RegInv ∧ r.responses = l ∧ ({ r with task := some k } : ReaderUnit).TaskInv
  | .faults _ => False

theorem rbStep_good {r : ReaderUnit} (h : r.RegInv) : ((rbStep r).ends r).Good r.responses := by
  cases hs : rbStep r with
  | bit b r' => exact ⟨rbStep_bit_regInv hs, (KeepsPort.of_bit hs).2, mkResponse_bit_shapedR b⟩
  | stop st r' =>
    exact ⟨rbStep_stop_regInv h hs, (KeepsPort.of_stop hs).2, mkResponse_shapedR (by omega) rfl⟩
  | wait => exact ⟨h, rfl, rbStep_wait (r := r) hs⟩
  | fault x => exact absurd hs (rbStep_ne_fault h x)

theorem readLoop_good {n k : Nat} {pk : Pack} {r : ReaderUnit} (h : r.RegInv) (hpk : pk.Inv k)
    (hn : n + k < 2 ^ 63) : (readLoop n k pk r).ends.Good r.responses := by
  have hl := readLoop_ind (P := fun k pk r' => pk.Inv k ∧ r'.RegInv ∧ KeepsPort r r')
    (fun _ _ _ b _ ⟨hpk, _, hport⟩ hs =>
      ⟨Pack.inv_put hpk b, rbStep_bit_regInv hs, hport.trans (.of_bit hs)⟩)
    n k pk r ⟨hpk, h, rfl, rfl⟩
  cases hr : readLoop n k pk r with
  | done st k' pk' r' =>
    rw [hr] at hl
    obtain ⟨-, hk, hpk', hreg, hport⟩ | ⟨hk, r₁, ⟨hpk', hreg, hport⟩, hs⟩ := hl
    · exact ⟨hreg, hport.2, mkResponse_shapedR (by omega) (Pack.finish_length hpk')⟩
    · exact ⟨rbStep_stop_regInv hreg hs, (hport.trans (.of_stop hs)).2,
        mkResponse_shapedR (by omega) (Pack.finish_length hpk')⟩
  | wait m k' pk' r' =>
    rw [hr] at hl
    obtain ⟨hm, hk, ⟨hpk', hreg, hport⟩, hs⟩ := hl
    exact ⟨hreg, hport.2, rbStep_wait (r := r') hs, hm, by omega, hpk'⟩
  | fault x =>
    rw [hr] at hl
    obtain ⟨k', pk', r', ⟨-, hreg, -⟩, hs⟩ := hl
    exact absurd hs (rbStep_ne_fault hreg x)

theorem sint_toNat_lt {n : Word} (hn : 0 < sint n) : n.toNat < 2 ^ 63 := by
  have hlt := BitVec.toInt_lt (x := n)
  rw [← sint_toNat hn]
  unfold sint at hn ⊢
  omega

theorem ReaderCommand.good {i : Instr} {r : ReaderUnit} {res : ReaderResult}
    (hc : ReaderCommand r i res) (h : r.RegInv) : res.Good r.responses := by
  cases hc with
  | readbit => exact rbStep_good h
  | noBits n hn => exact ⟨h, rfl, mkResponse_shapedR (by omega) rfl⟩
  | readbits n hn => exact readLoop_good h Pack.inv_empty (by have := sint_toNat_lt hn; omega)

/-- What is left of `TaskInv` when an answer comes is enough to go on. -/
theorem ReaderResume.good {k : ReaderTask} {r r' : ReaderUnit} {res : ReaderResult}
    (hc : ReaderResume r' k res) (hk : r.task = some k) (htask : r.TaskInv) (h : r'.RegInv) :
    res.Good r'.responses := by
  rw [ReaderUnit.TaskInv, hk] at htask
  cases hc with
  | readbit => exact rbStep_good h
  | readbits n k pk =>
    obtain ⟨-, -, hn, hpk⟩ := htask
    exact readLoop_good h hpk hn

/-! ## Unit W -/

/-- The accumulator between commands (R29): zeros from the cursor on, or a byte that HOLD kept. -/
def WriterUnit.Settled (w : WriterUnit) : Prop := w.Clean ∨ (w.cur = 7 ∧ w.policy = .hold)

/-- The accumulator while a byte is offered: zeros from the cursor on, or a completed byte. -/
def WriterUnit.Offerable (w : WriterUnit) : Prop := w.Clean ∨ w.cur = 7

theorem WriterUnit.Settled.offerable {w : WriterUnit} (h : w.Settled) : w.Offerable :=
  h.imp_right And.left

/-- R29 (a), (b) of unit W's invariant. -/
def WriterUnit.AccInv (w : WriterUnit) : Prop :=
  (∀ q : Position, w.cur < q → bitAt w.acc q = false) ∧
    (w.cur ≠ 7 ∨ (w.task = none ∧ w.policy = .drop) → bitAt w.acc w.cur = false)

/-- No position is after the last. -/
theorem position_le_seven (q : Position) : q ≤ 7 := Fin.le_last q

theorem WriterUnit.accInv_iff_of_idle {w : WriterUnit} (hi : w.task = none) :
    w.AccInv ↔ w.Settled := by
  constructor
  · rintro ⟨hafter, hcur⟩
    by_cases hw : w.cur = 7 ∧ w.policy = .hold
    · exact .inr hw
    · refine .inl fun q hq => ?_
      obtain heq | hlt := hq.eq_or_lt
      · refine heq ▸ hcur (or_iff_not_imp_left.2 fun h7 => ⟨hi, ?_⟩)
        cases hp : w.policy with
        | hold => exact absurd ⟨not_not.1 h7, hp⟩ hw
        | drop => rfl
      · exact hafter q hlt
  · rintro (hclean | ⟨h7, hp⟩)
    · exact ⟨fun q hq => hclean q hq.le, fun _ => hclean _ le_rfl⟩
    · refine ⟨fun q hq => absurd hq (not_lt.2 (h7 ▸ position_le_seven q)), ?_⟩
      rintro (hne | ⟨-, hdrop⟩)
      · exact absurd h7 hne
      · rw [hp] at hdrop; cases hdrop

theorem WriterUnit.accInv_iff_of_busy {w : WriterUnit} {k : WriterTask} (hk : w.task = some k) :
    w.AccInv ↔ w.Offerable := by
  constructor
  · rintro ⟨hafter, hcur⟩
    by_cases h7 : w.cur = 7
    · exact .inr h7
    · refine .inl fun q hq => ?_
      obtain heq | hlt := hq.eq_or_lt
      · exact heq ▸ hcur (.inl h7)
      · exact hafter q hlt
  · rintro (hclean | h7)
    · exact ⟨fun q hq => hclean q hq.le, fun _ => hclean _ le_rfl⟩
    · refine ⟨fun q hq => absurd hq (not_lt.2 (h7 ▸ position_le_seven q)), ?_⟩
      rintro (hne | ⟨hi, -⟩)
      · exact absurd h7 hne
      · rw [hk] at hi; cases hi

theorem clean_zero {w : WriterUnit} (h : w.acc = 0x00) : w.Clean := fun q _ => by
  rw [h]; exact bitAt_zero q

/-- An answered offer leaves the accumulator settled (R11, R143). -/
theorem emitStep_settled {w w' : WriterUnit} {st : Status} (h : w.Offerable)
    (hs : emitStep w = .done st w') : w'.Settled := by
  have hc := emitStep_cases w
  rw [hs] at hc
  cases hc with
  | ack rest ha => exact .inl (clean_zero rfl)
  | fail e rest ha =>
    cases hp : w.policy with
    | hold => simpa [WriterUnit.Settled, WriterUnit.Clean, hp, WriterUnit.Offerable] using h
    | drop => exact .inl (clean_zero (by simp))

theorem emitStep_wait {w w' : WriterUnit} (hs : emitStep w = .wait w') :
    w' = w ∧ w.answers = [] := by
  have hc := emitStep_cases w
  rw [hs] at hc
  cases hc with
  | silent ha => exact ⟨rfl, ha⟩

theorem writeBitAt_settled {b : Bool} {w w' : WriterUnit} {st : Status} (h : w.Settled)
    (hs : writeBitAt b w = .done st w') : w'.Settled := by
  by_cases h7 : w.cur = 7
  · rw [writeBitAt_completes h7] at hs
    exact emitStep_settled (w := { w with acc := setBit w.acc 7 b }) (.inr h7) hs
  · rw [writeBitAt_inside h7] at hs
    cases hs
    exact .inl (Clean.inside (h.resolve_right fun hk => h7 hk.1) h7)

theorem writeBitAt_wait {b : Bool} {w w' : WriterUnit} (hs : writeBitAt b w = .wait w') :
    w.cur = 7 ∧ w.answers = [] ∧ w' = { w with acc := setBit w.acc 7 b } := by
  by_cases h7 : w.cur = 7
  · rw [writeBitAt_completes h7] at hs
    obtain ⟨hw, ha⟩ := emitStep_wait hs
    exact ⟨h7, ha, hw⟩
  · rw [writeBitAt_inside h7] at hs
    cases hs

/-- A command of unit W that started with these responses ended well: settled with a response, or with what
a command in flight holds. -/
def WriterResult.Good (l : List Response) : WriterResult → Prop
  | .responds _ _ w => w.Settled ∧ w.responses = l
  | .waits k w => w.Offerable ∧ w.responses = l ∧ ({ w with task := some k } : WriterUnit).TaskInv

theorem emitStep_good {k : WriterTask} {w : WriterUnit} (h : w.Offerable)
    (hk : w.answers = [] → ({ w with task := some k } : WriterUnit).TaskInv) :
    ((emitStep w).ends k).Good w.responses := by
  have hg := emitStep_grows w
  cases hs : emitStep w with
  | done st w' => rw [hs] at hg; exact ⟨emitStep_settled h hs, hg.responses⟩
  | wait w' =>
    obtain ⟨rfl, ha⟩ := emitStep_wait hs
    exact ⟨h, rfl, hk ha⟩

theorem writeBitAt_good {b : Bool} {w : WriterUnit} (h : w.Settled) :
    ((writeBitAt b w).ends .writebit).Good w.responses := by
  have hg := writeBitAt_grows b w
  cases hs : writeBitAt b w with
  | done st w' => rw [hs] at hg; exact ⟨writeBitAt_settled h hs, hg.responses⟩
  | wait w' =>
    obtain ⟨h7, ha, rfl⟩ := writeBitAt_wait hs
    exact ⟨.inr h7, rfl, ha, h7⟩

theorem wbStep_good {x : Int} {w : WriterUnit} (h : w.Settled) :
    ((wbStep x w).ends .writebit).Good w.responses := by
  unfold wbStep
  split
  · exact ⟨h, rfl⟩
  · exact writeBitAt_good h

theorem writeLoop_good {n m j : Nat} {buf : List Byte} {w : WriterUnit} (h : w.Settled)
    (hn : n < 2 ^ 63) (hm : j + m ≤ bitsToWrite n buf) :
    ((writeLoop n buf m j w).ends n buf).Good w.responses := by
  have hg := writeLoop_grows n buf m j w
  have hl := writeLoop_ind (P := fun _ w' => w'.Settled) n buf
    (fun _ _ _ hset hs => writeBitAt_settled hset hs) m j w h
  cases hr : writeLoop n buf m j w with
  | done st k w' =>
    rw [hr] at hg hl
    obtain ⟨-, -, hset⟩ | ⟨-, -, w₁, hset, hs⟩ := hl
    · exact ⟨hset, hg.responses⟩
    · exact ⟨writeBitAt_settled hset hs, hg.responses⟩
  | wait k w' =>
    rw [hr] at hg hl
    obtain ⟨hk, w₁, -, hs⟩ := hl
    obtain ⟨h7, ha, rfl⟩ := writeBitAt_wait hs
    exact ⟨.inr h7, hg.responses, ⟨ha, h7⟩, hn, by omega⟩

theorem writeLoopFrom_good {n j : Nat} {buf : List Byte} {w : WriterUnit} (h7 : w.cur = 7)
    (hn : n < 2 ^ 63) (hj : j < bitsToWrite n buf) :
    ((writeLoopFrom n buf j w).ends n buf).Good w.responses := by
  obtain ⟨answers, ha⟩ : ∃ answers, w.answers = answers := ⟨_, rfl⟩
  cases answers with
  | nil =>
    rw [writeLoopFrom_silent n buf j ha]
    exact ⟨.inr h7, rfl, ⟨ha, h7⟩, hn, hj⟩
  | cons a rest =>
    cases a with
    | ack =>
      rw [writeLoopFrom_ack n buf j ha]
      exact writeLoop_good (.inl (clean_zero rfl)) hn (by omega)
    | fail e =>
      rw [writeLoopFrom_fail n buf j ha]
      exact ⟨emitStep_settled (.inr h7) (emitStep_fail ha), rfl⟩

theorem WriterCommand.good {i : Instr} {w : WriterUnit} {res : WriterResult}
    (hc : WriterCommand w i res) (h : w.Settled) : res.Good w.responses := by
  cases hc with
  | writebit x => exact wbStep_good h
  | noBits n buf hn => exact ⟨h, rfl⟩
  | writebits n buf hn => exact writeLoop_good h (sint_toNat_lt hn) (by omega)
  | flushEmpty h₀ => exact ⟨h, rfl⟩
  | flush h₀ => exact emitStep_good h.offerable fun ha => ⟨ha, h₀⟩
  | flushonesEmpty h₀ => exact ⟨h, rfl⟩
  | flushones h₀ => exact emitStep_good (w := padWithOnes w) (.inr rfl) fun ha => ⟨ha, rfl⟩

/-- What is left of `TaskInv` when an answer comes is enough to go on. -/
theorem WriterResume.good {k : WriterTask} {w : WriterUnit} {l : List SinkAnswer}
    {res : WriterResult} (hc : WriterResume { w with answers := l } k res) (hk : w.task = some k)
    (htask : w.TaskInv) (h : w.Offerable) : res.Good w.responses := by
  rw [WriterUnit.TaskInv, hk] at htask
  cases hc with
  | offer k hoffer =>
    refine emitStep_good (w := { w with answers := l }) h fun ha => ?_
    cases k with
    | writebit => exact ⟨ha, htask.2⟩
    | writebits n buf j => exact absurd rfl (hoffer n buf j)
    | flush => exact ⟨ha, htask.2⟩
    | flushones => exact ⟨ha, htask.2⟩
  | writebits n buf j =>
    obtain ⟨⟨-, h7⟩, hn, hj⟩ := htask
    exact writeLoopFrom_good (w := { w with answers := l }) h7 hn hj

/-! ## One input -/

/-- From unit R to unit R after an input: the invariants, and a response of the right shape if one was
delivered. -/
structure ReaderUnit.Follows (r r' : ReaderUnit) : Prop where
  inv : r'.Inv
  shape : ∀ p, r'.responses = r.responses ++ [p] → p.ShapedR

/-- From unit W to unit W after an input. -/
structure WriterUnit.Follows (w w' : WriterUnit) : Prop where
  inv : w'.Inv
  shape : ∀ p, w'.responses = w.responses ++ [p] → p.ShapedW

/-- A unit R that delivers nothing. -/
theorem ReaderUnit.Follows.of_inv {r r' : ReaderUnit} (h : r'.Inv)
    (hresp : r'.responses = r.responses) : r.Follows r' :=
  ⟨h, fun p hp => by simp [hresp] at hp⟩

/-- A unit W that delivers nothing. -/
theorem WriterUnit.Follows.of_inv {w w' : WriterUnit} (h : w'.Inv)
    (hresp : w'.responses = w.responses) : w.Follows w' :=
  ⟨h, fun p hp => by simp [hresp] at hp⟩

theorem ReaderUnit.Inv.regInv {r : ReaderUnit} (h : r.Inv) : r.RegInv := by
  obtain ⟨hbyte, heos, -, -⟩ := h
  exact ⟨hbyte, heos⟩

theorem ReaderUnit.Inv.taskInv {r : ReaderUnit} (h : r.Inv) : r.TaskInv := by
  obtain ⟨-, -, htask, -⟩ := h
  exact htask

theorem WriterUnit.Inv.accInv {w : WriterUnit} (h : w.Inv) : w.AccInv := by
  obtain ⟨hafter, hcur, -, -⟩ := h
  exact ⟨hafter, hcur⟩

theorem WriterUnit.Inv.taskInv {w : WriterUnit} (h : w.Inv) : w.TaskInv := by
  obtain ⟨-, -, htask, -⟩ := h
  exact htask

/-- A good end of a command of unit R gives a next state. -/
theorem ReaderResult.Good.next {l : List Response} {res : ReaderResult} (h : res.Good l) (s : State) :
    ∃ t, res.apply s = .next t := by
  cases res with
  | responds p r' => exact ⟨_, rfl⟩
  | waits k r' => exact ⟨_, rfl⟩
  | faults x => exact h.elim

theorem ReaderResult.Good.follows {r : ReaderUnit} {res : ReaderResult} {s t : State}
    (h : res.Good r.responses) (ht : res.apply s = .next t) (hst : t.r.stale = true → t.r.answers = []) :
    r.Follows t.r := by
  cases res with
  | responds p r' =>
    cases ht
    obtain ⟨⟨hbyte, heos⟩, hresp, hp⟩ := h
    refine ⟨⟨hbyte, heos, trivial, hst⟩, fun p' hp' => ?_⟩
    rw [respondR_responses, hresp] at hp'
    exact List.singleton_inj.1 (List.append_cancel_left hp') ▸ hp
  | waits k r' =>
    cases ht
    obtain ⟨⟨hbyte, heos⟩, hresp, htask⟩ := h
    exact .of_inv ⟨hbyte, heos, htask, hst⟩ hresp
  | faults x => exact h.elim

theorem WriterResult.Good.follows {w : WriterUnit} {res : WriterResult} {s : State}
    (h : res.Good w.responses)
    (hst : (res.apply s).w.stale = true → (res.apply s).w.answers = []) :
    w.Follows (res.apply s).w := by
  cases res with
  | responds st n w' =>
    obtain ⟨hset, hresp⟩ := h
    obtain ⟨hafter, hcur⟩ :=
      (WriterUnit.accInv_iff_of_idle (w := respondW (mkResponse st false n []) w') rfl).2 hset
    refine ⟨⟨hafter, hcur, trivial, hst⟩, fun p hp => ?_⟩
    rw [WriterResult.apply, respondW_responses, hresp] at hp
    exact List.singleton_inj.1 (List.append_cancel_left hp) ▸ mkResponse_shapedW st n
  | waits k w' =>
    obtain ⟨hoff, hresp, htask⟩ := h
    obtain ⟨hafter, hcur⟩ :=
      (WriterUnit.accInv_iff_of_busy (w := { w' with task := some k }) rfl).2 hoff
    exact .of_inv ⟨hafter, hcur, htask, hst⟩ hresp

/-- Answers used up from the front keep that none stands ready while an abandoned one is to come. -/
theorem stale_answers_of_suffix {α : Type} {b b' : Bool} {l l' : List α}
    (h : b = true → l = []) (hb : b' = b) (hl : l' <:+ l) : b' = true → l' = [] := by
  intro hb'
  rw [h (hb ▸ hb')] at hl
  exact List.suffix_nil.1 hl

theorem exec_reader_follows {i : Instr} {s t : State} (hu : i.unit = .unitR) (h : s.r.Inv)
    (ht : exec i s = .next t) : s.r.Follows t.r := by
  obtain ⟨hi, hend, -, -⟩ := exec_reader_end hu ht
  obtain ⟨hstale, hans⟩ := hend.keeps
  obtain ⟨res, hc⟩ := ReaderCommand.exists_of_unit hu s.r
  have hgood := hc.good h.regInv
  obtain ⟨-, -, -, hst⟩ := h
  exact hgood.follows ((hc.exec_eq hi).symm.trans ht) (stale_answers_of_suffix hst hstale hans)

theorem exec_writer_follows {i : Instr} {s t : State} (hu : i.unit = .unitW) (h : s.w.Inv)
    (ht : exec i s = .next t) : s.w.Follows t.w := by
  obtain ⟨hi, hend, -, -⟩ := exec_writer_end hu ht
  obtain ⟨hstale, hans⟩ := hend.keeps
  obtain ⟨res, hc⟩ := WriterCommand.exists_of_unit hu s.w
  cases (hc.exec_eq hi).symm.trans ht
  have hgood := hc.good ((WriterUnit.accInv_iff_of_idle hi).1 h.accInv)
  obtain ⟨-, -, -, hst⟩ := h
  exact hgood.follows (stale_answers_of_suffix hst hstale hans)

/-- An answer that unit R's invariants let in gives a next state that follows. -/
theorem sourceAnswered_follows {s : State} (h : s.r.Inv) (a : SourceAnswer) :
    ∃ t, sourceAnswered a s = .next t ∧ s.r.Follows t.r := by
  have hreg := h.regInv
  have htask := h.taskInv
  obtain ⟨hbyte, heos, -, -⟩ := h
  cases hst : s.r.stale with
  | true => exact ⟨_, sourceAnswered_stale hst a, .of_inv ⟨hbyte, heos, htask, nofun⟩ rfl⟩
  | false =>
    rw [sourceAnswered_ready hst]
    have hst' (t : State) (ht : t.r.stale = s.r.stale) : t.r.stale = true → t.r.answers = [] := by
      rw [ht, hst]; nofun
    cases hk : s.r.task with
    | none =>
      refine ⟨_, resumeReader_idle hk, .of_inv ⟨hbyte, heos, ?_, hst' _ rfl⟩ rfl⟩
      rw [ReaderUnit.TaskInv, show _ = none from hk]
      trivial
    | some k =>
      obtain ⟨res, hc⟩ :=
        ReaderResume.exists_of_task { s.r with answers := s.r.answers ++ [a] } k
      have heq := hc.resume_eq (s := { s with r := { s.r with answers := s.r.answers ++ [a] } }) hk
      have hgood := hc.good hk htask hreg
      obtain ⟨t, ht⟩ := hgood.next { s with r := { s.r with answers := s.r.answers ++ [a] } }
      have hnext := heq.trans ht
      refine ⟨t, hnext, hgood.follows (r := s.r) ht (hst' t ?_)⟩
      obtain ⟨hidle, -⟩ | ⟨hend, -, -⟩ := resumeReader_end hnext
      · cases hk.symm.trans hidle
      · exact hend.keeps.1

/-- An answer that unit W's invariants let in gives a next state that follows. -/
theorem sinkAnswered_follows {s : State} (h : s.w.Inv) (a : SinkAnswer) :
    ∃ t, sinkAnswered a s = .next t ∧ s.w.Follows t.w := by
  have hacc := h.accInv
  have htask := h.taskInv
  obtain ⟨hafter, hcur, -, -⟩ := h
  cases hst : s.w.stale with
  | true => exact ⟨_, sinkAnswered_stale hst a, .of_inv ⟨hafter, hcur, htask, nofun⟩ rfl⟩
  | false =>
    rw [sinkAnswered_ready hst]
    have hst' (t : State) (ht : t.w.stale = s.w.stale) : t.w.stale = true → t.w.answers = [] := by
      rw [ht, hst]; nofun
    cases hk : s.w.task with
    | none =>
      refine ⟨_, resumeWriter_idle hk, .of_inv ⟨hafter, hcur, ?_, hst' _ rfl⟩ rfl⟩
      rw [WriterUnit.TaskInv, show _ = none from hk]
      trivial
    | some k =>
      obtain ⟨res, hc⟩ :=
        WriterResume.exists_of_task { s.w with answers := s.w.answers ++ [a] } k
      have hnext := hc.resume_eq (s := { s with w := { s.w with answers := s.w.answers ++ [a] } }) hk
      have hgood := hc.good hk htask ((WriterUnit.accInv_iff_of_busy hk).1 hacc)
      refine ⟨_, hnext, hgood.follows (w := s.w) (hst' _ ?_)⟩
      obtain ⟨hidle, -⟩ | ⟨hend, -, -⟩ := resumeWriter_end hnext
      · cases hk.symm.trans hidle
      · exact hend.keeps.1

/-- A command in flight has no answer ready. -/
theorem ReaderUnit.TaskInv.answers {r : ReaderUnit} (h : r.TaskInv) (hk : r.task.isSome) :
    r.answers = [] := by
  unfold TaskInv at h
  split at h
  · rename_i hi; rw [hi] at hk; cases hk
  · obtain ⟨-, -, ha⟩ := h; exact ha
  · obtain ⟨⟨-, -, ha⟩, -⟩ := h; exact ha

theorem WriterUnit.TaskInv.answers {w : WriterUnit} (h : w.TaskInv) (hk : w.task.isSome) :
    w.answers = [] := by
  unfold TaskInv at h
  split at h
  · rename_i hi; rw [hi] at hk; cases hk
  · obtain ⟨ha, -⟩ := h; exact ha
  · obtain ⟨⟨ha, -⟩, -⟩ := h; exact ha
  · obtain ⟨ha, -⟩ := h; exact ha
  · obtain ⟨ha, -⟩ := h; exact ha

theorem ReaderUnit.Inv.applyReset {r : ReaderUnit} (h : r.Inv) : r.applyReset.Inv := by
  have htask := h.taskInv
  obtain ⟨-, -, -, hst⟩ := h
  refine ⟨nofun, nofun, trivial, fun hs => ?_⟩
  obtain hs | hk := Bool.or_eq_true_iff.1 hs
  · exact hst hs
  · exact htask.answers hk

theorem WriterUnit.Inv.applyReset {w : WriterUnit} (h : w.Inv) : w.applyReset.Inv := by
  have htask := h.taskInv
  obtain ⟨-, -, -, hst⟩ := h
  refine ⟨fun q _ => bitAt_zero q, fun _ => bitAt_zero _, trivial, fun hs => ?_⟩
  obtain hs | hk := Bool.or_eq_true_iff.1 hs
  · exact hst hs
  · exact htask.answers hk

/-- Every input keeps the invariants and delivers well-shaped responses. -/
theorem InputCases.follows {s t : State} {x : Input} (hx : InputCases s x t) (h : s.Inv) :
    s.r.Follows t.r ∧ s.w.Follows t.w := by
  obtain ⟨hr, hw⟩ := h
  have samer : s.r.Follows s.r := .of_inv hr rfl
  have samew : s.w.Follows s.w := .of_inv hw rfl
  cases hx with
  | execR i hd hu h =>
    obtain ⟨-, -, htw, -⟩ := exec_reader_end hu h
    exact ⟨exec_reader_follows hu hr h, htw ▸ samew⟩
  | execW i hd hu h =>
    obtain ⟨-, -, htr, -⟩ := exec_writer_end hu h
    exact ⟨htr ▸ samer, exec_writer_follows hu hw h⟩
  | illegalR hi =>
    have hgood : (ReaderResult.responds (mkResponse .illegalCmd false 0 []) s.r).Good s.r.responses :=
      ⟨hr.regInv, rfl, mkResponse_shapedR (by omega) rfl⟩
    obtain ⟨-, -, -, hst⟩ := hr
    exact ⟨hgood.follows (s := s) rfl hst, samew⟩
  | illegalW hi =>
    have hgood : (WriterResult.responds .illegalCmd 0 s.w).Good s.w.responses :=
      ⟨(WriterUnit.accInv_iff_of_idle hi).1 hw.accInv, rfl⟩
    obtain ⟨-, -, -, hst⟩ := hw
    exact ⟨samer, hgood.follows (s := s) hst⟩
  | @sourceReady a t hst h =>
    obtain ⟨t', ht', hfollows⟩ := sourceAnswered_follows hr a
    rw [sourceAnswered_ready hst, h] at ht'
    cases ht'
    refine ⟨hfollows, ?_⟩
    obtain ⟨-, rfl⟩ | ⟨-, htw, -⟩ := resumeReader_end h
    · exact samew
    · exact htw ▸ samew
  | @sourceStale a hst =>
    obtain ⟨t', ht', hfollows⟩ := sourceAnswered_follows hr a
    rw [sourceAnswered_stale hst] at ht'
    cases ht'
    exact ⟨hfollows, samew⟩
  | @sinkReady a t hst h =>
    obtain ⟨t', ht', hfollows⟩ := sinkAnswered_follows hw a
    rw [sinkAnswered_ready hst, h] at ht'
    cases ht'
    refine ⟨?_, hfollows⟩
    obtain ⟨-, rfl⟩ | ⟨-, htr, -⟩ := resumeWriter_end h
    · exact samer
    · exact htr ▸ samer
  | @sinkStale a hst =>
    obtain ⟨t', ht', hfollows⟩ := sinkAnswered_follows hw a
    rw [sinkAnswered_stale hst] at ht'
    cases ht'
    exact ⟨samer, hfollows⟩
  | resetR => exact ⟨.of_inv hr.applyReset rfl, samew⟩
  | resetW => exact ⟨samer, .of_inv hw.applyReset rfl⟩
  | resetBlock => exact ⟨.of_inv hr.applyReset rfl, .of_inv hw.applyReset rfl⟩

/-! ## Steps -/

theorem step_follows {s t : State} (hinv : s.Inv) (h : step s = .next t) :
    s.r.Follows t.r ∧ s.w.Follows t.w := by
  obtain ⟨-, rfl⟩ | ⟨x, rest, -, hx⟩ := step_cases h
  · obtain ⟨hr, hw⟩ := hinv
    exact ⟨.of_inv hr rfl, .of_inv hw rfl⟩
  · exact hx.follows hinv

/-- Settles O44: what follows from a unit with the invariants has them. -/
theorem stepKeepsTheInvariants : Obligations.StepKeepsTheInvariants := by
  unfold Obligations.StepKeepsTheInvariants
  intro s t hinv h
  obtain ⟨hr, hw⟩ := step_follows hinv h
  exact ⟨hr.inv, hw.inv⟩

/-- Settles O53: what follows from a unit with the invariants delivers well-shaped responses. -/
theorem responsesAreWellShaped : Obligations.ResponsesAreWellShaped := by
  unfold Obligations.ResponsesAreWellShaped
  intro s t p hinv h
  obtain ⟨hr, hw⟩ := step_follows hinv h
  exact ⟨hr.shape p, hw.shape p⟩

/-- Settles O45: every clause speaks of a register that reset has cleared. -/
theorem resetHasTheInvariants : Obligations.ResetHasTheInvariants :=
  ⟨⟨nofun, nofun, trivial, nofun⟩, fun q _ => bitAt_zero q, fun _ => bitAt_zero _, trivial, nofun⟩

/-- Settles O47: unit R's command ends well, and unit W's always gives a next state. -/
theorem idleUnitsTakeEveryCommand : Obligations.IdleUnitsTakeEveryCommand := by
  unfold Obligations.IdleUnitsTakeEveryCommand
  rintro i s ⟨hr, -⟩ hidle
  cases hu : i.unit with
  | unitR =>
    rw [hu] at hidle
    obtain ⟨res, hc⟩ := ReaderCommand.exists_of_unit hu s.r
    rw [hc.exec_eq (by simpa [State.busy] using hidle)]
    exact (hc.good hr.regInv).next s
  | unitW =>
    rw [hu] at hidle
    obtain ⟨res, hc⟩ := WriterCommand.exists_of_unit hu s.w
    exact ⟨_, hc.exec_eq (by simpa [State.busy] using hidle)⟩

/-! ## Runs -/

theorem run_stop {s : State} (h : ∀ t, step s ≠ .next t) (k : Nat) :
    Sys2Proof.core.run (k + 1) s = step s := by
  have hcore : Sys2Proof.core.step s = step s := rfl
  simp only [Host.Core.run, hcore]
  cases hs : step s with
  | next t => exact absurd hs (h t)
  | fault x => rfl
  | refused w => rfl

theorem exec_ne_fault {i : Instr} {s : State} (hinv : s.Inv) (x : Fault) : exec i s ≠ .fault x := by
  cases hb : s.busy i.unit with
  | true => rw [exec_busy hb]; nofun
  | false =>
    obtain ⟨t, ht⟩ := idleUnitsTakeEveryCommand i s hinv hb
    rw [ht]; nofun

theorem execIllegal_ne_fault (port : UnitId) (s : State) (x : Fault) :
    execIllegal port s ≠ .fault x := by
  cases hb : s.busy port with
  | true => rw [execIllegal_busy hb]; nofun
  | false => rw [execIllegal_idle hb]; nofun

theorem runInput_ne_fault {s : State} (hinv : s.Inv) (i : Input) (x : Fault) :
    runInput i s ≠ .fault x := by
  obtain ⟨hr, hw⟩ := hinv
  cases i with
  | command port c =>
    rw [runInput, receive]
    cases decode port c with
    | instr i => exact exec_ne_fault ⟨hr, hw⟩ x
    | reject why =>
      simp only [rejectRecord]
      split
      · exact execIllegal_ne_fault port s x
      · nofun
  | sourceAnswer a =>
    obtain ⟨t, ht, -⟩ := sourceAnswered_follows hr a
    rw [runInput, ht]; nofun
  | sinkAnswer a =>
    obtain ⟨t, ht, -⟩ := sinkAnswered_follows hw a
    rw [runInput, ht]; nofun
  | resetR => nofun
  | resetW => nofun
  | resetBlock => nofun

theorem step_ne_fault {s : State} (hinv : s.Inv) (x : Fault) : step s ≠ .fault x := by
  cases hin : s.inputs with
  | nil => rw [step_nil hin]; nofun
  | cons i rest =>
    rw [step_cons hin]
    exact runInput_ne_fault (s := { s with inputs := rest }) hinv i x

/-- Settles O46: no step of a state with the invariants faults, and its next state has them. -/
theorem noRunReadsAnAbsentByte : Obligations.NoRunReadsAnAbsentByte := by
  unfold Obligations.NoRunReadsAnAbsentByte
  intro k
  induction k with
  | zero => intro s x _ h; cases h
  | succ k ih =>
    intro s x hinv
    cases hs : step s with
    | next t =>
      rw [run_succ_next hs]
      exact ih t x (stepKeepsTheInvariants s t hinv hs)
    | fault y => exact absurd hs (step_ne_fault hinv y)
    | refused w =>
      rw [run_stop (by simp [hs]), hs]
      nofun

/-- A step takes its input from those to come. -/
theorem InputCases.inputs {s t : State} {x : Input} (hx : InputCases s x t) : t.inputs = s.inputs := by
  cases hx with
  | execR i hd hu h => obtain ⟨-, -, -, hin⟩ := exec_reader_end hu h; exact hin
  | execW i hd hu h => obtain ⟨-, -, -, hin⟩ := exec_writer_end hu h; exact hin
  | sourceReady hst h =>
    obtain ⟨-, rfl⟩ | ⟨-, -, hin⟩ := resumeReader_end h
    · rfl
    · exact hin
  | sinkReady hst h =>
    obtain ⟨-, rfl⟩ | ⟨-, -, hin⟩ := resumeWriter_end h
    · rfl
    · exact hin
  | illegalR hi => rfl
  | illegalW hi => rfl
  | sourceStale hst => rfl
  | sinkStale hst => rfl
  | resetR => rfl
  | resetW => rfl
  | resetBlock => rfl

theorem step_inputs {s t : State} (h : step s = .next t) : t.inputs = s.inputs.tail := by
  obtain ⟨hin, rfl⟩ | ⟨x, rest, hin, hx⟩ := step_cases h
  · rw [hin]; rfl
  · rw [hx.inputs, hin]; rfl

/-- With no command to come a state with the invariants has a next state. -/
theorem step_next_of_no_command {s : State} (hinv : s.Inv)
    (hno : ∀ port c, .command port c ∉ s.inputs) : ∃ t, step s = .next t := by
  obtain ⟨hr, hw⟩ := hinv
  cases hin : s.inputs with
  | nil => exact ⟨s, step_nil hin⟩
  | cons x rest =>
    rw [step_cons hin]
    cases x with
    | command port c => exact absurd (hin ▸ List.mem_cons_self) (hno port c)
    | sourceAnswer a =>
      obtain ⟨t, ht, -⟩ := sourceAnswered_follows (s := { s with inputs := rest }) hr a
      exact ⟨t, ht⟩
    | sinkAnswer a =>
      obtain ⟨t, ht, -⟩ := sinkAnswered_follows (s := { s with inputs := rest }) hw a
      exact ⟨t, ht⟩
    | resetR => exact ⟨_, rfl⟩
    | resetW => exact ⟨_, rfl⟩
    | resetBlock => exact ⟨_, rfl⟩

/-- Settles O48: each step gives a next state, with the invariants and fewer inputs to come. -/
theorem answersAndResetsNeverStopTheBlock : Obligations.AnswersAndResetsNeverStopTheBlock := by
  unfold Obligations.AnswersAndResetsNeverStopTheBlock
  intro k
  induction k with
  | zero => intro s _ _; exact ⟨s, rfl⟩
  | succ k ih =>
    intro s hinv hno
    obtain ⟨t, ht⟩ := step_next_of_no_command hinv hno
    obtain ⟨u, hu⟩ := ih t (stepKeepsTheInvariants s t hinv ht) fun port c hmem =>
      hno port c (List.mem_of_mem_tail (step_inputs ht ▸ hmem))
    exact ⟨u, by rw [run_succ_next ht, hu]⟩

end Sys2Proof.Machine

/-!
PROOFS. What a step does to the block's history: the port's records (R70), the responses, the logs of
transactions and the answers (R58, R61), the reset lines (R230 to R234), and the end of a run (R243).
-/

namespace Sys2Proof.Machine

/-! ## Steps and reset lines -/

/-- Settles O6: `step_command`, for every record the port decodes. -/
theorem stepRunsTheDecodedCommand : Obligations.StepRunsTheDecodedCommand :=
  fun _ _ _ _ _ => step_command

/-- Settles O7: each step gives the same state again. -/
theorem blockHoldsBetweenInputs : Obligations.BlockHoldsBetweenInputs := by
  unfold Obligations.BlockHoldsBetweenInputs
  intro s k hin
  induction k with
  | zero => rfl
  | succ k ih => rw [run_succ_next (step_nil hin), ih]

section
variable {s : State} {rest : List Input}

theorem step_resetR (hin : s.inputs = .resetR :: rest) :
    step s = .next { s with r := s.r.applyReset, inputs := rest } := step_cons hin

theorem step_resetW (hin : s.inputs = .resetW :: rest) :
    step s = .next { s with w := s.w.applyReset, inputs := rest } := step_cons hin

theorem step_resetBlock (hin : s.inputs = .resetBlock :: rest) :
    step s = .next { s with r := s.r.applyReset, w := s.w.applyReset, inputs := rest } :=
  step_cons hin

end

/-- Settles O11: each line writes what `applyReset` of its unit does. -/
theorem resetLinesSetTheRegisters : Obligations.ResetLinesSetTheRegisters := by
  unfold Obligations.ResetLinesSetTheRegisters
  intro s rest r' w'
  exact ⟨step_resetR, step_resetW, step_resetBlock⟩

section
variable {s : State} {rest : List Input}

theorem step_sourceStale {a : SourceAnswer} (hin : s.inputs = .sourceAnswer a :: rest)
    (hst : s.r.stale = true) :
    step s = .next { s with r := { s.r with stale := false }, inputs := rest } :=
  (step_cons hin).trans (sourceAnswered_stale (s := { s with inputs := rest }) hst a)

theorem step_sourceReady {a : SourceAnswer} (hin : s.inputs = .sourceAnswer a :: rest)
    (hst : s.r.stale = false) : step s =
      resumeReader { s with r := { s.r with answers := s.r.answers ++ [a] }, inputs := rest } :=
  (step_cons hin).trans (sourceAnswered_ready (s := { s with inputs := rest }) hst a)

theorem step_sinkStale {a : SinkAnswer} (hin : s.inputs = .sinkAnswer a :: rest)
    (hst : s.w.stale = true) :
    step s = .next { s with w := { s.w with stale := false }, inputs := rest } :=
  (step_cons hin).trans (sinkAnswered_stale (s := { s with inputs := rest }) hst a)

theorem step_sinkReady {a : SinkAnswer} (hin : s.inputs = .sinkAnswer a :: rest)
    (hst : s.w.stale = false) : step s =
      resumeWriter { s with w := { s.w with answers := s.w.answers ++ [a] }, inputs := rest } :=
  (step_cons hin).trans (sinkAnswered_ready (s := { s with inputs := rest }) hst a)

end

/-- Settles O12: the reset marks the answer in flight, and its arrival clears the mark. -/
theorem resetAbandonsTheCommandInFlight : Obligations.ResetAbandonsTheCommandInFlight := by
  unfold Obligations.ResetAbandonsTheCommandInFlight
  constructor
  · intro s a rest hin hk
    rw [run_succ_next (step_resetR hin)]
    exact run_one_next (step_sourceStale rfl (by simp [hk]))
  · intro s a rest hin hk
    rw [run_succ_next (step_resetW hin)]
    exact run_one_next (step_sinkStale rfl (by simp [hk]))

/-! ## Responses -/

theorem BitChain.keepsPort {r r' : ReaderUnit} {n : Nat} (h : BitChain r n r') : KeepsPort r r' := by
  induction h with
  | refl => exact ⟨rfl, rfl⟩
  | snoc _ hs ih => exact ih.trans (.of_bit hs)

/-- A command of unit R delivers one response and is over, or none and is in flight. -/
theorem ReaderEnd.port {r r' : ReaderUnit} (h : ReaderEnd r r') :
    (r'.task = none ∧ ∃ p, r'.responses = r.responses ++ [p]) ∨
      (r'.task.isSome ∧ r'.responses = r.responses) := by
  cases h with
  | responds p h => exact .inl ⟨rfl, p, congrArg (· ++ [p]) h.keepsPort.2⟩
  | stops p h hs => exact .inl ⟨rfl, p, congrArg (· ++ [p]) (h.keepsPort.trans (.of_stop hs)).2⟩
  | waits k h hs => exact .inr ⟨rfl, h.keepsPort.2⟩

/-- A command of unit W delivers one response and is over, or none and is in flight. -/
theorem WriterEnd.port {w w' : WriterUnit} (h : WriterEnd w w') :
    (w'.task = none ∧ ∃ p, w'.responses = w.responses ++ [p]) ∨
      (w'.task.isSome ∧ w'.responses = w.responses) := by
  cases h with
  | responds p h => exact .inl ⟨rfl, p, congrArg (· ++ [p]) h.responses⟩
  | waits k h => exact .inr ⟨rfl, h.responses⟩

/-- Settles O9: by the end of the command, on its unit's port. -/
theorem oneResponsePerCommand : Obligations.OneResponsePerCommand := by
  unfold Obligations.OneResponsePerCommand
  intro i s t h
  cases hu : i.unit with
  | unitR =>
    obtain ⟨-, hend, htw, -⟩ := exec_reader_end hu h
    exact ⟨by rw [htw], hend.port⟩
  | unitW =>
    obtain ⟨-, hend, htr, -⟩ := exec_writer_end hu h
    exact ⟨by rw [htr], hend.port⟩

/-! ## The history only grows -/

/-- Unit R takes back no transaction and no response. -/
def ReaderUnit.Grows (r r' : ReaderUnit) : Prop :=
  r.log <+: r'.log ∧ r.responses <+: r'.responses

/-- Unit W takes back no transaction and no response, and its policy stays. -/
def WriterUnit.Grows (w w' : WriterUnit) : Prop :=
  w.log <+: w'.log ∧ w.responses <+: w'.responses ∧ w'.policy = w.policy

theorem ReaderUnit.Grows.refl (r : ReaderUnit) : r.Grows r := ⟨List.prefix_rfl, List.prefix_rfl⟩

theorem WriterUnit.Grows.refl (w : WriterUnit) : w.Grows w :=
  ⟨List.prefix_rfl, List.prefix_rfl, rfl⟩

theorem ReaderEnd.grows {r r' : ReaderUnit} (h : ReaderEnd r r') : r.Grows r' := by
  obtain ⟨l, hl, -, -⟩ := h.asksUntilEos
  refine ⟨hl ▸ List.prefix_append _ _, ?_⟩
  obtain ⟨-, p, hp⟩ | ⟨-, hp⟩ := h.port
  · exact hp ▸ List.prefix_append _ _
  · exact hp ▸ List.prefix_rfl

theorem WriterEnd.grows {w w' : WriterUnit} (h : WriterEnd w w') : w.Grows w' := by
  cases h with
  | responds p h => exact ⟨h.log, h.responses ▸ List.prefix_append _ _, h.policy⟩
  | waits k h => exact ⟨h.log, h.responses ▸ List.prefix_rfl, h.policy⟩

theorem InputCases.grows {s t : State} {x : Input} (hx : InputCases s x t) :
    s.r.Grows t.r ∧ s.w.Grows t.w := by
  cases hx with
  | execR i hd hu h =>
    obtain ⟨-, hend, htw, -⟩ := exec_reader_end hu h
    exact ⟨hend.grows, htw ▸ .refl _⟩
  | execW i hd hu h =>
    obtain ⟨-, hend, htr, -⟩ := exec_writer_end hu h
    exact ⟨htr ▸ .refl _, hend.grows⟩
  | illegalR hi => exact ⟨⟨List.prefix_rfl, List.prefix_append _ _⟩, .refl _⟩
  | illegalW hi => exact ⟨.refl _, List.prefix_rfl, List.prefix_append _ _, rfl⟩
  | sourceReady hst h =>
    obtain ⟨-, rfl⟩ | ⟨hend, htw, -⟩ := resumeReader_end h
    · exact ⟨.refl s.r, .refl _⟩
    · exact ⟨hend.grows, htw ▸ .refl _⟩
  | sourceStale hst => exact ⟨.refl s.r, .refl _⟩
  | sinkReady hst h =>
    obtain ⟨-, rfl⟩ | ⟨hend, htr, -⟩ := resumeWriter_end h
    · exact ⟨.refl _, .refl s.w⟩
    · exact ⟨htr ▸ .refl _, hend.grows⟩
  | sinkStale hst => exact ⟨.refl _, .refl s.w⟩
  | resetR => exact ⟨.refl s.r, .refl _⟩
  | resetW => exact ⟨.refl _, .refl s.w⟩
  | resetBlock => exact ⟨.refl s.r, .refl s.w⟩

theorem step_grows {s t : State} (h : step s = .next t) : s.r.Grows t.r ∧ s.w.Grows t.w := by
  obtain ⟨-, rfl⟩ | ⟨x, rest, -, hx⟩ := step_cases h
  · exact ⟨.refl _, .refl _⟩
  · exact hx.grows

/-- Settles O52: both units grow. -/
theorem historyOnlyGrows : Obligations.HistoryOnlyGrows := by
  unfold Obligations.HistoryOnlyGrows
  intro s t h
  obtain ⟨⟨hrlog, hrresp⟩, hwlog, hwresp, hpolicy⟩ := step_grows h
  exact ⟨hrlog, hwlog, hrresp, hwresp, hpolicy⟩

/-! ## The result of a run -/

/-- A step adds to the result the responses it delivers and the bytes of the transactions it logs. -/
theorem result_of_logs {s t : State} {answers : List SourceAnswer}
    {offers : List (Byte × SinkAnswer)} {ps qs : List Response}
    (hr : t.r.log = s.r.log ++ answers) (hw : t.w.log = s.w.log ++ offers)
    (hp : t.r.responses = s.r.responses ++ ps) (hq : t.w.responses = s.w.responses ++ qs) :
    t.result =
      { responsesR := s.result.responsesR ++ ps
        responsesW := s.result.responsesW ++ qs
        consumed := s.result.consumed ++ answers.filterMap SourceAnswer.delivered
        sinkOutput := s.result.sinkOutput ++ offers.filterMap acceptedByte } := by
  simp only [State.result, hp, hq, consumed_of_log hr, sinkOutput_of_log hw]

/-- A step that changes no log and delivers nothing leaves an ended run ended, with the same result. -/
theorem runEnded_step {s t : State} (h : s.RunEnded) (hs : step s = .next t)
    (hr : t.r.task = none ∧ t.r.stale = false) (hw : t.w.task = none ∧ t.w.stale = false)
    (hres : t.result = s.result) : ∃ t, step s = .next t ∧ t.RunEnded ∧ t.result = s.result := by
  obtain ⟨-, -, hno⟩ := h
  obtain ⟨hrt, hrs⟩ := hr
  obtain ⟨hwt, hws⟩ := hw
  refine ⟨t, hs, ⟨⟨hrt, hwt⟩, ⟨hrs, hws⟩, fun port c hmem => hno port c ?_⟩, hres⟩
  exact List.mem_of_mem_tail (step_inputs hs ▸ hmem)

/-- An ended run goes on as such, whatever answer or reset comes. -/
theorem runEnded_next {s : State} (h : s.RunEnded) :
    ∃ t, step s = .next t ∧ t.RunEnded ∧ t.result = s.result := by
  have hend := h
  obtain ⟨⟨hrt, hwt⟩, ⟨hrs, hws⟩, hno⟩ := h
  cases hin : s.inputs with
  | nil => exact runEnded_step hend (step_nil hin) ⟨hrt, hrs⟩ ⟨hwt, hws⟩ rfl
  | cons x rest =>
    cases x with
    | command port c => exact absurd (hin ▸ List.mem_cons_self) (hno port c)
    | sourceAnswer a =>
      have hstep := (step_sourceReady hin hrs).trans (resumeReader_idle hrt)
      exact runEnded_step hend hstep ⟨hrt, hrs⟩ ⟨hwt, hws⟩ rfl
    | sinkAnswer a =>
      have hstep := (step_sinkReady hin hws).trans (resumeWriter_idle hwt)
      exact runEnded_step hend hstep ⟨hrt, hrs⟩ ⟨hwt, hws⟩ rfl
    | resetR => exact runEnded_step hend (step_resetR hin) ⟨rfl, by simp [hrs, hrt]⟩ ⟨hwt, hws⟩ rfl
    | resetW => exact runEnded_step hend (step_resetW hin) ⟨hrt, hrs⟩ ⟨rfl, by simp [hws, hwt]⟩ rfl
    | resetBlock =>
      exact runEnded_step hend (step_resetBlock hin) ⟨rfl, by simp [hrs, hrt]⟩ ⟨rfl, by simp [hws, hwt]⟩ rfl

/-- Settles O15: what the logs grow by, and the inputs of an ended run one by one. -/
theorem endedRunsStayEnded : Obligations.EndedRunsStayEnded := by
  unfold Obligations.EndedRunsStayEnded
  refine ⟨fun s t h => ?_, fun s => runEnded_next⟩
  obtain ⟨⟨⟨answers, hr⟩, ps, hp⟩, ⟨offers, hw⟩, ⟨qs, hq⟩, -⟩ := step_grows h
  refine ⟨answers, offers, ps, qs, hr.symm, hw.symm, hp.symm, hq.symm, ?_⟩
  exact result_of_logs hr.symm hw.symm hp.symm hq.symm

/-! ## Transactions of one command -/

/-- A log that has grown by at most one transaction. -/
def GrowsByOne {α : Type} (l l' : List α) : Prop := l' = l ∨ ∃ a, l' = l ++ [a]

theorem emitStep_growsByOne (w : WriterUnit) : GrowsByOne w.log (emitStep w).unit.log := by
  have hc := emitStep_cases w
  generalize emitStep w = res at hc
  cases hc with
  | silent h => exact .inl rfl
  | ack rest h => exact .inr ⟨_, rfl⟩
  | fail e rest h => exact .inr ⟨_, rfl⟩

theorem writeBitAt_growsByOne (b : Bool) (w : WriterUnit) :
    GrowsByOne w.log (writeBitAt b w).unit.log := by
  by_cases h7 : w.cur = 7
  · rw [writeBitAt_completes h7]
    exact emitStep_growsByOne { w with acc := setBit w.acc 7 b }
  · rw [writeBitAt_inside h7]
    exact .inl rfl

theorem wbStep_growsByOne (x : Int) (w : WriterUnit) : GrowsByOne w.log (wbStep x w).unit.log := by
  unfold wbStep
  split
  · exact .inl rfl
  · exact writeBitAt_growsByOne _ w

theorem WriterResult.apply_log (res : WriterResult) (s : State) :
    (res.apply s).w.log = res.unit.log := by cases res <;> rfl

/-- Every command of unit W but WRITEBITS makes at most one transaction. -/
theorem WriterCommand.growsByOne {i : Instr} {w : WriterUnit} {res : WriterResult}
    (hc : WriterCommand w i res) (hi : (∃ x, i = .writebit x) ∨ i = .flush ∨ i = .flushones) :
    GrowsByOne w.log res.unit.log := by
  cases hc with
  | writebit x => rw [WriteResult.ends_unit]; exact wbStep_growsByOne _ w
  | noBits n buf hn => simp at hi
  | writebits n buf hn => simp at hi
  | flushEmpty h₀ => exact .inl rfl
  | flush h₀ => rw [WriteResult.ends_unit]; exact emitStep_growsByOne w
  | flushonesEmpty h₀ => exact .inl rfl
  | flushones h₀ => rw [WriteResult.ends_unit]; exact emitStep_growsByOne (padWithOnes w)

theorem rbStep_bit_growsByOne {r r' : ReaderUnit} {b : Bool} (hs : rbStep r = .bit b r') :
    GrowsByOne r.log r'.log := by
  have hc := rbStep_cases r
  rw [hs] at hc
  cases hc with
  | inside v he hc hv => exact .inl rfl
  | byte v rest he hc ha => exact .inr ⟨_, rfl⟩

theorem rbStep_stop_growsByOne {r r' : ReaderUnit} {st : Status} (hs : rbStep r = .stop st r') :
    GrowsByOne r.log r'.log := by
  have hc := rbStep_cases r
  rw [hs] at hc
  cases hc with
  | exhausted he => exact .inl rfl
  | eos rest he hc ha => exact .inr ⟨_, rfl⟩
  | fail e rest he hc ha => exact .inr ⟨_, rfl⟩

theorem exec_readbit_growsByOne {s t : State} (h : exec .readbit s = .next t) :
    GrowsByOne s.r.log t.r.log := by
  obtain ⟨-, hc⟩ := exec_readbit_cases h
  cases hc with
  | bit b r hs => exact rbStep_bit_growsByOne (r' := r) hs
  | stop st r hs => exact rbStep_stop_growsByOne (r' := r) hs
  | wait hs => exact .inl rfl

/-- Settles O54: each command is one bit step or one offer. -/
theorem singleBitCommandsMakeAtMostOneTransaction :
    Obligations.SingleBitCommandsMakeAtMostOneTransaction := by
  unfold Obligations.SingleBitCommandsMakeAtMostOneTransaction
  refine fun s t => ⟨exec_readbit_growsByOne, fun i hi h => ?_⟩
  have hu : i.unit = .unitW := by
    obtain ⟨x, rfl⟩ | rfl | rfl := hi <;> rfl
  have hidle : s.w.task = none := (exec_writer_end hu h).1
  obtain ⟨res, hc⟩ := WriterCommand.exists_of_unit hu s.w
  cases (hc.exec_eq hidle).symm.trans h
  rw [res.apply_log]
  exact hc.growsByOne hi

/-! ## The answers, in the order of arrival -/

/-- The source's answers that unit R has used, and then those that stand ready. -/
def ReaderUnit.drawn (r : ReaderUnit) : List SourceAnswer := r.log ++ r.answers

/-- The sink's answers that unit W has used, and then those that stand ready. -/
def WriterUnit.drawn (w : WriterUnit) : List SinkAnswer := w.log.map Prod.snd ++ w.answers

theorem rbStep_bit_drawn {r r' : ReaderUnit} {b : Bool} (hs : rbStep r = .bit b r') :
    r'.drawn = r.drawn := by
  have hc := rbStep_cases r
  rw [hs] at hc
  cases hc with
  | inside v he hc hv => rfl
  | byte v rest he hc ha => simp [ReaderUnit.drawn, ha]

theorem rbStep_stop_drawn {r r' : ReaderUnit} {st : Status} (hs : rbStep r = .stop st r') :
    r'.drawn = r.drawn := by
  have hc := rbStep_cases r
  rw [hs] at hc
  cases hc with
  | exhausted he => rfl
  | eos rest he hc ha => simp [ReaderUnit.drawn, ha]
  | fail e rest he hc ha => simp [ReaderUnit.drawn, ha]

theorem BitChain.drawn {r r' : ReaderUnit} {n : Nat} (h : BitChain r n r') : r'.drawn = r.drawn := by
  induction h with
  | refl => rfl
  | snoc _ hs ih => exact (rbStep_bit_drawn hs).trans ih

/-- A command of unit R moves answers from those that stand ready to the log, in order. -/
theorem ReaderEnd.drawn {r r' : ReaderUnit} (h : ReaderEnd r r') : r'.drawn = r.drawn := by
  cases h with
  | responds p h => exact h.drawn
  | stops p h hs => exact (rbStep_stop_drawn hs).trans h.drawn
  | waits k h hs => exact h.drawn

theorem emitStep_drawn (w : WriterUnit) : (emitStep w).unit.drawn = w.drawn := by
  have hc := emitStep_cases w
  generalize emitStep w = res at hc
  cases hc with
  | silent h => rfl
  | ack rest h => simp [WriteResult.unit, WriterUnit.drawn, h]
  | fail e rest h => simp [WriteResult.unit, WriterUnit.drawn, h]

theorem writeBitAt_drawn (b : Bool) (w : WriterUnit) : (writeBitAt b w).unit.drawn = w.drawn := by
  by_cases h7 : w.cur = 7
  · rw [writeBitAt_completes h7, emitStep_drawn]
    rfl
  · rw [writeBitAt_inside h7]
    rfl

/-- What a bit step leaves of the answers, from its outcome. -/
theorem writeBitAt_drawn_of {b : Bool} {w : WriterUnit} {res : WriteResult}
    (h : writeBitAt b w = res) : res.unit.drawn = w.drawn := h ▸ writeBitAt_drawn b w

theorem wbStep_drawn (x : Int) (w : WriterUnit) : (wbStep x w).unit.drawn = w.drawn := by
  unfold wbStep
  split
  · rfl
  · exact writeBitAt_drawn _ w

theorem writeLoop_drawn (n : Nat) (buf : List Byte) (m j : Nat) (w : WriterUnit) :
    (writeLoop n buf m j w).unit.drawn = w.drawn := by
  have hl := writeLoop_ind (P := fun _ w' => w'.drawn = w.drawn) n buf
    (fun _ _ _ hd hs => (writeBitAt_drawn_of hs).trans hd) m j w rfl
  cases hr : writeLoop n buf m j w with
  | done st k w' =>
    rw [hr] at hl
    obtain ⟨-, -, hd⟩ | ⟨-, -, w₁, hd, hs⟩ := hl
    · exact hd
    · exact (writeBitAt_drawn_of hs).trans hd
  | wait k w' =>
    rw [hr] at hl
    obtain ⟨-, w₁, hd, hs⟩ := hl
    exact (writeBitAt_drawn_of hs).trans hd

theorem writeLoopFrom_drawn (n : Nat) (buf : List Byte) (j : Nat) (w : WriterUnit) :
    (writeLoopFrom n buf j w).unit.drawn = w.drawn := by
  obtain ⟨answers, ha⟩ : ∃ answers, w.answers = answers := ⟨_, rfl⟩
  cases answers with
  | nil => rw [writeLoopFrom_silent n buf j ha]; rfl
  | cons a rest =>
    cases a with
    | ack =>
      rw [writeLoopFrom_ack n buf j ha, writeLoop_drawn]
      simp [WriterUnit.drawn, ha]
    | fail e =>
      rw [writeLoopFrom_fail n buf j ha]
      simp [WriteLoop.unit, WriterUnit.drawn, ha]

theorem WriterResult.apply_drawn (res : WriterResult) (s : State) :
    (res.apply s).w.drawn = res.unit.drawn := by cases res <;> rfl

theorem WriterCommand.drawn {i : Instr} {w : WriterUnit} {res : WriterResult}
    (hc : WriterCommand w i res) : res.unit.drawn = w.drawn := by
  cases hc with
  | writebit x => rw [WriteResult.ends_unit, wbStep_drawn]
  | noBits n buf hn => rfl
  | writebits n buf hn => rw [WriteLoop.ends_unit, writeLoop_drawn]
  | flushEmpty h₀ => rfl
  | flush h₀ => rw [WriteResult.ends_unit, emitStep_drawn]
  | flushonesEmpty h₀ => rfl
  | flushones h₀ => rw [WriteResult.ends_unit, emitStep_drawn]; rfl

theorem WriterResume.drawn {k : WriterTask} {w : WriterUnit} {res : WriterResult}
    (hc : WriterResume w k res) : res.unit.drawn = w.drawn := by
  cases hc with
  | offer k hk => rw [WriteResult.ends_unit, emitStep_drawn]
  | writebits n buf j => rw [WriteLoop.ends_unit, writeLoopFrom_drawn]

/-- A command of unit W moves answers from those that stand ready to the log, in order. -/
theorem exec_writer_drawn {i : Instr} {s t : State} (hu : i.unit = .unitW) (h : exec i s = .next t) :
    t.w.drawn = s.w.drawn := by
  have hidle : s.w.task = none := (exec_writer_end hu h).1
  obtain ⟨res, hc⟩ := WriterCommand.exists_of_unit hu s.w
  cases (hc.exec_eq hidle).symm.trans h
  rw [res.apply_drawn, hc.drawn]

theorem resumeWriter_drawn {s t : State} (h : resumeWriter s = .next t) : t.w.drawn = s.w.drawn := by
  cases hk : s.w.task with
  | none => rw [resumeWriter_idle hk] at h; cases h; rfl
  | some k =>
    obtain ⟨res, hc⟩ := WriterResume.exists_of_task s.w k
    cases (hc.resume_eq hk).symm.trans h
    rw [res.apply_drawn, hc.drawn]

theorem resumeReader_drawn {s t : State} (h : resumeReader s = .next t) : t.r.drawn = s.r.drawn := by
  obtain ⟨-, rfl⟩ | ⟨hend, -, -⟩ := resumeReader_end h
  · rfl
  · exact hend.drawn

/-- The answer of the source that joins those of unit R: an arriving one that is not discarded. -/
def sourceArrival (stale : Bool) : Option Input → List SourceAnswer
  | some (.sourceAnswer a) => if stale then [] else [a]
  | _ => []

/-- The answer of the sink that joins those of unit W: an arriving one that is not discarded. -/
def sinkArrival (stale : Bool) : Option Input → List SinkAnswer
  | some (.sinkAnswer a) => if stale then [] else [a]
  | _ => []

theorem InputCases.drawn {s t : State} {x : Input} (hx : InputCases s x t) :
    t.r.drawn = s.r.drawn ++ sourceArrival s.r.stale (some x) ∧
      t.w.drawn = s.w.drawn ++ sinkArrival s.w.stale (some x) := by
  cases hx with
  | execR i hd hu h =>
    obtain ⟨-, hend, htw, -⟩ := exec_reader_end hu h
    simp [sourceArrival, sinkArrival, hend.drawn, htw]
  | execW i hd hu h =>
    obtain ⟨-, -, htr, -⟩ := exec_writer_end hu h
    simp [sourceArrival, sinkArrival, exec_writer_drawn hu h, htr]
  | illegalR hi => simp [sourceArrival, sinkArrival, ReaderUnit.drawn]
  | illegalW hi => simp [sourceArrival, sinkArrival, WriterUnit.drawn]
  | sourceReady hst h =>
    have htw : t.w = s.w := by
      obtain ⟨-, rfl⟩ | ⟨-, htw, -⟩ := resumeReader_end h
      · rfl
      · exact htw
    rw [resumeReader_drawn h]
    simp [sourceArrival, sinkArrival, hst, htw, ReaderUnit.drawn]
  | sourceStale hst => simp [sourceArrival, sinkArrival, hst, ReaderUnit.drawn]
  | sinkReady hst h =>
    have htr : t.r = s.r := by
      obtain ⟨-, rfl⟩ | ⟨-, htr, -⟩ := resumeWriter_end h
      · rfl
      · exact htr
    rw [resumeWriter_drawn h]
    simp [sourceArrival, sinkArrival, hst, htr, WriterUnit.drawn]
  | sinkStale hst => simp [sourceArrival, sinkArrival, hst, WriterUnit.drawn]
  | resetR => simp [sourceArrival, sinkArrival, ReaderUnit.drawn]
  | resetW => simp [sourceArrival, sinkArrival, WriterUnit.drawn]
  | resetBlock => simp [sourceArrival, sinkArrival, ReaderUnit.drawn, WriterUnit.drawn]

theorem step_drawn {s t : State} (h : step s = .next t) :
    t.r.drawn = s.r.drawn ++ sourceArrival s.r.stale s.inputs.head? ∧
      t.w.drawn = s.w.drawn ++ sinkArrival s.w.stale s.inputs.head? := by
  obtain ⟨hin, rfl⟩ | ⟨x, rest, hin, hx⟩ := step_cases h
  · simp [hin, sourceArrival, sinkArrival]
  · rw [hin]
    exact hx.drawn

/-- Settles O55: a step moves answers to the log in order, and an arriving one joins at the end. -/
theorem answersAreUsedOnceInOrder : Obligations.AnswersAreUsedOnceInOrder := by
  unfold Obligations.AnswersAreUsedOnceInOrder
  exact fun s t h => step_drawn h

end Sys2Proof.Machine

/-!
PROOFS. Commands that wait (R240): an answer that comes late goes on where the command waited, as if it had
stood ready (R58, R61); without an answer the command holds; and resets of a command that waits (R233).
-/

namespace Sys2Proof.Machine

/-! ## One more answer of the source -/

/-- Unit R with one more answer that stands ready after the others. -/
def ReaderUnit.withAnswer (r : ReaderUnit) (a : SourceAnswer) : ReaderUnit :=
  { r with answers := r.answers ++ [a] }

/-- A bit step that had its answer does not look at the ones after it. -/
theorem rbStep_bit_withAnswer {r r' : ReaderUnit} {b : Bool} (hs : rbStep r = .bit b r')
    (a : SourceAnswer) : rbStep (r.withAnswer a) = .bit b (r'.withAnswer a) := by
  have hc := rbStep_cases r
  rw [hs] at hc
  cases hc with
  | inside v he hc hv => exact rbStep_inside he hc hv
  | byte v rest he hc ha =>
    exact rbStep_byte (r := r.withAnswer a) (rest := rest ++ [a]) he hc
      (by rw [ReaderUnit.withAnswer, ha]; rfl)

/-- READBITS' loop with one more answer comes to where it waited, and goes on. -/
theorem readLoop_wait_withAnswer (a : SourceAnswer) {m k' : Nat} {pk' : Pack} {r' : ReaderUnit}
    (n : Nat) : ∀ {k : Nat} {pk : Pack} {r : ReaderUnit}, readLoop n k pk r = .wait m k' pk' r' →
    readLoop n k pk (r.withAnswer a) = readLoop m k' pk' (r'.withAnswer a) := by
  induction n with
  | zero => intro k pk r h; cases h
  | succ n ih =>
    intro k pk r h
    cases hs : rbStep r with
    | bit b r₁ =>
      rw [readLoop, hs] at h
      rw [readLoop, rbStep_bit_withAnswer hs a]
      exact ih h
    | stop st r₁ => rw [readLoop, hs] at h; cases h
    | wait => rw [readLoop, hs] at h; cases h; rfl
    | fault x => rw [readLoop, hs] at h; cases h

/-- A command of unit R that waits, and takes up its wait with one more answer, does what it does from
the start with that answer. -/
theorem ReaderCommand.late {i : Instr} {r r' : ReaderUnit} {k : ReaderTask} {res : ReaderResult}
    (hc : ReaderCommand r i res) (hres : res = .waits k r') (a : SourceAnswer) :
    ∃ res', ReaderCommand (r.withAnswer a) i res' ∧ ReaderResume (r'.withAnswer a) k res' := by
  cases hc with
  | readbit =>
    cases hs : rbStep r with
    | wait => rw [hs] at hres; cases hres; exact ⟨_, .readbit, .readbit⟩
    | bit b r₁ => rw [hs] at hres; cases hres
    | stop st r₁ => rw [hs] at hres; cases hres
    | fault x => rw [hs] at hres; cases hres
  | noBits n hn => cases hres
  | readbits n hn =>
    cases hl : readLoop n.toNat 0 Pack.empty r with
    | wait m k' pk' r₁ =>
      rw [hl] at hres
      cases hres
      exact ⟨_, .readbits n hn, readLoop_wait_withAnswer a _ hl ▸ .readbits m k' pk'⟩
    | done st k' pk' r₁ => rw [hl] at hres; cases hres
    | fault x => rw [hl] at hres; cases hres

/-! ## The command in flight is overwritten by its end -/

theorem KeepsPort.of_readLoop_wait {n m k k' : Nat} {pk pk' : Pack} {r r' : ReaderUnit}
    (h : readLoop n k pk r = .wait m k' pk' r') : KeepsPort r r' := by
  have hl := readLoop_ind (P := fun _ _ r₁ => KeepsPort r r₁)
    (fun _ _ _ _ _ hk hs => hk.trans (.of_bit hs)) n k pk r ⟨rfl, rfl⟩
  rw [h] at hl
  obtain ⟨-, -, hport, -⟩ := hl
  exact hport

/-- What a command of unit R that goes on ends with does not depend on the command in flight. -/
theorem ReaderResume.of_task {r : ReaderUnit} {k : ReaderTask} {res : ReaderResult}
    (hc : ReaderResume r k res) (x : Option ReaderTask) :
    ∃ res', ReaderResume { r with task := x } k res' ∧ ∀ s, res'.apply s = res.apply s := by
  cases hc with
  | readbit =>
    refine ⟨_, .readbit, fun s => ?_⟩
    have hport := rbStep_port r x r.responses
    cases hs : rbStep r with
    | bit b r' =>
      rw [hs] at hport
      rw [hport, BitResult.ends, BitResult.ends, ← (KeepsPort.of_bit hs).2]
      rfl
    | stop st r' =>
      rw [hs] at hport
      rw [hport, BitResult.ends, BitResult.ends, ← (KeepsPort.of_stop hs).2]
      rfl
    | wait => rw [hs] at hport; rw [hport]; rfl
    | fault f => rw [hs] at hport; rw [hport]; rfl
  | readbits n k pk =>
    refine ⟨_, .readbits n k pk, fun s => ?_⟩
    have hport := readLoop_port n k pk r x r.responses
    cases hl : readLoop n k pk r with
    | done st k' pk' r' =>
      rw [hl] at hport
      rw [hport, ReadLoop.ends, ReadLoop.ends, ← (KeepsPort.of_readLoop hl).2]
      rfl
    | wait m k' pk' r' =>
      rw [hl] at hport
      rw [hport, ReadLoop.ends, ReadLoop.ends, ← (KeepsPort.of_readLoop_wait hl).2]
      rfl
    | fault f => rw [hl] at hport; rw [hport]

/-- The end of a command of unit R replaces that unit, whatever it was. -/
theorem ReaderResult.apply_replaces (res : ReaderResult) (s : State) (r : ReaderUnit) :
    res.apply { s with r := r } = res.apply s := by cases res <;> rfl

/-- A late answer of the source. -/
theorem exec_reader_late {i : Instr} {s t : State} (hu : i.unit = .unitR)
    (hst : s.r.stale = false) (h : exec i s = .next t) (hk : t.r.task.isSome) (a : SourceAnswer) :
    sourceAnswered a t = exec i { s with r := s.r.withAnswer a } := by
  obtain ⟨hi, hend, -, -⟩ := exec_reader_end hu h
  have hst' : t.r.stale = false := hend.keeps.1.trans hst
  obtain ⟨res, hc⟩ := ReaderCommand.exists_of_unit hu s.r
  have ht := (hc.exec_eq hi).symm.trans h
  cases hres : res with
  | responds p r => rw [hres] at ht; cases ht; cases hk
  | faults x => rw [hres] at ht; cases ht
  | waits k r =>
    rw [hres] at ht
    cases ht
    obtain ⟨res', hcommand, hresume⟩ := hc.late hres a
    obtain ⟨res'', hresume', happly⟩ := hresume.of_task (some k)
    have hstart := hcommand.exec_eq (s := { s with r := s.r.withAnswer a }) hi
    have hgoes := hresume'.resume_eq
      (s := { s with r := { r.withAnswer a with task := some k } }) rfl
    rw [sourceAnswered_ready hst', hstart, res'.apply_replaces, ← happly,
      ← res''.apply_replaces s { r.withAnswer a with task := some k }]
    exact hgoes

/-! ## One more answer of the sink -/

/-- Unit W with one more answer that stands ready after the others. -/
def WriterUnit.withAnswer (w : WriterUnit) (a : SinkAnswer) : WriterUnit :=
  { w with answers := w.answers ++ [a] }

theorem emitStep_done_withAnswer {w w' : WriterUnit} {st : Status} (hs : emitStep w = .done st w')
    (a : SinkAnswer) : emitStep (w.withAnswer a) = .done st (w'.withAnswer a) := by
  have hc := emitStep_cases w
  rw [hs] at hc
  cases hc with
  | ack rest ha =>
    exact emitStep_ack (w := w.withAnswer a) (rest := rest ++ [a])
      (by rw [WriterUnit.withAnswer, ha]; rfl)
  | fail e rest ha =>
    exact emitStep_fail (w := w.withAnswer a) (rest := rest ++ [a])
      (by rw [WriterUnit.withAnswer, ha]; rfl)

/-- A bit step that had its answer does not look at the ones after it. -/
theorem writeBitAt_done_withAnswer {b : Bool} {w w' : WriterUnit} {st : Status}
    (hs : writeBitAt b w = .done st w') (a : SinkAnswer) :
    writeBitAt b (w.withAnswer a) = .done st (w'.withAnswer a) := by
  by_cases h7 : w.cur = 7
  · rw [writeBitAt_completes h7] at hs
    exact (writeBitAt_completes (w := w.withAnswer a) h7).trans (emitStep_done_withAnswer hs a)
  · rw [writeBitAt_inside h7] at hs
    cases hs
    exact writeBitAt_inside (w := w.withAnswer a) h7

/-- A bit step that waited makes its offer with one more answer. -/
theorem writeBitAt_wait_withAnswer {b : Bool} {w w' : WriterUnit} (hs : writeBitAt b w = .wait w')
    (a : SinkAnswer) : writeBitAt b (w.withAnswer a) = emitStep (w'.withAnswer a) := by
  obtain ⟨h7, -, rfl⟩ := writeBitAt_wait hs
  exact writeBitAt_completes (w := w.withAnswer a) h7

/-- WRITEBITS' loop with one more answer comes to the byte it waited with, and goes on. -/
theorem writeLoop_wait_withAnswer {n : Nat} {buf : List Byte} (a : SinkAnswer) {j' : Nat}
    {w' : WriterUnit} (m : Nat) : ∀ {j : Nat} {w : WriterUnit},
    writeLoop n buf m j w = .wait j' w' → j + m = bitsToWrite n buf →
    writeLoop n buf m j (w.withAnswer a) = writeLoopFrom n buf j' (w'.withAnswer a) := by
  induction m with
  | zero => intro j w h; cases h
  | succ m ih =>
    intro j w h hm
    cases hs : writeBitAt (bufBit buf j) w with
    | done st w₁ =>
      by_cases hok : st = .ok
      · subst hok
        rw [writeLoop_ok hs] at h
        rw [writeLoop_ok (writeBitAt_done_withAnswer hs a)]
        exact ih h (by omega)
      · rw [writeLoop_stops hs hok] at h; cases h
    | wait w₁ =>
      rw [writeLoop, wbStep_bitInt, hs] at h
      cases h
      have hans : (w'.withAnswer a).answers = [a] := by
        obtain ⟨-, ha, rfl⟩ := writeBitAt_wait hs
        rw [WriterUnit.withAnswer, ha]
        rfl
      have hs' := writeBitAt_wait_withAnswer hs a
      have hrest : bitsToWrite n buf - (j' + 1) = m := by omega
      cases a with
      | ack =>
        rw [emitStep_ack hans] at hs'
        rw [writeLoop_ok hs', writeLoopFrom_ack n buf j' hans, hrest]
      | fail e =>
        rw [emitStep_fail hans] at hs'
        rw [writeLoop_stops hs' nofun, writeLoopFrom_fail n buf j' hans]

theorem WriteResult.ends_eq_waits {res : WriteResult} {k k' : WriterTask} {w : WriterUnit}
    (h : res.ends k = .waits k' w) : res = .wait w ∧ k' = k := by
  cases res with
  | done st w' => cases h
  | wait w' => cases h; exact ⟨rfl, rfl⟩

theorem wbStep_wait_withAnswer {x : Int} {w w' : WriterUnit} (hs : wbStep x w = .wait w')
    (a : SinkAnswer) : wbStep x (w.withAnswer a) = emitStep (w'.withAnswer a) := by
  unfold wbStep at hs ⊢
  split at hs
  · cases hs
  · exact (if_neg ‹_›).trans (writeBitAt_wait_withAnswer hs a)

/-- A command of unit W that waits, and takes up its wait with one more answer, does what it does from
the start with that answer. -/
theorem WriterCommand.late {i : Instr} {w w' : WriterUnit} {k : WriterTask} {res : WriterResult}
    (hc : WriterCommand w i res) (hres : res = .waits k w') (a : SinkAnswer) :
    ∃ res', WriterCommand (w.withAnswer a) i res' ∧ WriterResume (w'.withAnswer a) k res' := by
  cases hc with
  | writebit x =>
    obtain ⟨hs, rfl⟩ := WriteResult.ends_eq_waits hres
    exact ⟨_, .writebit x, wbStep_wait_withAnswer hs a ▸ .offer .writebit nofun⟩
  | noBits n buf hn => cases hres
  | writebits n buf hn =>
    cases hl : writeLoop n.toNat buf (bitsToWrite n.toNat buf) 0 w with
    | done st j w₁ => rw [hl] at hres; cases hres
    | wait j w₁ =>
      rw [hl] at hres
      cases hres
      exact ⟨_, .writebits n buf hn,
        writeLoop_wait_withAnswer a _ hl (Nat.zero_add _) ▸ .writebits n.toNat buf j⟩
  | flushEmpty h₀ => cases hres
  | flush h₀ =>
    obtain ⟨hs, rfl⟩ := WriteResult.ends_eq_waits hres
    obtain ⟨rfl, -⟩ := emitStep_wait hs
    exact ⟨_, .flush h₀, .offer .flush nofun⟩
  | flushonesEmpty h₀ => cases hres
  | flushones h₀ =>
    obtain ⟨hs, rfl⟩ := WriteResult.ends_eq_waits hres
    obtain ⟨rfl, -⟩ := emitStep_wait hs
    exact ⟨_, .flushones h₀, .offer .flushones nofun⟩

/-- The end of a WRITEBITS overwrites the command in flight. -/
theorem writeLoop_ends_task (n : Nat) (buf : List Byte) (m j : Nat) (w : WriterUnit)
    (x : Option WriterTask) (s : State) :
    ((writeLoop n buf m j { w with task := x }).ends n buf).apply s =
      ((writeLoop n buf m j w).ends n buf).apply s := by
  have hport := writeLoop_port n buf m j w x w.responses
  have hg := (writeLoop_grows n buf m j w).responses
  cases hl : writeLoop n buf m j w with
  | done st k w' =>
    rw [hl] at hport hg
    rw [hport, ← hg]
    rfl
  | wait k w' =>
    rw [hl] at hport hg
    rw [hport, ← hg]
    rfl

/-- What a command of unit W that goes on ends with does not depend on the command in flight. -/
theorem WriterResume.of_task {w : WriterUnit} {k : WriterTask} {res : WriterResult}
    (hc : WriterResume w k res) (x : Option WriterTask) :
    ∃ res', WriterResume { w with task := x } k res' ∧ ∀ s, res'.apply s = res.apply s := by
  obtain ⟨answers, ha⟩ : ∃ answers, w.answers = answers := ⟨_, rfl⟩
  cases hc with
  | offer k hk =>
    refine ⟨_, .offer k hk, fun s => ?_⟩
    cases answers with
    | nil => rw [emitStep_silent ha, emitStep_silent (w := { w with task := x }) ha]; rfl
    | cons a rest =>
      cases a with
      | ack => rw [emitStep_ack ha, emitStep_ack (w := { w with task := x }) ha]; rfl
      | fail e => rw [emitStep_fail ha, emitStep_fail (w := { w with task := x }) ha]; rfl
  | writebits n buf j =>
    refine ⟨_, .writebits n buf j, fun s => ?_⟩
    cases answers with
    | nil =>
      rw [writeLoopFrom_silent n buf j ha,
        writeLoopFrom_silent (w := { w with task := x }) n buf j ha]
      rfl
    | cons a rest =>
      cases a with
      | ack =>
        rw [writeLoopFrom_ack n buf j ha, writeLoopFrom_ack (w := { w with task := x }) n buf j ha]
        exact writeLoop_ends_task n buf _ _
          { w with acc := 0x00, cur := 0, answers := rest, log := w.log ++ [(w.acc, .ack)] } x s
      | fail e =>
        rw [writeLoopFrom_fail n buf j ha, writeLoopFrom_fail (w := { w with task := x }) n buf j ha]
        rfl

/-- The end of a command of unit W replaces that unit, whatever it was. -/
theorem WriterResult.apply_replaces (res : WriterResult) (s : State) (w : WriterUnit) :
    res.apply { s with w := w } = res.apply s := by cases res <;> rfl

/-- A late answer of the sink. -/
theorem exec_writer_late {i : Instr} {s t : State} (hu : i.unit = .unitW)
    (hst : s.w.stale = false) (h : exec i s = .next t) (hk : t.w.task.isSome) (a : SinkAnswer) :
    sinkAnswered a t = exec i { s with w := s.w.withAnswer a } := by
  obtain ⟨hi, hend, -, -⟩ := exec_writer_end hu h
  have hst' : t.w.stale = false := hend.keeps.1.trans hst
  obtain ⟨res, hc⟩ := WriterCommand.exists_of_unit hu s.w
  have ht := (hc.exec_eq hi).symm.trans h
  cases hres : res with
  | responds st n w => rw [hres] at ht; cases ht; cases hk
  | waits k w =>
    rw [hres] at ht
    cases ht
    obtain ⟨res', hcommand, hresume⟩ := hc.late hres a
    obtain ⟨res'', hresume', happly⟩ := hresume.of_task (some k)
    have hstart := hcommand.exec_eq (s := { s with w := s.w.withAnswer a }) hi
    have hgoes := hresume'.resume_eq
      (s := { s with w := { w.withAnswer a with task := some k } }) rfl
    rw [sinkAnswered_ready hst', hstart, res'.apply_replaces, ← happly,
      ← res''.apply_replaces s { w.withAnswer a with task := some k }]
    exact hgoes

/-- Settles O25: the wait taken up is the command from the start. -/
theorem lateAnswersGiveTheSameResult : Obligations.LateAnswersGiveTheSameResult :=
  ⟨fun _ _ _ a hu hst h hk => exec_reader_late hu hst h hk a,
    fun _ _ _ a hu hst h hk => exec_writer_late hu hst h hk a⟩

end Sys2Proof.Machine

/-!
PROOFS. The state in which each command form holds at its first transaction (R240).
-/

namespace Sys2Proof.Machine

/-! ## Holding -/

/-- A command that stays in flight delivers nothing, and with no input to come the block holds. -/
theorem exec_busy_holds {i : Instr} {s t : State} (hin : s.inputs = []) (h : exec i s = .next t)
    (hb : t.busy i.unit = true) :
    t.r.responses = s.r.responses ∧ t.w.responses = s.w.responses ∧
      ∀ k, Sys2Proof.core.run k t = .next t := by
  have hresp := oneResponsePerCommand i s t h
  cases hu : i.unit with
  | unitR =>
    obtain ⟨-, -, -, htin⟩ := exec_reader_end hu h
    simp only [hu] at hresp hb
    obtain ⟨hw, ⟨hi, -⟩ | ⟨-, hr⟩⟩ := hresp
    · rw [State.busy, hi] at hb; cases hb
    · exact ⟨hr, hw, fun k => blockHoldsBetweenInputs t k (htin.trans hin)⟩
  | unitW =>
    obtain ⟨-, -, -, htin⟩ := exec_writer_end hu h
    simp only [hu] at hresp hb
    obtain ⟨hr, ⟨hi, -⟩ | ⟨-, hw⟩⟩ := hresp
    · rw [State.busy, hi] at hb; cases hb
    · exact ⟨hr, hw, fun k => blockHoldsBetweenInputs t k (htin.trans hin)⟩

section
variable {s : State}

theorem exec_readbit_silent (hi : s.r.task = none) (he : s.r.eos = false) (hc : s.r.cur = 0)
    (ha : s.r.answers = []) :
    exec .readbit s = .next { s with r := { s.r with task := some .readbit } } := by
  rw [exec_readbit_idle hi, rbStep_silent he hc ha, finishReadbit]

theorem exec_readbits_silent_at_once (hi : s.r.task = none) (he : s.r.eos = false)
    (hc : s.r.cur = 0) (ha : s.r.answers = []) {n : Word} (hn : 0 < sint n) :
    exec (.readbits n) s = .next { s with
      r := { s.r with task := some (.readbits n.toNat 0 ⟨0x00, 0, []⟩) } } := by
  have hpos : 0 < n.toNat := by have := sint_toNat hn; omega
  have hl := readLoop_waits (k := 0) (pk := Pack.empty) (r := s.r) rfl hpos (rbStep_silent he hc ha)
  exact exec_readbits_wait hi hn hl

/-- A command of unit W whose offer is not answered. -/
theorem finishWrite_silent (k : WriterTask) {w : WriterUnit} (ha : w.answers = []) :
    finishWrite k (emitStep w) s = .next { s with w := { w with task := some k } } := by
  rw [emitStep_silent ha, finishWrite]

/-- The last bit of the accumulator. -/
theorem setBit_last (v : Byte) (b : Bool) :
    setBit v 7 b = v ||| (if b then 0x01 else 0x00) := by
  cases b <;> simp [setBit, mask]

theorem exec_writebit_silent (hi : s.w.task = none) (h7 : s.w.cur = 7) (ha : s.w.answers = [])
    (b : Bool) : exec (.writebit (bitWord b)) s = .next { s with
      w := { s.w with acc := setBit s.w.acc 7 b, task := some .writebit } } := by
  rw [exec_writebit_completes hi h7, h7]
  exact finishWrite_silent .writebit ha

theorem exec_writebits_silent_at_once (hi : s.w.task = none) (h7 : s.w.cur = 7)
    (ha : s.w.answers = []) {n : Word} (hn : 0 < sint n) (v : Byte) (buf : List Byte) :
    exec (.writebits n (v :: buf)) s = .next { s with
      w := { s.w with acc := s.w.acc ||| (if v.getLsbD 7 then 0x01 else 0x00)
                      task := some (.writebits n.toNat (v :: buf) 0) } } := by
  have hpos : 0 < n.toNat := by have := sint_toNat hn; omega
  obtain ⟨m, hm⟩ : ∃ m, bitsToWrite n.toNat (v :: buf) = m + 1 :=
    Nat.exists_eq_succ_of_ne_zero (by unfold bitsToWrite; simp only [List.length_cons]; omega)
  have hbit : bufBit (v :: buf) 0 = v.getLsbD 7 := bitAt_eq v 0
  have hs := (writeBitAt_completes (b := bufBit (v :: buf) 0) h7).trans (emitStep_silent ha)
  have hl : writeLoop n.toNat (v :: buf) (bitsToWrite n.toNat (v :: buf)) 0 s.w =
      .wait 0 { s.w with acc := setBit s.w.acc 7 (bufBit (v :: buf) 0) } := by
    rw [hm, writeLoop, wbStep_bitInt, hs]
  rw [exec_writebits_wait hi hn hl, setBit_last, hbit]

end

/-- Settles O24: a command in flight holds, and each form waits with the unit it had come to. -/
theorem unansweredCommandsHold : Obligations.UnansweredCommandsHold := by
  unfold Obligations.UnansweredCommandsHold
  intro s hin
  refine ⟨fun i t h hb => exec_busy_holds hin h hb, fun hi he hc ha => ⟨?_, fun n hn => ?_⟩,
    fun hi h7 ha => ⟨?_, ?_, fun n v buf hn => ?_⟩, fun hi h₀ ha => ⟨?_, ?_⟩⟩
  · exact exec_readbit_silent hi he hc ha
  · exact exec_readbits_silent_at_once hi he hc ha hn
  · exact exec_writebit_silent hi h7 ha false
  · exact exec_writebit_silent hi h7 ha true
  · exact exec_writebits_silent_at_once hi h7 ha hn v buf
  · rw [exec_flush_pending hi h₀]
    exact finishWrite_silent .flush ha
  · rw [exec_flushones_pending hi h₀]
    exact finishWrite_silent .flushones ha

end Sys2Proof.Machine

/-!
PROOFS. One transaction is out at a time, however often a waiting unit is reset (R61, R233).
-/

namespace Sys2Proof.Machine

/-! ## One request out across resets -/

/-- A record that an instruction encodes to runs it (O1). -/
theorem step_encoded {i : Instr} {s : State} {rest : List Input} (hwf : i.wellFormed = true)
    (hin : s.inputs = .command i.unit (encode i) :: rest) :
    step s = exec i { s with inputs := rest } :=
  step_command hin (decodeOfEncodeIsTheInstruction i hwf)

/-- A unit R at the boundary with no answer ready, given READBIT and reset: only its byte and the mark of an
answer to discard have changed. -/
theorem run_readbit_reset {s : State} {rest : List Input} (hi : s.r.task = none)
    (he : s.r.eos = false) (hc : s.r.cur = 0) (ha : s.r.answers = [])
    (hin : s.inputs = .command .unitR (encode .readbit) :: .resetR :: rest) (m : Nat) :
    Sys2Proof.core.run (m + 2) s = Sys2Proof.core.run m { s with
      r := { s.r with byte := none, stale := true }, inputs := rest } := by
  have hwait := (step_encoded (i := .readbit) rfl hin).trans
    (exec_readbit_silent (s := { s with inputs := .resetR :: rest }) hi he hc ha)
  have hreset : ({ s.r with task := some .readbit } : ReaderUnit).applyReset =
      { s.r with byte := none, stale := true } := by
    simp [ReaderUnit.applyReset, hi, he, hc]
  rw [run_succ_next hwait, run_succ_next (step_resetR rfl), hreset]

/-- However often that is repeated, one answer is to be discarded. -/
theorem run_readbit_resets {tail : List Input} (m k : Nat) : ∀ {s : State}, s.r.task = none →
    s.r.eos = false → s.r.cur = 0 → s.r.answers = [] →
    s.inputs = (List.replicate (k + 1) [.command .unitR (encode .readbit), .resetR]).flatten ++ tail →
    Sys2Proof.core.run (2 * (k + 1) + m) s = Sys2Proof.core.run m { s with
      r := { s.r with byte := none, stale := true }, inputs := tail } := by
  induction k with
  | zero =>
    intro s hi he hc ha hin
    rw [Nat.add_comm]
    exact run_readbit_reset hi he hc ha hin m
  | succ k ih =>
    intro s hi he hc ha hin
    rw [show 2 * (k + 1 + 1) + m = 2 * (k + 1) + m + 2 by omega]
    exact (run_readbit_reset hi he hc ha hin _).trans (ih hi he hc ha rfl)

/-- While an answer is to be discarded, READBIT waits through it and takes the next one. -/
theorem run_readbit_after_stale {s : State} {a : SourceAnswer} {v : Byte} {rest : List Input}
    (hi : s.r.task = none) (he : s.r.eos = false) (hc : s.r.cur = 0) (ha : s.r.answers = [])
    (hst : s.r.stale = true)
    (hin : s.inputs = .command .unitR (encode .readbit) :: .sourceAnswer a ::
      .sourceAnswer (.byte v) :: rest) :
    Sys2Proof.core.run 3 s = .next { s with
      r := { s.r with cur := 1, byte := some v, stale := false, log := s.r.log ++ [.byte v]
                      responses := s.r.responses ++ [⟨0, BitVec.ofBool (v.getLsbD 7), 0, none, []⟩] }
      inputs := rest } := by
  have hwait := (step_encoded (i := .readbit) rfl hin).trans (exec_readbit_silent
    (s := { s with inputs := .sourceAnswer a :: .sourceAnswer (.byte v) :: rest }) hi he hc ha)
  have hbyte := rbStep_byte (v := v) (rest := [])
    (r := { s.r with task := some .readbit, stale := false, answers := s.r.answers ++ [.byte v] })
    he hc (by simp [ha])
  have hdrop := step_sourceStale (a := a) (rest := .sourceAnswer (.byte v) :: rest)
    (s := { s with
      r := { s.r with task := some .readbit }
      inputs := .sourceAnswer a :: .sourceAnswer (.byte v) :: rest }) rfl hst
  refine (run_succ_next hwait 2).trans ((run_succ_next hdrop 1).trans (run_one_next ?_))
  rw [step_sourceReady rfl rfl, resumeReader_readbit rfl, hbyte, bitAt_eq]
  simp [finishReadbit, respondR, hi, ha]
  rfl

/-! ## One offer out across resets -/

/-- Writing bits that complete no byte changes only the accumulator and the cursor. -/
theorem Writes.eq_of_count_zero {bits : List Bool} {w w' : WriterUnit} (h : Writes bits w w')
    (h₀ : (w.cur.val + bits.length) / 8 = 0) : w' = { w with cur := w'.cur, acc := w'.acc } := by
  have hans := h.answers
  have hcount := h.count
  rw [h₀] at hans hcount
  have hlog := h.log.eq_of_length hcount.symm
  have htask := h.task
  have hstale := h.stale
  have hresp := h.responses
  have hpolicy := h.policy
  cases w
  cases w'
  simp_all

/-- A byte is known by its bits. -/
theorem byteBits_injective {v x : Byte} (h : byteBits v = byteBits x) : v = x := by
  have hv := packBits_byteBits_append v []
  rw [h, packBits_byteBits_append] at hv
  exact (List.cons.inj hv).1.symm

/-- A clean unit W given one whole byte, with no answer ready: the byte stands in the accumulator. -/
theorem exec_writebits_byte_silent {s : State} (hi : s.w.task = none) (hc : s.w.cur = 0)
    (h₀ : s.w.acc = 0x00) (ha : s.w.answers = []) (x : Byte) :
    exec (.writebits 8 [x]) s = .next { s with
      w := { s.w with cur := 7, acc := x, task := some (.writebits 8 [x] 7) } } := by
  have hclean : s.w.Clean := fun q _ => by simp [h₀]
  obtain ⟨w, hw, h7, -, hexec⟩ := exec_writebits_silent (n := 8) (buf := [x]) (k := 0) hi hclean
    (by decide) ha (by simp [hc, bitsToWrite])
  rw [show 8 * 0 + 7 - s.w.cur.val = 7 by rw [hc]; rfl] at hw hexec
  have heq := hw.eq_of_count_zero (by simp [hc])
  have hout : w.sinkOutput = s.w.sinkOutput := by rw [heq]; rfl
  have hbits := hw.completed h7 (by simp)
  rw [hout, WriterUnit.writtenBits, WriterUnit.pendingBits_boundary hc, List.append_nil] at hbits
  have hacc := byteBits_injective ((List.append_cancel_left hbits).trans (by
    rw [bitsOf_cons, bitsOf_nil, List.append_nil, List.take_of_length_le (by simp)]))
  rw [hexec, hacc, heq, h7]
  rfl

/-- A clean unit W given a byte and reset before the sink answers: only the mark of an answer to discard has
changed. -/
theorem run_writebits_reset {s : State} {x : Byte} {rest : List Input} (hi : s.w.task = none)
    (hc : s.w.cur = 0) (h₀ : s.w.acc = 0x00) (ha : s.w.answers = [])
    (hin : s.inputs = .command .unitW (encode (.writebits 8 [x])) :: .resetW :: rest) (m : Nat) :
    Sys2Proof.core.run (m + 2) s = Sys2Proof.core.run m { s with
      w := { s.w with stale := true }, inputs := rest } := by
  have hwait := (step_encoded (i := .writebits 8 [x]) rfl hin).trans
    (exec_writebits_byte_silent (s := { s with inputs := .resetW :: rest }) hi hc h₀ ha x)
  have hreset : ({ s.w with cur := 7, acc := x, task := some (.writebits 8 [x] 7) } :
      WriterUnit).applyReset = { s.w with stale := true } := by
    simp [WriterUnit.applyReset, hi, hc, h₀]
  rw [run_succ_next hwait, run_succ_next (step_resetW rfl), hreset]

/-- However often that is repeated, one answer is to be discarded. -/
theorem run_writebits_resets {x : Byte} {tail : List Input} (m k : Nat) : ∀ {s : State},
    s.w.task = none → s.w.cur = 0 → s.w.acc = 0x00 → s.w.answers = [] →
    s.inputs = (List.replicate (k + 1)
      [.command .unitW (encode (.writebits 8 [x])), .resetW]).flatten ++ tail →
    Sys2Proof.core.run (2 * (k + 1) + m) s = Sys2Proof.core.run m { s with
      w := { s.w with stale := true }, inputs := tail } := by
  induction k with
  | zero =>
    intro s hi hc h₀ ha hin
    rw [Nat.add_comm]
    exact run_writebits_reset hi hc h₀ ha hin m
  | succ k ih =>
    intro s hi hc h₀ ha hin
    rw [show 2 * (k + 1 + 1) + m = 2 * (k + 1) + m + 2 by omega]
    exact (run_writebits_reset hi hc h₀ ha hin _).trans (ih hi hc h₀ ha rfl)

/-- While an answer is to be discarded, WRITEBITS of a byte waits through it and the next one accepts it. -/
theorem run_writebits_after_stale {s : State} {a : SinkAnswer} {v : Byte} {rest : List Input}
    (hi : s.w.task = none) (hc : s.w.cur = 0) (h₀ : s.w.acc = 0x00) (ha : s.w.answers = [])
    (hst : s.w.stale = true)
    (hin : s.inputs = .command .unitW (encode (.writebits 8 [v])) :: .sinkAnswer a ::
      .sinkAnswer .ack :: rest) :
    Sys2Proof.core.run 3 s = .next { s with
      w := { s.w with stale := false, log := s.w.log ++ [(v, .ack)]
                      responses := s.w.responses ++ [⟨0, 0, 8, none, []⟩] }
      inputs := rest } := by
  have hwait := (step_encoded (i := .writebits 8 [v]) rfl hin).trans (exec_writebits_byte_silent
    (s := { s with inputs := .sinkAnswer a :: .sinkAnswer .ack :: rest }) hi hc h₀ ha v)
  have hdrop := step_sinkStale (a := a) (rest := .sinkAnswer .ack :: rest)
    (s := { s with
      w := { s.w with cur := 7, acc := v, task := some (.writebits 8 [v] 7) }
      inputs := .sinkAnswer a :: .sinkAnswer .ack :: rest }) rfl hst
  have hack := writeLoopFrom_ack 8 [v] 7 (rest := [])
    (w := { s.w with
      cur := 7, acc := v, task := some (.writebits 8 [v] 7), stale := false
      answers := s.w.answers ++ [.ack] }) (by simp [ha])
  refine (run_succ_next hwait 2).trans ((run_succ_next hdrop 1).trans (run_one_next ?_))
  rw [step_sinkReady rfl rfl, resumeWriter_writebits rfl, hack]
  simp [finishWritebits, respondW, bitsToWrite, writeLoop, exhaustion, hi, hc, h₀, ha]
  rfl

/-- Settles O56: the rounds leave one answer to discard, and the last command waits through it. -/
theorem oneTransactionInFlightAcrossResets : Obligations.OneTransactionInFlightAcrossResets := by
  unfold Obligations.OneTransactionInFlightAcrossResets
  refine ⟨fun k s a v rest hk hi he hc ha hin => ?_, fun k s a v x rest hk hi hc h₀ ha hin => ?_⟩
  · obtain ⟨k, rfl⟩ := Nat.exists_eq_succ_of_ne_zero hk.ne'
    rw [List.append_assoc] at hin
    exact (run_readbit_resets 3 k hi he hc ha hin).trans
      (run_readbit_after_stale hi he hc ha rfl rfl)
  · obtain ⟨k, rfl⟩ := Nat.exists_eq_succ_of_ne_zero hk.ne'
    rw [List.append_assoc] at hin
    exact (run_writebits_resets 3 k hi hc h₀ ha hin).trans
      (run_writebits_after_stale hi hc h₀ ha rfl rfl)

end Sys2Proof.Machine
